-- ==== Sys2Proof/Word.lean ====
section
/-! DEFINITION. The words of the block (00_scope.md R8) and the shape of an IEEE 754 value. -/

namespace Sys2Proof

/-- A binary32 pattern: gains, buffer cells, samples, controls (R8). -/
abbrev F32 := BitVec 32

/-- A binary64 pattern: the sample rate and the deriver's intermediate values (R8). -/
abbrev F64 := BitVec 64

/-- A preset record word (R8). -/
abbrev Word16 := BitVec 16

/-- An IEEE 754 binary format: `prec` significand bits with the hidden one, `expBits` exponent bits, and
`one`, how many of the format's smallest positive number make 1.0. -/
structure Fmt where
  prec : Nat
  expBits : Nat
  one : Nat
  deriving DecidableEq, Repr

/-- The value a pattern stands for. A finite value is `units` times the format's smallest positive
number, so both zeros have `units = 0` and keep their sign (R15). -/
inductive FVal where
  | nan
  | inf (neg : Bool)
  | fin (neg : Bool) (units : Nat)
  deriving DecidableEq, Repr

/-- binary32; its smallest positive number is 2^-149. -/
def Fmt.b32 : Fmt :=
  { prec := 24, expBits := 8
    one := 0x20000000000000000000000000000000000000 }

/-- binary64; its smallest positive number is 2^-1074. -/
def Fmt.b64 : Fmt :=
  { prec := 53, expBits := 11
    one :=
      0x40000000000000000000000000000000000000000000000000000000000000000000000000000000000000000000000000000000000000000000000000000000000000000000000000000000000000000000000000000000000000000000000000000000000000000000000000000000000000000000000000000000000000000000000000000 }

/-- The magnitude pattern of infinity: exponent all ones, fraction zero. -/
def Fmt.infBits (f : Fmt) : Nat := (2 ^ f.expBits - 1) * 2 ^ (f.prec - 1)

/-- The weight of the sign bit. -/
def Fmt.signBit (f : Fmt) : Nat := 2 ^ (f.expBits + f.prec - 1)

end Sys2Proof
end

