-- ==== Sys2Proof/Config.lean ====
section
/-! DEFINITION. What the block's constants are (00_scope.md R6, R7) and what the spec leaves open:
the configuration functions a host may replace, and the free values. -/

namespace Sys2Proof.Config

/-- NATIVE_RATE = 22050 Hz, as binary64 (R6). -/
def nativeRate : F64 := 0x40D5888000000000#64

/-- TAP_UNIT = 4 (R6). -/
def tapUnit : Nat := 4

/-- RATE_MIN = 1.0 Hz, as binary64 (R7). -/
def rateMin : F64 := 0x3FF0000000000000#64

/-- CAP_MAX = 2^30 words (R7). -/
def capMax : Nat := 2 ^ 30

/-- BLOCK_MAX = 2^24 - 1 frames (R7). -/
def blockMax : Nat := 2 ^ 24 - 1

/-- SMOOTH_K, the binary32 nearest to 0.001 (R196). -/
def smoothK : F32 := 0x3A83126F#32

/-- DB_FLOOR = -90.0 dB, as binary32 (R6). -/
def dbFloor : F32 := 0xC2B40000#32

/-- FREE VALUE, one per draw: the pattern from which an arithmetic NaN of the datapath takes its
sign and payload (93_implementation_defined.md U11; log 6). -/
opaque freeNaN32 : Nat → BitVec 32

/-- FREE VALUE, fixed per place in the deriver's formulas: the pattern from which a NaN there would
take its sign and payload (U11; log 7). -/
opaque deriverNaN32 : Nat → BitVec 32

/-- FREE VALUE, as `deriverNaN32`, for binary64 (U11; log 7). -/
opaque deriverNaN64 : Nat → BitVec 64

/-- FREE VALUE, a function of the operand: the natural number that `trunc` or `ceil` of a
non-finite binary64 pattern gives; the spec states none (log 10). -/
opaque roundNonFinite : BitVec 64 → Nat

/-- FREE VALUE, a function of the operand: the binary64 nearest to 10^y where the model's interval
does not decide it, and what stands for 10^y at an infinite y (log 9). -/
opaque pow10Undecided : BitVec 32 → BitVec 64

/-- OPEN PARAMETER (U4): the replacement iirConvert functions, one per number, for rates other
than the native one (log 8). -/
opaque iirReplacement : Nat → BitVec 32 → BitVec 64 → BitVec 32

/-- OPEN PARAMETER (U5): the replacement dbToLinCore functions, one per number (log 8). -/
opaque dbReplacement : Nat → BitVec 32 → BitVec 32

end Sys2Proof.Config
end

