-- ==== Sys2Proof/Machine/Float.lean ====
section
/-! DEFINITION. IEEE 754 arithmetic, round to nearest even, subnormals kept, no fused operation
(00_scope.md R13). A finite value of a format is a natural number of units, the smallest positive number, so every
exact result is a quotient of natural numbers and is rounded once. -/

namespace Sys2Proof

/-- The magnitude of a finite pattern, in units of the format's smallest positive number. -/
def Fmt.unitsOf (f : Fmt) (mag : Nat) : Nat :=
  let frac := mag % 2 ^ (f.prec - 1)
  let e := mag / 2 ^ (f.prec - 1)
  if e = 0 then frac else (2 ^ (f.prec - 1) + frac) * 2 ^ (e - 1)

/-- The value of a pattern. -/
@[irreducible] def Fmt.unpack (f : Fmt) (bits : Nat) : FVal :=
  let neg := decide (f.signBit ≤ bits)
  let mag := bits % f.signBit
  if mag < f.infBits then .fin neg (Fmt.unitsOf f mag)
  else if mag = f.infBits then .inf neg
  else .nan

/-- The exponent of the last place kept of a magnitude of `q` whole units. -/
def Fmt.ulpExp (f : Fmt) (q : Nat) : Nat := Nat.log2 q - (f.prec - 1)

/-- `n / d` to the nearest natural number, ties to even. -/
def roundNat (n d : Nat) : Nat :=
  if d < 2 * (n % d) ∨ (d = 2 * (n % d) ∧ n / d % 2 = 1) then n / d + 1 else n / d

/-- The magnitude pattern nearest to `n / d` units, ties to even, infinity on overflow. A binade's
patterns follow the one before, so the exponent field and a carry come out of one sum. -/
def Fmt.roundMag (f : Fmt) (n d : Nat) : Nat :=
  let e := Fmt.ulpExp f (n / d)
  min f.infBits (e * 2 ^ (f.prec - 1) + roundNat n (d * 2 ^ e))

def Fmt.withSign (f : Fmt) (neg : Bool) (mag : Nat) : Nat :=
  if neg then f.signBit + mag else mag

/-- The pattern of the rounded signed quotient `n / d` units. -/
def Fmt.pack (f : Fmt) (neg : Bool) (n d : Nat) : Nat := Fmt.withSign f neg (Fmt.roundMag f n d)

def Fmt.inf (f : Fmt) (neg : Bool) : Nat := Fmt.withSign f neg f.infBits

/-- Addition. An exact zero sum is -0.0 only when both operands are negative. -/
def Fmt.add (f : Fmt) (nan a b : Nat) : Nat :=
  match Fmt.unpack f a, Fmt.unpack f b with
  | .nan, _ => nan
  | _, .nan => nan
  | .inf x, .inf y => if x = y then Fmt.inf f x else nan
  | .inf x, .fin _ _ => Fmt.inf f x
  | .fin _ _, .inf y => Fmt.inf f y
  | .fin x m, .fin y n =>
    if x = y then Fmt.pack f x (m + n) 1
    else if m = n then Fmt.pack f false 0 1
    else if n < m then Fmt.pack f x (m - n) 1
    else Fmt.pack f y (n - m) 1

/-- The pattern with its sign bit flipped. -/
def Fmt.neg (f : Fmt) (a : Nat) : Nat := if f.signBit ≤ a then a - f.signBit else a + f.signBit

/-- Subtraction is the addition of the negated operand. -/
def Fmt.sub (f : Fmt) (nan a b : Nat) : Nat := Fmt.add f nan a (Fmt.neg f b)

/-- Multiplication. Zero times infinity is NaN. -/
def Fmt.mul (f : Fmt) (nan a b : Nat) : Nat :=
  match Fmt.unpack f a, Fmt.unpack f b with
  | .nan, _ => nan
  | _, .nan => nan
  | .inf x, .inf y => Fmt.inf f (x != y)
  | .inf x, .fin y n => if n = 0 then nan else Fmt.inf f (x != y)
  | .fin x m, .inf y => if m = 0 then nan else Fmt.inf f (x != y)
  | .fin x m, .fin y n => Fmt.pack f (x != y) (m * n) f.one

/-- Division. A finite non-zero number over zero is infinity; 0/0 and inf/inf are NaN. -/
def Fmt.div (f : Fmt) (nan a b : Nat) : Nat :=
  match Fmt.unpack f a, Fmt.unpack f b with
  | .nan, _ => nan
  | _, .nan => nan
  | .inf _, .inf _ => nan
  | .inf x, .fin y _ => Fmt.inf f (x != y)
  | .fin x _, .inf y => Fmt.pack f (x != y) 0 1
  | .fin x m, .fin y n =>
    if n = 0 then (if m = 0 then nan else Fmt.inf f (x != y))
    else Fmt.pack f (x != y) (m * f.one) n

/-- The pattern of `a`'s value (format `g`) rounded to format `f`. -/
def Fmt.convert (f g : Fmt) (nan a : Nat) : Nat :=
  match Fmt.unpack g a with
  | .nan => nan
  | .inf x => Fmt.inf f x
  | .fin x m => Fmt.pack f x (m * f.one) g.one

/-- The order key of a pattern that is not NaN: equal for both zeros. -/
def Fmt.key (f : Fmt) (a : Nat) : Int :=
  if f.signBit ≤ a then -((a % f.signBit : Nat) : Int) else ((a % f.signBit : Nat) : Int)

def Fmt.isNaN (f : Fmt) (a : Nat) : Bool := f.infBits < a % f.signBit

def Fmt.isFinite (f : Fmt) (a : Nat) : Bool := a % f.signBit < f.infBits

/-- `a <= b`, false when either is NaN. -/
def Fmt.le (f : Fmt) (a b : Nat) : Bool :=
  !Fmt.isNaN f a && !Fmt.isNaN f b && decide (Fmt.key f a ≤ Fmt.key f b)

/-- `a < b`, false when either is NaN. -/
def Fmt.lt (f : Fmt) (a b : Nat) : Bool :=
  !Fmt.isNaN f a && !Fmt.isNaN f b && decide (Fmt.key f a < Fmt.key f b)

-- binary32: the first argument is the NaN the operation gives where it gives one

def F32.isNaN (a : F32) : Bool := Fmt.isNaN .b32 a.toNat
def F32.isFinite (a : F32) : Bool := Fmt.isFinite .b32 a.toNat
def F32.le (a b : F32) : Bool := Fmt.le .b32 a.toNat b.toNat
def F32.isZero (a : F32) : Bool := a == 0x00000000#32 || a == 0x80000000#32

/-- `a +f b` (R13). -/
def F32.add (nan a b : F32) : F32 := BitVec.ofNat 32 (Fmt.add .b32 nan.toNat a.toNat b.toNat)
/-- `a -f b` (R13). -/
def F32.sub (nan a b : F32) : F32 := BitVec.ofNat 32 (Fmt.sub .b32 nan.toNat a.toNat b.toNat)
/-- `a *f b` (R13). -/
def F32.mul (nan a b : F32) : F32 := BitVec.ofNat 32 (Fmt.mul .b32 nan.toNat a.toNat b.toNat)
/-- `a /f b` (R13). -/
def F32.div (nan a b : F32) : F32 := BitVec.ofNat 32 (Fmt.div .b32 nan.toNat a.toNat b.toNat)

-- binary64

def F64.isFinite (a : F64) : Bool := Fmt.isFinite .b64 a.toNat
def F64.lt (a b : F64) : Bool := Fmt.lt .b64 a.toNat b.toNat
/-- `a +d b` (R13). -/
def F64.add (nan a b : F64) : F64 := BitVec.ofNat 64 (Fmt.add .b64 nan.toNat a.toNat b.toNat)
/-- `a -d b` (R13). -/
def F64.sub (nan a b : F64) : F64 := BitVec.ofNat 64 (Fmt.sub .b64 nan.toNat a.toNat b.toNat)
/-- `a *d b` (R13). -/
def F64.mul (nan a b : F64) : F64 := BitVec.ofNat 64 (Fmt.mul .b64 nan.toNat a.toNat b.toNat)
/-- `a /d b` (R13). -/
def F64.div (nan a b : F64) : F64 := BitVec.ofNat 64 (Fmt.div .b64 nan.toNat a.toNat b.toNat)

/-- `fl64` of a binary32 value, exact unless NaN (R13). -/
def F32.toF64 (nan : F64) (a : F32) : F64 :=
  BitVec.ofNat 64 (Fmt.convert .b64 .b32 nan.toNat a.toNat)

/-- `fl32` of a binary64 value (R13). -/
def F64.toF32 (nan : F32) (a : F64) : F32 :=
  BitVec.ofNat 32 (Fmt.convert .b32 .b64 nan.toNat a.toNat)

/-- `fl32` of the signed quotient `n / d` (R13). -/
def F32.ofQuotient (neg : Bool) (n d : Nat) : F32 :=
  BitVec.ofNat 32 (Fmt.pack .b32 neg (n * Fmt.b32.one) d)

/-- `fl64` of a natural number (R13). -/
def F64.ofNat (n : Nat) : F64 :=
  BitVec.ofNat 64 (Fmt.pack .b64 false (n * Fmt.b64.one) 1)

/-- `trunc` toward zero of a binary64 value (R12). Of a non-finite value the spec states no integer:
a free value of the operand (log 10). -/
def F64.trunc (a : F64) : Int :=
  match Fmt.unpack .b64 a.toNat with
  | .fin neg m => if neg then -((m / Fmt.b64.one : Nat) : Int) else ((m / Fmt.b64.one : Nat) : Int)
  | _ => (Config.roundNonFinite a : Int)

/-- `ceil` of a binary64 value that is not negative (R12, R157); a negative one, which no size product
is, gives 0. Of a non-finite value the spec states no integer: a free value of the operand (log 10). -/
def F64.ceilNat (a : F64) : Nat :=
  match Fmt.unpack .b64 a.toNat with
  | .fin neg m => if neg then 0 else (m + (Fmt.b64.one - 1)) / Fmt.b64.one
  | _ => Config.roundNonFinite a

/-- `fl64` of the signed decimal `digits / 10^scale` (30_encoding.md R108). -/
def F64.ofDecimal (neg : Bool) (digits scale : Nat) : F64 :=
  BitVec.ofNat 64 (Fmt.pack .b64 neg (digits * Fmt.b64.one) (10 ^ scale))

-- the NaN patterns the free values stand for: every NaN pattern is one of these (U11)

def asNaN32 (x : BitVec 32) : F32 := if F32.isNaN x then x else x ||| 0x7FC00000#32
def asNaN64 (x : BitVec 64) : F64 :=
  if Fmt.isNaN .b64 x.toNat then x else x ||| 0x7FF8000000000000#64

/-- The NaN of the deriver's `i`-th binary32 place (log 7). -/
def deriverNaN32 (i : Nat) : F32 := asNaN32 (Config.deriverNaN32 i)
/-- The NaN of the deriver's `i`-th binary64 place (log 7). -/
def deriverNaN64 (i : Nat) : F64 := asNaN64 (Config.deriverNaN64 i)

end Sys2Proof
end

