-- ==== Sys2Proof/Syntax.lean ====
section
/-! DEFINITION. The 23 operations of opcode_table.json (30_encoding.md R92, R94, R95), the code words
that stand for them, and the host's side of the interface: commands with their port values (R93) and
assembly lines (R108, R109). -/

namespace Sys2Proof

/-- One constructor per row of opcode_table.json. Only RUN_BLOCK has an operand field (R100, R101). -/
inductive Instr where
  -- format H (R92)
  | construct
  | reset
  | runBlock (n : BitVec 24)
  -- format I (R94)
  | select
  | latch
  | frame
  | derive
  | clear
  -- format U (R95)
  | input
  | sameL
  | sameR
  | diffL
  | diffR
  | combL
  | combR
  | apf1L
  | apf1R
  | apf2L
  | apf2R
  | adv
  | smooth
  | mixL
  | mixR
  deriving DecidableEq, Repr

/-- A code word of one of the three formats (R90): a host command word, a block-level code, a
micro-step code. -/
inductive CodeWord where
  | h (w : BitVec 32)
  | i (c : BitVec 4)
  | u (c : BitVec 4)
  deriving DecidableEq, Repr

/-- Why a code word stands for no operation (R102, R103, R104). -/
inductive DecodeError where
  /-- OPC 0x00 or 0x04 to 0xFF (R102). -/
  | reservedOpcode
  /-- CONSTRUCT or RESET with a non-zero IMM24 (R103). -/
  | immediateNotZero
  /-- RUN_BLOCK with IMM24 = 0 (R103). -/
  | zeroLength
  /-- A format I code 0x5 to 0xF (R104). -/
  | reservedBlockCode
  /-- The format U code 0xF (R104). -/
  | reservedMicroCode
  deriving DecidableEq, Repr

/-- The input ports (R93). A stream is given by the word address of its element 0 in the host's
sample memory (log 15). -/
structure Ports where
  rate : F64
  capsOk : Bool
  presetIn : BitVec 32
  wetDb : F32
  dryDb : F32
  masterDb : F32
  inL : Nat
  inR : Nat
  outL : Nat
  outR : Nat
  deriving DecidableEq, Repr

/-- One command as the host issues it: the format H word, the port values, and the input samples it
has put into its streams (R93, R108). -/
structure HostCommand where
  word : BitVec 32
  ports : Ports
  samplesL : List F32
  samplesR : List F32
  deriving DecidableEq, Repr

/-- A number of an assembly line (R108): the decimal `digits / 10^scale` with its sign, an infinity, or a
binary32 pattern in hexadecimal. -/
inductive AsmNum where
  | dec (neg : Bool) (digits scale : Nat)
  | inf (neg : Bool)
  | hex (w : BitVec 32)
  deriving DecidableEq, Repr

/-- A line of the spec's assembly (R108) or a pseudo-instruction (R109), as its parts (log 22). The rate is
a decimal, `caps` may be left out. -/
inductive AsmLine where
  | construct (neg : Bool) (digits scale : Nat) (caps : Option Bool)
  | reset
  | runBlock (n : Nat) (preset : Int) (wet dry master : AsmNum) (inL inR : List AsmNum)
  | silence (n : Nat) (preset : Int) (wet dry master : AsmNum)
  | impulseL (n : Nat) (amp : AsmNum) (preset : Int) (wet dry master : AsmNum)
  | impulseR (n : Nat) (amp : AsmNum) (preset : Int) (wet dry master : AsmNum)
  deriving DecidableEq, Repr

end Sys2Proof
end

