-- ==== Sys2Proof/WellFormed.lean ====
section
/-! DEFINITION. Which instructions, commands and assembly lines are well formed. -/

namespace Sys2Proof

/-- RUN_BLOCK's length is not zero (30_encoding.md R103); every other instruction is well formed. -/
def Instr.wf : Instr → Bool
  | .runBlock n => n != 0#24
  | .construct | .reset | .select | .latch | .frame | .derive | .clear | .input | .sameL | .sameR
  | .diffL | .diffR | .combL | .combR | .apf1L | .apf1R | .apf2L | .apf2R | .adv | .smooth | .mixL
  | .mixR => true

/-- A RUN_BLOCK command carries exactly `n` samples per channel, the other commands none (R108). -/
def HostCommand.wf (c : HostCommand) : Bool :=
  let n := if c.word.extractLsb' 24 8 == 0x03#8 then (c.word.extractLsb' 0 24).toNat else 0
  c.samplesL.length == n && c.samplesR.length == n

/-- A block length fits IMM24 and is not zero, and a preset index fits its port (R93, R100). -/
def blockOperandsWf (n : Nat) (preset : Int) : Bool :=
  (1 ≤ n && n ≤ Config.blockMax) && (-(2 ^ 31) ≤ preset && preset < 2 ^ 31)

/-- The operands fit, and the sample lists have the block's length (R108). -/
def AsmLine.wf : AsmLine → Bool
  | .construct _ _ _ _ => true
  | .reset => true
  | .runBlock n p _ _ _ l r => blockOperandsWf n p && (l.length == n && r.length == n)
  | .silence n p _ _ _ => blockOperandsWf n p
  | .impulseL n _ p _ _ _ => blockOperandsWf n p
  | .impulseR n _ p _ _ _ => blockOperandsWf n p

end Sys2Proof
end

