-- ==== Sys2Proof/Decode.lean ====
section
/-! DEFINITION. Decoding, total on every word, and the encoder beside it (30_encoding.md R91 to R107). -/

namespace Sys2Proof

/-- OPC, bits 31:24 of a format H word (R91). -/
def opcField (w : BitVec 32) : BitVec 8 := w.extractLsb' 24 8

/-- IMM24, bits 23:0 of a format H word (R91). -/
def immField (w : BitVec 32) : BitVec 24 := w.extractLsb' 0 24

/-- decodeH of R107. -/
def decodeH (w : BitVec 32) : Except DecodeError Instr :=
  if opcField w = 0x01#8 then
    if immField w = 0#24 then .ok .construct else .error .immediateNotZero
  else if opcField w = 0x02#8 then
    if immField w = 0#24 then .ok .reset else .error .immediateNotZero
  else if opcField w = 0x03#8 then
    if immField w = 0#24 then .error .zeroLength else .ok (.runBlock (immField w))
  else .error .reservedOpcode

/-- The block-level codes (R94). -/
def decodeI (c : BitVec 4) : Except DecodeError Instr :=
  match c.toNat with
  | 0x0 => .ok .select
  | 0x1 => .ok .latch
  | 0x2 => .ok .frame
  | 0x3 => .ok .derive
  | 0x4 => .ok .clear
  | _ => .error .reservedBlockCode

/-- The micro-step codes (R95). -/
def decodeU (c : BitVec 4) : Except DecodeError Instr :=
  match c.toNat with
  | 0x0 => .ok .input
  | 0x1 => .ok .sameL
  | 0x2 => .ok .sameR
  | 0x3 => .ok .diffL
  | 0x4 => .ok .diffR
  | 0x5 => .ok .combL
  | 0x6 => .ok .combR
  | 0x7 => .ok .apf1L
  | 0x8 => .ok .apf1R
  | 0x9 => .ok .apf2L
  | 0xA => .ok .apf2R
  | 0xB => .ok .adv
  | 0xC => .ok .smooth
  | 0xD => .ok .mixL
  | 0xE => .ok .mixR
  | _ => .error .reservedMicroCode

/-- The operation a code word stands for, or the reason it stands for none. -/
def decode : CodeWord → Except DecodeError Instr
  | .h w => decodeH w
  | .i c => decodeI c
  | .u c => decodeU c

/-- The code word of an instruction (R92, R94, R95). -/
def encode : Instr → CodeWord
  | .construct => .h (0x01#8 ++ 0#24)
  | .reset => .h (0x02#8 ++ 0#24)
  | .runBlock n => .h (0x03#8 ++ n)
  | .select => .i 0x0#4
  | .latch => .i 0x1#4
  | .frame => .i 0x2#4
  | .derive => .i 0x3#4
  | .clear => .i 0x4#4
  | .input => .u 0x0#4
  | .sameL => .u 0x1#4
  | .sameR => .u 0x2#4
  | .diffL => .u 0x3#4
  | .diffR => .u 0x4#4
  | .combL => .u 0x5#4
  | .combR => .u 0x6#4
  | .apf1L => .u 0x7#4
  | .apf1R => .u 0x8#4
  | .apf2L => .u 0x9#4
  | .apf2R => .u 0xA#4
  | .adv => .u 0xB#4
  | .smooth => .u 0xC#4
  | .mixL => .u 0xD#4
  | .mixR => .u 0xE#4

/-- The code word that `nbits` bits `w` of opcode_table.json stand for: 32 bits are a format H word.
A row of 4 bits arrives as one byte and does not say its format; the model reads it as format U
(log 14). -/
def tableWord (nbits w : Nat) : Option CodeWord :=
  if nbits ≤ 8 then (if w < 16 then some (.u (BitVec.ofNat 4 w)) else none)
  else if w < 2 ^ 32 then some (.h (BitVec.ofNat 32 w)) else none

/-- The host's question of a table row: what the decoder reads. -/
def decodeTableWord (nbits w : Nat) : Option Instr :=
  match tableWord nbits w with
  | none => none
  | some cw =>
    match decode cw with
    | .ok i => some i
    | .error _ => none

end Sys2Proof
end

