-- ==== Sys2Proof/Machine/State.lean ====
section
/-! DEFINITION. The state of one instance of the block (10_state.md R20 to R49), why it can stop, and
the state before CONSTRUCT. -/

namespace Sys2Proof.Machine

/-- LIFE (R21). The value 3 is never produced. -/
inductive Life where
  | unconstructed
  | ready
  | failed
  deriving DecidableEq, Repr

/-- CFGERR (R21). The values 4 to 15 are never produced. -/
inductive CfgErr where
  | none
  | badRate
  | noCapability
  | capacity
  deriving DecidableEq, Repr

/-- PHASE (R42). -/
inductive Phase where
  | idle
  | block
  deriving DecidableEq, Repr

/-- The 32 fields of a preset record (R28). -/
inductive Field where
  | dAPF1 | dAPF2 | vIIR | vCOMB1 | vCOMB2 | vCOMB3 | vCOMB4 | vWALL | vAPF1 | vAPF2
  | mLSAME | mRSAME | mLCOMB1 | mRCOMB1 | mLCOMB2 | mRCOMB2 | dLSAME | dRSAME | mLDIFF | mRDIFF
  | mLCOMB3 | mRCOMB3 | mLCOMB4 | mRCOMB4 | dLDIFF | dRDIFF | mLAPF1 | mRAPF1 | mLAPF2 | mRAPF2
  | vLIN | vRIN
  deriving DecidableEq, Repr

/-- RAW[0..31]: a preset record (R28, R96). -/
abbrev Record := Vector Word16 32

/-- A catalog entry: a record and its SPAN (R10, R62, R99). -/
structure CatalogEntry where
  words : Record
  span : BitVec 32
  deriving DecidableEq, Repr

/-- CATALOG. It has at least one entry (R7, R255), so the first stands apart. -/
structure Catalog where
  first : CatalogEntry
  rest : List CatalogEntry
  deriving DecidableEq, Repr

/-- P, the derived parameter set (R32): 20 taps, 2 depths, 10 gains. -/
structure Params where
  dAPF1 : Int
  dAPF2 : Int
  mLSAME : Int
  mRSAME : Int
  mLCOMB1 : Int
  mRCOMB1 : Int
  mLCOMB2 : Int
  mRCOMB2 : Int
  dLSAME : Int
  dRSAME : Int
  mLDIFF : Int
  mRDIFF : Int
  mLCOMB3 : Int
  mRCOMB3 : Int
  mLCOMB4 : Int
  mRCOMB4 : Int
  dLDIFF : Int
  dRDIFF : Int
  mLAPF1 : Int
  mRAPF1 : Int
  mLAPF2 : Int
  mRAPF2 : Int
  vIIR : F32
  vCOMB1 : F32
  vCOMB2 : F32
  vCOMB3 : F32
  vCOMB4 : F32
  vWALL : F32
  vAPF1 : F32
  vAPF2 : F32
  vLIN : F32
  vRIN : F32
  deriving DecidableEq, Repr

/-- Which function stands at an open parameter: the spec's default, or one of the replacements
(R7; log 8). -/
inductive ConfigFn where
  | default
  | replacement (id : Nat)
  deriving DecidableEq, Repr

/-- The two configuration functions of R7. -/
structure ConfigFns where
  iirConvert : ConfigFn
  dbToLinCore : ConfigFn
  deriving DecidableEq, Repr

/-- A word memory: (address, word) pairs, addresses strictly rising, no word +0.0 listed. The spec has
no byte view (R72), so the cell is a word (log 19). -/
abbrev WordMem := List (Nat × F32)

/-- The machine's state. -/
structure State where
  -- status (1.2)
  life : Life
  fi : Bool
  fn : Bool
  rf : Bool
  cfgErr : CfgErr
  diag : BitVec 32
  lastInv : BitVec 32
  -- configuration (1.3)
  rate : F64
  capsOk : Bool
  catalog : Catalog
  cap : Nat
  -- preset (1.4)
  active : BitVec 32
  raw : Record
  span : BitVec 32
  -- derived parameters (1.5)
  stretch : F64
  params : Params
  bufSize : Nat
  -- engine (1.6)
  cursor : Nat
  ram : WordMem
  gWet : F32
  gDry : F32
  gMaster : F32
  tWet : F32
  tDry : F32
  tMaster : F32
  -- working (1.7)
  lin : Option F32
  rin : Option F32
  lout : Option F32
  rout : Option F32
  -- sequencer (1.8)
  phase : Phase
  bstep : BitVec 4
  ustep : BitVec 4
  k : Nat
  nblk : Nat
  -- host-visible interface (1.9)
  ports : Ports
  samples : WordMem
  -- the model's own fields
  pending : List HostCommand
  fns : ConfigFns
  draws : Nat
  deriving DecidableEq, Repr

/-- Why the machine stops. Each stop is safe: the machine goes no further. -/
inductive Fault where
  /-- Raised by a delay RAM access outside [0, CAP) (20_memory.md R69, U1); safe. -/
  | ramOutOfRange
  /-- Raised by a micro-step that reads a working register holding no value (R40, U13); safe. -/
  | workingUnwritten
  /-- Raised by the sequencer on a reserved format I or U code (30_encoding.md R104, U8); safe. -/
  | reservedCode
  /-- Raised by a host command while PHASE = BLOCK: it has no move (R120, U10); safe. -/
  | commandDuringBlock
  /-- Raised by DERIVE with an index that names no preset, outside its operand's range (R150); safe. -/
  | noSuchPreset
  deriving DecidableEq, Repr

/-- The errors the block records (R221). -/
inductive Cause where
  | cfgBadRate
  | cfgNoCapability
  | cfgCapacity
  | presetInvalid (p : BitVec 32)
  | faultInvariant
  | faultNumeric
  | refused
  deriving DecidableEq, Repr

/-- Why the model gives an instruction no meaning. -/
inductive Refusal where
  /-- Raised by exec for an instruction without a meaning, by its table name; safe. No arm uses it. -/
  | notModelled (mnemonic : String)
  deriving DecidableEq, Repr

/-- What a step or a meaning answers. -/
abbrev Out := Host.Outcome State Fault Refusal

/-- What the sequencer has found to do (R43, R83). -/
inductive Fetched where
  /-- PHASE = IDLE and the host has issued nothing. -/
  | nothing
  /-- A host command, with the state in which its ports are presented. -/
  | command (i : Instr) (s : State)
  /-- A host word that decodes to no command, with the state in which its ports are presented. -/
  | undecodable (s : State)
  /-- An internal operation, with the state in which it runs. -/
  | internal (i : Instr) (s : State)
  /-- A reserved internal code. -/
  | reserved
  deriving DecidableEq, Repr

def Record.zero : Record := Vector.replicate 32 0#16

def Params.zero : Params :=
  { dAPF1 := 0, dAPF2 := 0, mLSAME := 0, mRSAME := 0, mLCOMB1 := 0, mRCOMB1 := 0, mLCOMB2 := 0
    mRCOMB2 := 0, dLSAME := 0, dRSAME := 0, mLDIFF := 0, mRDIFF := 0, mLCOMB3 := 0, mRCOMB3 := 0
    mLCOMB4 := 0, mRCOMB4 := 0, dLDIFF := 0, dRDIFF := 0, mLAPF1 := 0, mRAPF1 := 0, mLAPF2 := 0
    mRAPF2 := 0, vIIR := 0#32, vCOMB1 := 0#32, vCOMB2 := 0#32, vCOMB3 := 0#32, vCOMB4 := 0#32
    vWALL := 0#32, vAPF1 := 0#32, vAPF2 := 0#32, vLIN := 0#32, vRIN := 0#32 }

def Ports.zero : Ports :=
  { rate := 0#64, capsOk := false, presetIn := 0#32, wetDb := 0#32, dryDb := 0#32
    masterDb := 0#32, inL := 0, inR := 0, outL := 0, outR := 0 }

/-- The state before CONSTRUCT (R48). STATUS = 0 is the spec's; every other value is the model's
choice, since the registers hold no value there (log 3, log 4, log 5). -/
def State.reset : State :=
  { life := .unconstructed, fi := false, fn := false, rf := false, cfgErr := .none
    diag := 0#32, lastInv := 0#32
    rate := 0#64, capsOk := false
    catalog := { first := { words := Record.zero, span := 0#32 }, rest := [] }
    cap := 1
    active := 0#32, raw := Record.zero, span := 0#32
    stretch := 0#64, params := Params.zero, bufSize := 1
    cursor := 0, ram := []
    gWet := 0#32, gDry := 0#32, gMaster := 0#32, tWet := 0#32, tDry := 0#32, tMaster := 0#32
    lin := some 0#32, rin := some 0#32, lout := some 0#32, rout := some 0#32
    phase := .idle, bstep := 0#4, ustep := 0#4, k := 0, nblk := 0
    ports := Ports.zero, samples := []
    pending := [], fns := { iirConvert := .default, dbToLinCore := .default }, draws := 0 }

end Sys2Proof.Machine
end

