-- ==== Sys2Proof/Machine/Ops.lean ====
section
/-! DEFINITION. The shared operations: word memories, the cursor-relative access (20_memory.md R64,
R69, R70), the working registers (R40), free values, the recording of an error (60_exceptions.md
R221, R230), the sequencer's moves (10_state.md R43) and the presentation of a command (R93). -/

namespace Sys2Proof.Machine

/-- Goes on with `k` when `o` answers a next state. -/
def andThen (o : Out) (k : State → Out) : Out :=
  match o with
  | .next s => k s
  | .fault r => .fault r
  | .refused r => .refused r

-- word memories

/-- The word at `a`; an unlisted word is +0.0. -/
def memRead : WordMem → Nat → F32
  | [], _ => 0#32
  | (b, v) :: m, a => if a = b then v else memRead m a

/-- Lists `v` at `a` in front of `m`, unless it is what an unlisted word reads as. -/
def memCons (a : Nat) (v : F32) (m : WordMem) : WordMem := if v = 0#32 then m else (a, v) :: m

/-- Stores `v` at `a` and changes no other word (R70). -/
def memWrite : WordMem → Nat → F32 → WordMem
  | [], a, v => memCons a v []
  | (b, u) :: m, a, v =>
    if a < b then memCons a v ((b, u) :: m)
    else if a = b then memCons a v m
    else (b, u) :: memWrite m a v

/-- Stores a list from address `a` up. -/
def memWriteList : WordMem → Nat → List F32 → WordMem
  | m, _, [] => m
  | m, a, v :: vs => memWriteList (memWrite m a v) (a + 1) vs

/-- The canonical form: addresses strictly rising, all above `lo`, no +0.0 listed. -/
def memWfFrom : Nat → WordMem → Bool
  | _, [] => true
  | lo, (a, v) :: m => decide (lo ≤ a) && v != 0#32 && memWfFrom (a + 1) m

/-- The canonical form of a word memory. -/
def memWf (m : WordMem) : Bool := memWfFrom 0 m

-- the cursor-relative access

/-- addr(o) = (CURSOR + o) mod B (R64). -/
def bufAddr (s : State) (o : Int) : Nat := (((s.cursor : Int) + o) % (s.bufSize : Int)).toNat

/-- Buf(o) read (R64, R69): faults outside [0, CAP), which R64 cannot form while B <= CAP. -/
def withBuf (s : State) (o : Int) (k : F32 → Out) : Out :=
  if bufAddr s o < s.cap then k (memRead s.ram (bufAddr s o)) else .fault .ramOutOfRange

/-- The state after Buf(o) <- v. -/
def State.setBuf (s : State) (o : Int) (v : F32) : State :=
  { s with ram := memWrite s.ram (bufAddr s o) v }

/-- Buf(o) <- v (R64, R70). -/
def writeBuf (s : State) (o : Int) (v : F32) : Out :=
  if bufAddr s o < s.cap then .next (s.setBuf o v) else .fault .ramOutOfRange

/-- Every RAM word +0.0 and CURSOR 0: the common part of CLEAR (R161) and RESET (R122). -/
def State.clearRam (s : State) : State := { s with ram := [], cursor := 0 }

-- working registers

/-- Reads a working register; one that holds no value faults (R40, U13). -/
def withReg (r : Option F32) (k : F32 → Out) : Out :=
  match r with
  | some x => k x
  | none => .fault .workingUnwritten

/-- The working registers hold no value: at the start of a FRAME (R126, R40) and after it (R199). -/
def State.clearWorking (s : State) : State :=
  { s with lin := none, rin := none, lout := none, rout := none }

-- free values

/-- The NaN that draw `d` gives (U11; log 6). -/
def nan32 (d : Nat) : F32 := asNaN32 (Config.freeNaN32 d)

/-- `n` draws have been used. -/
def State.drew (s : State) (n : Nat) : State := { s with draws := s.draws + n }

-- errors

/-- The cause codes (R221). -/
def causeCode : Cause → BitVec 8
  | .cfgBadRate => 0x01#8
  | .cfgNoCapability => 0x02#8
  | .cfgCapacity => 0x03#8
  | .presetInvalid _ => 0x10#8
  | .faultInvariant => 0x20#8
  | .faultNumeric => 0x21#8
  | .refused => 0x30#8

/-- Which errors are fatal to the instance (R221). -/
def causeFatal : Cause → Bool
  | .cfgBadRate | .cfgNoCapability | .cfgCapacity => true
  | .presetInvalid _ | .faultInvariant | .faultNumeric | .refused => false

/-- A counter that saturates at 2^32 - 1 (R22). -/
def satIncr (d : BitVec 32) : BitVec 32 := if d = 0xFFFFFFFF#32 then d else d + 1#32

/-- A failed construction: LIFE = FAILED and CFGERR, all that R121's pseudocode writes up to its stop and R221's
column "records" (R230). From STATUS = 0, where CONSTRUCT starts by R48, that is R50's state (log 11). -/
def State.failConstruct (s : State) (e : CfgErr) : State := { s with life := .failed, cfgErr := e }

/-- Raising an error: what R221's column "records" says is written and nothing else. No state is saved and
control goes nowhere (R230); there is no return from it (R231). -/
def State.raise (s : State) : Cause → State
  | .cfgBadRate => s.failConstruct .badRate
  | .cfgNoCapability => s.failConstruct .noCapability
  | .cfgCapacity => s.failConstruct .capacity
  | .presetInvalid p => { s with diag := satIncr s.diag, lastInv := p }
  | .faultInvariant => { s with fi := true }
  | .faultNumeric => { s with fn := true }
  | .refused => { s with rf := true }

/-- `refuse` (R228): RF is set and nothing else changes. -/
def State.refuse (s : State) : State := s.raise .refused

-- the sequencer

/-- Enters PHASE = BLOCK at SELECT with the block length latched (R123, R43). -/
def State.startBlock (s : State) (n : Nat) : State :=
  { s with phase := .block, bstep := 0x0#4, ustep := 0x0#4, k := 0, nblk := n }

/-- The block-level operation in progress (R42). -/
def State.atBstep (s : State) (c : BitVec 4) : State := { s with bstep := c }

/-- The micro-step in progress (R42). -/
def State.atUstep (s : State) (c : BitVec 4) : State := { s with ustep := c }

/-- One frame done: K counts up, USTEP is 0 for the next frame (R43), and the working registers are not
retained (R199). -/
def State.frameDone (s : State) : State := { s.clearWorking with k := s.k + 1, ustep := 0x0#4 }

/-- The first frame is next. -/
def State.startFrames (s : State) : State := { s with bstep := 0x2#4, ustep := 0x0#4, k := 0 }

/-- Back to IDLE (R43). -/
def State.toIdle (s : State) : State := { s with phase := .idle }

/-- PHASE = BLOCK: where the sequencer stands after the internal operation it ran (R43). DERIVE and
CLEAR belong to SELECT, so LATCH follows them (log 17). -/
def State.advance (s : State) : State :=
  if s.bstep = 0x2#4 then
    if s.ustep = 0xE#4 then
      if s.k + 1 < s.nblk then s.frameDone else s.frameDone.toIdle
    else s.atUstep (s.ustep + 1#4)
  else if s.bstep = 0x1#4 then s.startFrames
  else s.atBstep 0x1#4

-- the host's command

/-- The host presents a command: its ports, and its input samples in its streams (R93). -/
def State.present (s : State) (c : HostCommand) (rest : List HostCommand) : State :=
  { s with
    ports := c.ports
    samples := memWriteList (memWriteList s.samples c.ports.inL c.samplesL) c.ports.inR c.samplesR
    pending := rest }

/-- What there is to do. IDLE: the host's next command. BLOCK: the operation at BSTEP, or within a
FRAME the micro-step at USTEP, the working registers cleared at the frame's first one (R40). -/
def State.fetch (s : State) : Fetched :=
  match s.phase with
  | .idle =>
    match s.pending with
    | [] => .nothing
    | c :: rest =>
      match decode (.h c.word) with
      | .ok i => .command i (s.present c rest)
      | .error _ => .undecodable (s.present c rest)
  | .block =>
    if s.bstep = 0x2#4 then
      match decode (.u s.ustep) with
      | .ok i => .internal i (if s.ustep = 0x0#4 then s.clearWorking else s)
      | .error _ => .reserved
    else
      match decode (.i s.bstep) with
      | .ok i => .internal i s
      | .error _ => .reserved

end Sys2Proof.Machine
end

