-- ==== Sys2Proof/Machine/Operands.lean ====
section
/-! DEFINITION. The operands of the operations: the catalog's entries (10_state.md R10, R28, R31), a record's
fields (R28, 30_encoding.md R96), the effective offsets of a preset (20_memory.md R78), the streams (R63,
R80), and the assembly of a line into a host command (30_encoding.md R108, R109). -/

namespace Sys2Proof.Machine

/-- The word index of a field in a record (R28). -/
def fieldIndex : Field → Fin 32
  | .dAPF1 => 0
  | .dAPF2 => 1
  | .vIIR => 2
  | .vCOMB1 => 3
  | .vCOMB2 => 4
  | .vCOMB3 => 5
  | .vCOMB4 => 6
  | .vWALL => 7
  | .vAPF1 => 8
  | .vAPF2 => 9
  | .mLSAME => 10
  | .mRSAME => 11
  | .mLCOMB1 => 12
  | .mRCOMB1 => 13
  | .mLCOMB2 => 14
  | .mRCOMB2 => 15
  | .dLSAME => 16
  | .dRSAME => 17
  | .mLDIFF => 18
  | .mRDIFF => 19
  | .mLCOMB3 => 20
  | .mRCOMB3 => 21
  | .mLCOMB4 => 22
  | .mRCOMB4 => 23
  | .dLDIFF => 24
  | .dRDIFF => 25
  | .mLAPF1 => 26
  | .mRAPF1 => 27
  | .mLAPF2 => 28
  | .mRAPF2 => 29
  | .vLIN => 30
  | .vRIN => 31

/-- The raw field `f` of a record. -/
def rawField (r : Record) (f : Field) : Word16 := r[fieldIndex f]

/-- The catalog's entries in order. -/
def catalogEntries (c : Catalog) : List CatalogEntry := c.first :: c.rest

/-- N_PRESETS (R7). -/
def nPresets (c : Catalog) : Nat := c.rest.length + 1

/-- `0 <= p < N_PRESETS`, `p` signed (R31, R124). -/
def validPreset (c : Catalog) (p : BitVec 32) : Bool :=
  decide (0 ≤ p.toInt) && decide (p.toInt < (nPresets c : Int))

/-- CATALOG[p] (R10). -/
def catalogEntry? (c : Catalog) (p : BitVec 32) : Option CatalogEntry :=
  if validPreset c p then (catalogEntries c)[p.toInt.toNat]? else none

/-- The 28 effective offsets (R78): the taps, the previous taps, the all-pass delayed offsets. -/
def effectiveOffsets (p : Params) : List Int :=
  [p.mLSAME, p.mRSAME, p.mLCOMB1, p.mRCOMB1, p.mLCOMB2, p.mRCOMB2, p.dLSAME, p.dRSAME, p.mLDIFF,
   p.mRDIFF, p.mLCOMB3, p.mRCOMB3, p.mLCOMB4, p.mRCOMB4, p.dLDIFF, p.dRDIFF, p.mLAPF1, p.mRAPF1,
   p.mLAPF2, p.mRAPF2] ++
  [p.mLSAME - 1, p.mRSAME - 1, p.mLDIFF - 1, p.mRDIFF - 1] ++
  [p.mLAPF1 - p.dAPF1, p.mRAPF1 - p.dAPF1, p.mLAPF2 - p.dAPF2, p.mRAPF2 - p.dAPF2]

/-- The ten derived gains (R32, R160). -/
def derivedGains (p : Params) : List F32 :=
  [p.vIIR, p.vCOMB1, p.vCOMB2, p.vCOMB3, p.vCOMB4, p.vWALL, p.vAPF1, p.vAPF2, p.vLIN, p.vRIN]

-- the streams

/-- Two arrays of `n` words overlap. -/
def overlaps (n a b : Nat) : Bool := decide (a < b + n) && decide (b < a + n)

/-- R80: each output is the input of its channel, or overlaps neither input; no other two streams
overlap (log 15). -/
def streamsMeetR80 (n : Nat) (p : Ports) : Bool :=
  !overlaps n p.inL p.inR && !overlaps n p.outL p.outR &&
  (p.outL == p.inL || !overlaps n p.outL p.inL) && !overlaps n p.outL p.inR &&
  (p.outR == p.inR || !overlaps n p.outR p.inR) && !overlaps n p.outR p.inL

/-- IN_L[K] (R63). -/
def readInL (s : State) : F32 := memRead s.samples (s.ports.inL + s.k)

/-- IN_R[K] (R63). -/
def readInR (s : State) : F32 := memRead s.samples (s.ports.inR + s.k)

/-- OUT_L[K] <- v (R63, R199). -/
def State.writeOutL (s : State) (v : F32) : State :=
  { s with samples := memWrite s.samples (s.ports.outL + s.k) v }

/-- OUT_R[K] <- v (R63, R199). -/
def State.writeOutR (s : State) (v : F32) : State :=
  { s with samples := memWrite s.samples (s.ports.outR + s.k) v }

-- assembly (R108, R109)

/-- A number of a line as binary32: decimals are rounded (R108). -/
def asmNum : AsmNum → F32
  | .dec neg digits scale => F32.ofQuotient neg digits (10 ^ scale)
  | .inf neg => if neg then 0xFF800000#32 else 0x7F800000#32
  | .hex w => w

/-- 0.0, as the pseudo-instructions write it (R109). -/
def asmZero : AsmNum := .dec false 0 1

/-- A RUN_BLOCK line's command. The line names no addresses: the model lays the four streams one after
the other from word 0, so they are disjoint (log 22). The ports it does not name are zero (log 26). -/
def assembleRun (n : Nat) (preset : Int) (wet dry master : AsmNum) (l r : List AsmNum) : HostCommand :=
  { word := 0x03#8 ++ BitVec.ofNat 24 n
    ports :=
      { Ports.zero with
        presetIn := BitVec.ofInt 32 preset
        wetDb := asmNum wet, dryDb := asmNum dry, masterDb := asmNum master
        inL := 0, inR := n, outL := 2 * n, outR := 3 * n }
    samplesL := l.map asmNum
    samplesR := r.map asmNum }

/-- One line of assembly as a host command; the pseudo-instructions expand to RUN_BLOCK (R109). The
ports a line does not name are zero, the model's choice (log 26). -/
def assemble : AsmLine → HostCommand
  | .construct neg digits scale caps =>
    { word := 0x01000000#32
      ports :=
        { Ports.zero with rate := F64.ofDecimal neg digits scale, capsOk := caps.getD true }
      samplesL := [], samplesR := [] }
  | .reset => { word := 0x02000000#32, ports := Ports.zero, samplesL := [], samplesR := [] }
  | .runBlock n p w d m l r => assembleRun n p w d m l r
  | .silence n p w d m => assembleRun n p w d m (List.replicate n asmZero) (List.replicate n asmZero)
  | .impulseL n a p w d m =>
    assembleRun n p w d m (a :: List.replicate (n - 1) asmZero) (List.replicate n asmZero)
  | .impulseR n a p w d m =>
    assembleRun n p w d m (List.replicate n asmZero) (a :: List.replicate (n - 1) asmZero)

end Sys2Proof.Machine
end

