-- ==== Sys2Proof/Machine/Flags.lean ====
section
/-! DEFINITION. The status fields: the STATUS word (10_state.md R21) and the two conditions that set its
fault bits (41_deriver.md R159, R160). No arithmetic flag exists (R24). -/

namespace Sys2Proof.Machine

/-- LIFE's code (R21). -/
def lifeCode : Life → BitVec 2
  | .unconstructed => 0#2
  | .ready => 1#2
  | .failed => 2#2

/-- CFGERR's code (R21). -/
def cfgErrCode : CfgErr → BitVec 4
  | .none => 0#4
  | .badRate => 1#4
  | .noCapability => 2#4
  | .capacity => 3#4

/-- STATUS as the host reads it: CFGERR at 11:8, RF at 4, FN at 3, FI at 2, LIFE at 1:0, the rest 0
(R21). -/
def State.status (s : State) : BitVec 32 :=
  0#20 ++ cfgErrCode s.cfgErr ++ 0#3 ++ BitVec.ofBool s.rf ++ BitVec.ofBool s.fn ++
    BitVec.ofBool s.fi ++ lifeCode s.life

/-- R159: every effective offset `e` has -B < e < B. -/
def invariantHolds (p : Params) (b : Nat) : Bool :=
  (effectiveOffsets p).all fun e => decide (-(b : Int) < e) && decide (e < (b : Int))

/-- R160: all ten derived gains are finite. -/
def allGainsFinite (p : Params) : Bool := (derivedGains p).all F32.isFinite

/-- DERIVE's two checks (R150): each failing one raises its error, and both may. -/
def State.checkDerived (s : State) : State :=
  let s1 := if invariantHolds s.params s.bufSize then s else s.raise .faultInvariant
  if allGainsFinite s.params then s1 else s1.raise .faultNumeric

end Sys2Proof.Machine
end

