-- ==== Sys2Proof/Machine/Decibel.lean ====
section
/-! DEFINITION. The decibel mapping (40_host_commands.md R128, R129). The default dbToLinCore rounds the
exact real power 10^y. The model encloses that power between two rational numbers and rounds both; where
they round to one binary64 value, that is the value (log 9). -/

namespace Sys2Proof.Machine

/-- The number of fraction bits the enclosure works with. -/
def decBits : Nat := 256

/-- The floor of ln(10) * 2^256 (log 9). -/
def ln10Floor : Nat :=
  0x24d763776aaa2b05ba95b58ae0b4c28a38a3fb3e76977e43a0f187a0807c0b5ca

/-- Lower sum of the exponential series of `t * 2^-256`: `fuel` more terms after `term`, the `k`-th. -/
def expLower (t : Nat) : Nat → Nat → Nat → Nat
  | 0, _, _ => 0
  | fuel + 1, k, term => term + expLower t fuel (k + 1) (term * t / (2 ^ decBits * (k + 1)))

/-- Upper sum, every term rounded up; the rest of the series is below twice the last term. -/
def expUpper (t : Nat) : Nat → Nat → Nat → Nat
  | 0, _, term => 2 * term
  | fuel + 1, k, term => term + expUpper t fuel (k + 1) (term * t / (2 ^ decBits * (k + 1)) + 1)

/-- The terms of the series that are summed. -/
def expTerms : Nat := 90

/-- The binary64 pattern nearest to `m * 2^-256 * 10^n`. -/
def scaledPow10 (m : Nat) (n : Int) : Nat :=
  if 0 ≤ n then
    Fmt.pack .b64 false (m * 10 ^ n.toNat * Fmt.b64.one) (2 ^ decBits)
  else Fmt.pack .b64 false (m * Fmt.b64.one) (2 ^ decBits * 10 ^ (-n).toNat)

/-- `fl64(10^(n + fr * 2^-149))` for a whole `n` and `fr < 2^149`; `y` names the free value where the
enclosure leaves two candidates. -/
def pow10Parts (y : F32) (n : Int) (fr : Nat) : F64 :=
  if 400 ≤ n then BitVec.ofNat 64 (Fmt.inf .b64 false)
  else if n ≤ -400 then 0#64
  else if fr = 0 then BitVec.ofNat 64 (scaledPow10 (2 ^ decBits) n)
  else
    let lo := scaledPow10 (expLower (fr * ln10Floor / 2 ^ 149) expTerms 0 (2 ^ decBits)) n
    let hi := scaledPow10 (expUpper (fr * (ln10Floor + 1) / 2 ^ 149 + 1) expTerms 0 (2 ^ decBits)) n
    if lo = hi then BitVec.ofNat 64 lo else Config.pow10Undecided y

/-- `fl64(10^y)` for a binary32 `y` (R129). A NaN gives `nan`; of an infinity the spec states no power, so
the free value stands (log 9). -/
def pow10 (nan : F64) (y : F32) : F64 :=
  match Fmt.unpack .b32 y.toNat with
  | .nan => nan
  | .inf _ => Config.pow10Undecided y
  | .fin neg m =>
    let whole := m / Fmt.b32.one
    let fr := m % Fmt.b32.one
    if !neg then pow10Parts y (whole : Int) fr
    else if fr = 0 then pow10Parts y (-(whole : Int)) 0
    else pow10Parts y (-(whole : Int) - 1) (Fmt.b32.one - fr)

/-- The default dbToLinCore: `fl32(fl64(10^(x /f 20.0)))`; of a NaN, the NaN of draw `d` (R129). -/
def dbCoreDefault (d : Nat) (x : F32) : F32 :=
  F64.toF32 (nan32 d) (pow10 0x7FF8000000000000#64 (F32.div (nan32 d) x 0x41A00000#32))

/-- dbToLin (R128): laws 1 and 2, then the default core or a replacement (log 8). -/
def dbToLin (f : ConfigFn) (d : Nat) (x : F32) : F32 :=
  if F32.le x Config.dbFloor then 0x00000000#32
  else if F32.isZero x then 0x3F800000#32
  else
    match f with
    | .default => dbCoreDefault d x
    | .replacement id => Config.dbReplacement id x

end Sys2Proof.Machine
end

