-- ==== Sys2Proof/Machine/Deriver.lean ====
section
/-! DEFINITION. The Parameter Deriver (41_deriver.md): its functions R151 to R158, DERIVE (R150) and
CLEAR (R161). -/

namespace Sys2Proof.Machine

/-- stretch(rate) (R151). -/
def stretchOf (rate : F64) : F64 := F64.div (deriverNaN64 0) rate Config.nativeRate

/-- tapScale(u, S): times 4, times S in binary64, truncated (R152). -/
def tapScale (u : Word16) (s : F64) : Int :=
  F64.trunc (F64.mul (deriverNaN64 1) (F64.ofNat (Config.tapUnit * u.toNat)) s)

/-- gainDecode(w) = fl32(s16(w) / 32768) (R154). -/
def gainDecode (w : Word16) : F32 :=
  F32.ofQuotient (decide (w.toInt < 0)) w.toInt.natAbs 32768

/-- The default iirConvert, in the closed form of R155. Where its roundings make R156's property 3 fail by
the last place or by underflow, R155's formula stands (log 27). -/
def iirDefault (a : F32) (rate : F64) : F32 :=
  let a64 := F32.toF64 (deriverNaN64 2) a
  let n := F64.mul (deriverNaN64 3) a64 Config.nativeRate
  let oneMinus := F64.sub (deriverNaN64 4) 0x3FF0000000000000#64 a64
  let d := F64.add (deriverNaN64 6) n (F64.mul (deriverNaN64 5) oneMinus rate)
  F64.toF32 (deriverNaN32 0) (F64.div (deriverNaN64 7) n d)

/-- iirConvert (R155): the default, or a replacement, which is the identity at the native rate
(R156; log 8). -/
def iirConvert (f : ConfigFn) (a : F32) (rate : F64) : F32 :=
  match f with
  | .default => iirDefault a rate
  | .replacement id => if rate = Config.nativeRate then a else Config.iirReplacement id a rate

/-- The product `(span /d 2.0) *d S` of R157. -/
def sizeProduct (span : BitVec 32) (s : F64) : F64 :=
  F64.mul (deriverNaN64 9)
    (F64.div (deriverNaN64 8) (F64.ofNat span.toNat) 0x4000000000000000#64) s

/-- The smallest power of two that is at least `x` (R12). -/
def nextPow2 (x : Nat) : Nat := if x ≤ 1 then 1 else 2 ^ (Nat.log2 (x - 1) + 1)

/-- bufSize(span, S) (R157). -/
def bufSizeOf (span : BitVec 32) (s : F64) : Nat := nextPow2 (F64.ceilNat (sizeProduct span s))

/-- CAP: the largest active size over the catalog (R158). -/
def capacityOf (c : Catalog) (s : F64) : Nat :=
  (catalogEntries c).foldr (fun e m => max (bufSizeOf e.span s) m) 0

/-- R224: the capacity exceeds CAP_MAX. A size product past binary64's range, whose size the spec
states no number for, exceeds it too (log 10). -/
def capacityTooLarge (c : Catalog) (s : F64) : Bool :=
  (catalogEntries c).any (fun e => !F64.isFinite (sizeProduct e.span s)) ||
    decide (Config.capMax < capacityOf c s)

/-- P of a record at a rate, with `s` its stretch (R150, R152 to R155). -/
def deriveParams (f : ConfigFn) (r : Record) (rate s : F64) : Params :=
  { dAPF1 := tapScale (rawField r .dAPF1) s
    dAPF2 := tapScale (rawField r .dAPF2) s
    mLSAME := tapScale (rawField r .mLSAME) s
    mRSAME := tapScale (rawField r .mRSAME) s
    mLCOMB1 := tapScale (rawField r .mLCOMB1) s
    mRCOMB1 := tapScale (rawField r .mRCOMB1) s
    mLCOMB2 := tapScale (rawField r .mLCOMB2) s
    mRCOMB2 := tapScale (rawField r .mRCOMB2) s
    dLSAME := tapScale (rawField r .dLSAME) s
    dRSAME := tapScale (rawField r .dRSAME) s
    mLDIFF := tapScale (rawField r .mLDIFF) s
    mRDIFF := tapScale (rawField r .mRDIFF) s
    mLCOMB3 := tapScale (rawField r .mLCOMB3) s
    mRCOMB3 := tapScale (rawField r .mRCOMB3) s
    mLCOMB4 := tapScale (rawField r .mLCOMB4) s
    mRCOMB4 := tapScale (rawField r .mRCOMB4) s
    dLDIFF := tapScale (rawField r .dLDIFF) s
    dRDIFF := tapScale (rawField r .dRDIFF) s
    mLAPF1 := tapScale (rawField r .mLAPF1) s
    mRAPF1 := tapScale (rawField r .mRAPF1) s
    mLAPF2 := tapScale (rawField r .mLAPF2) s
    mRAPF2 := tapScale (rawField r .mRAPF2) s
    vIIR := iirConvert f (gainDecode (rawField r .vIIR)) rate
    vCOMB1 := gainDecode (rawField r .vCOMB1)
    vCOMB2 := gainDecode (rawField r .vCOMB2)
    vCOMB3 := gainDecode (rawField r .vCOMB3)
    vCOMB4 := gainDecode (rawField r .vCOMB4)
    vWALL := gainDecode (rawField r .vWALL)
    vAPF1 := gainDecode (rawField r .vAPF1)
    vAPF2 := gainDecode (rawField r .vAPF2)
    vLIN := gainDecode (rawField r .vLIN)
    vRIN := gainDecode (rawField r .vRIN) }

/-- The parameter registers of entry `e` installed: RAW, SPAN, S, P and B (R150). -/
def State.install (s : State) (e : CatalogEntry) : State :=
  { s with
    raw := e.words
    span := e.span
    stretch := stretchOf s.rate
    params := deriveParams s.fns.iirConvert e.words s.rate (stretchOf s.rate)
    bufSize := bufSizeOf e.span (stretchOf s.rate) }

/-- DERIVE of entry `e` at index `p` (R150): install, check, ACTIVE, CLEAR. -/
def State.deriveEntry (s : State) (p : BitVec 32) (e : CatalogEntry) : State :=
  let s1 := (s.install e).checkDerived
  State.clearRam { s1 with active := p }

/-- DERIVE(p) (R150). Its operand is a valid index; another one faults. -/
def derive (p : BitVec 32) (s : State) : Out :=
  match catalogEntry? s.catalog p with
  | some e => .next (s.deriveEntry p e)
  | none => .fault .noSuchPreset

/-- DERIVE as the sequencer issues it: its operand is the block's PRESET_IN (R124; log 13). -/
def execDerive (s : State) : Out := derive s.ports.presetIn s

/-- CLEAR (R161). -/
def execClear (s : State) : Out := .next s.clearRam

end Sys2Proof.Machine
end

