-- ==== Sys2Proof/Machine/Micro.lean ====
section
/-! DEFINITION. The 15 micro-steps of a FRAME (42_frame_datapath.md R180 to R198). Every binary32 operation
of a micro-step has a draw of its own, used only if the operation gives a NaN (log 6). -/

namespace Sys2Proof.Machine

/-- IN (R181). -/
def execInput (s : State) : Out :=
  .next (State.drew
    { s with
      lin := some (F32.mul (nan32 s.draws) s.params.vLIN (readInL s))
      rin := some (F32.mul (nan32 (s.draws + 1)) s.params.vRIN (readInR s)) } 2)

/-- The value REFLECT writes: `(((x + (t * vWALL)) - prev) * vIIR) + prev` (R182). -/
def reflectValue (d : Nat) (x t prev vWALL vIIR : F32) : F32 :=
  F32.add (nan32 (d + 4))
    (F32.mul (nan32 (d + 3))
      (F32.sub (nan32 (d + 2)) (F32.add (nan32 (d + 1)) x (F32.mul (nan32 d) t vWALL)) prev) vIIR)
    prev

/-- REFLECT(x, far, m): both reads, then the write (R182). -/
def reflect (x : F32) (far m : Int) (s : State) : Out :=
  withBuf s far fun t =>
  withBuf s (m - 1) fun prev =>
  writeBuf (s.drew 5) m (reflectValue s.draws x t prev s.params.vWALL s.params.vIIR)

/-- SAME_L (R183). -/
def execSameL (s : State) : Out :=
  withReg s.lin fun x => reflect x s.params.dLSAME s.params.mLSAME s

/-- SAME_R (R184). -/
def execSameR (s : State) : Out :=
  withReg s.rin fun x => reflect x s.params.dRSAME s.params.mRSAME s

/-- DIFF_L: the far tap is the right channel's (R185). -/
def execDiffL (s : State) : Out :=
  withReg s.lin fun x => reflect x s.params.dRDIFF s.params.mLDIFF s

/-- DIFF_R: the far tap is the left channel's (R186). -/
def execDiffR (s : State) : Out :=
  withReg s.rin fun x => reflect x s.params.dLDIFF s.params.mRDIFF s

/-- The comb sum of four taps, left to right (R187). -/
def combValue (d : Nat) (p : Params) (a b c e : F32) : F32 :=
  F32.add (nan32 (d + 6))
    (F32.add (nan32 (d + 4))
      (F32.add (nan32 (d + 2)) (F32.mul (nan32 d) p.vCOMB1 a) (F32.mul (nan32 (d + 1)) p.vCOMB2 b))
      (F32.mul (nan32 (d + 3)) p.vCOMB3 c))
    (F32.mul (nan32 (d + 5)) p.vCOMB4 e)

/-- COMB(o1, o2, o3, o4): four reads, no write (R187). -/
def comb (o1 o2 o3 o4 : Int) (s : State) (k : F32 → Out) : Out :=
  withBuf s o1 fun a =>
  withBuf s o2 fun b =>
  withBuf s o3 fun c =>
  withBuf s o4 fun e => k (combValue s.draws s.params a b c e)

/-- COMB_L (R188). -/
def execCombL (s : State) : Out :=
  comb s.params.mLCOMB1 s.params.mLCOMB2 s.params.mLCOMB3 s.params.mLCOMB4 s fun v =>
  .next (State.drew { s with lout := some v } 7)

/-- COMB_R (R189). -/
def execCombR (s : State) : Out :=
  comb s.params.mRCOMB1 s.params.mRCOMB2 s.params.mRCOMB3 s.params.mRCOMB4 s fun v =>
  .next (State.drew { s with rout := some v } 7)

/-- The value an all-pass stage stores: `w = x - (g * d1)` (R190). -/
def apfStored (d : Nat) (x g d1 : F32) : F32 :=
  F32.sub (nan32 (d + 1)) x (F32.mul (nan32 d) g d1)

/-- The output of an all-pass stage: `(w * g) + d2` (R190). -/
def apfOutput (d : Nat) (w g d2 : F32) : F32 :=
  F32.add (nan32 (d + 3)) (F32.mul (nan32 (d + 2)) w g) d2

/-- APF(x, m, d, g): read, store, read again after the store, output (R190). `k` gets the output and
the state after the store. -/
def apf (x : F32) (m dep : Int) (g : F32) (s : State) (k : F32 → State → Out) : Out :=
  withBuf s (m - dep) fun d1 =>
  let w := apfStored s.draws x g d1
  andThen (writeBuf (s.drew 4) m w) fun s1 =>
  withBuf s1 (m - dep) fun d2 => k (apfOutput s.draws w g d2) s1

/-- APF1_L (R191). -/
def execApf1L (s : State) : Out :=
  withReg s.lout fun x =>
  apf x s.params.mLAPF1 s.params.dAPF1 s.params.vAPF1 s fun y s1 => .next { s1 with lout := some y }

/-- APF1_R (R192). -/
def execApf1R (s : State) : Out :=
  withReg s.rout fun x =>
  apf x s.params.mRAPF1 s.params.dAPF1 s.params.vAPF1 s fun y s1 => .next { s1 with rout := some y }

/-- APF2_L (R193). -/
def execApf2L (s : State) : Out :=
  withReg s.lout fun x =>
  apf x s.params.mLAPF2 s.params.dAPF2 s.params.vAPF2 s fun y s1 => .next { s1 with lout := some y }

/-- APF2_R (R194). -/
def execApf2R (s : State) : Out :=
  withReg s.rout fun x =>
  apf x s.params.mRAPF2 s.params.dAPF2 s.params.vAPF2 s fun y s1 => .next { s1 with rout := some y }

/-- ADV (R195). -/
def execAdv (s : State) : Out := .next { s with cursor := (s.cursor + 1) % s.bufSize }

/-- One smoothing step: `g + (SMOOTH_K * (t - g))` (R196). -/
def smoothStep (d : Nat) (g t : F32) : F32 :=
  F32.add (nan32 (d + 2)) g (F32.mul (nan32 (d + 1)) Config.smoothK (F32.sub (nan32 d) t g))

/-- SMOOTH (R196). -/
def execSmooth (s : State) : Out :=
  .next (State.drew
    { s with
      gWet := smoothStep s.draws s.gWet s.tWet
      gDry := smoothStep (s.draws + 3) s.gDry s.tDry
      gMaster := smoothStep (s.draws + 6) s.gMaster s.tMaster } 9)

/-- The mix: `((wet * G_WET) + (dry * G_DRY)) * G_MASTER` (R197, R198). -/
def mixValue (d : Nat) (wet dry gWet gDry gMaster : F32) : F32 :=
  F32.mul (nan32 (d + 3))
    (F32.add (nan32 (d + 2)) (F32.mul (nan32 d) wet gWet) (F32.mul (nan32 (d + 1)) dry gDry)) gMaster

/-- MIX_L (R197). -/
def execMixL (s : State) : Out :=
  withReg s.lout fun wet =>
  withReg s.lin fun dry =>
  .next (State.drew (s.writeOutL (mixValue s.draws wet dry s.gWet s.gDry s.gMaster)) 4)

/-- MIX_R (R198). -/
def execMixR (s : State) : Out :=
  withReg s.rout fun wet =>
  withReg s.rin fun dry =>
  .next (State.drew (s.writeOutR (mixValue s.draws wet dry s.gWet s.gDry s.gMaster)) 4)

end Sys2Proof.Machine
end

