-- ==== Sys2Proof/Machine/Block.lean ====
section
/-! DEFINITION. The block-level operations SELECT, LATCH and FRAME (40_host_commands.md R124 to R126). -/

namespace Sys2Proof.Machine

/-- SELECT(p) (R124). -/
def selectPreset (p : BitVec 32) (s : State) : Out :=
  if p = s.active then .next s
  else if validPreset s.catalog p then derive p s
  else .next (s.raise (.presetInvalid p))

/-- SELECT of the block's PRESET_IN (R123, R124). -/
def execSelect (s : State) : Out := selectPreset s.ports.presetIn s

/-- LATCH (R125). -/
def execLatch (s : State) : Out :=
  .next (State.drew
    { s with
      tWet := dbToLin s.fns.dbToLinCore s.draws s.ports.wetDb
      tDry := dbToLin s.fns.dbToLinCore (s.draws + 1) s.ports.dryDb
      tMaster := dbToLin s.fns.dbToLinCore (s.draws + 2) s.ports.masterDb } 3)

/-- The micro-steps with their codes, in code order (R95, R180). -/
def microProgram : List (BitVec 4 × (State → Out)) :=
  [(0x0#4, execInput), (0x1#4, execSameL), (0x2#4, execSameR), (0x3#4, execDiffL),
   (0x4#4, execDiffR), (0x5#4, execCombL), (0x6#4, execCombR), (0x7#4, execApf1L),
   (0x8#4, execApf1R), (0x9#4, execApf2L), (0xA#4, execApf2R), (0xB#4, execAdv),
   (0xC#4, execSmooth), (0xD#4, execMixL), (0xE#4, execMixR)]

/-- Executes micro-steps one after the other, USTEP naming each (R126). -/
def runMicro : List (BitVec 4 × (State → Out)) → State → Out
  | [], s => .next s
  | (c, f) :: rest, s => andThen (f (s.atUstep c)) (runMicro rest)

/-- FRAME(K), with K in its register (R126). The working registers are not retained after it (R199). -/
def execFrame (s : State) : Out :=
  andThen (runMicro microProgram s.clearWorking) fun s1 => .next s1.clearWorking

/-- The loop over K: `n` more frames, each counted when it is done (R123, R43). -/
def runFrames : Nat → State → Out
  | 0, s => .next s
  | n + 1, s => andThen (execFrame s) fun s1 => runFrames n s1.frameDone

end Sys2Proof.Machine
end

