-- ==== Sys2Proof/Machine/Commands.lean ====
section
/-! DEFINITION. The host commands CONSTRUCT, RESET and RUN_BLOCK (40_host_commands.md R120 to R123). -/

namespace Sys2Proof.Machine

/-- Admission (R120): no move while PHASE = BLOCK (U10; log 18); refused in another LIFE than `need`. -/
def whenLife (need : Life) (s : State) (k : Out) : Out :=
  match s.phase with
  | .block => .fault .commandDuringBlock
  | .idle => if s.life = need then k else .next s.refuse

/-- A rate is valid if it is finite and above RATE_MIN (R25, R222). -/
def rateValid (r : F64) : Bool := F64.isFinite r && F64.lt Config.rateMin r

/-- CONSTRUCT's writes before its DERIVE (R121, R49): the configuration, every status field and counter
cleared, gains and targets +0.0, the working registers without a value. -/
def State.configure (s : State) : State :=
  { s with
    rate := s.ports.rate, capsOk := true
    cap := capacityOf s.catalog (stretchOf s.ports.rate)
    fi := false, fn := false, rf := false, cfgErr := .none, diag := 0#32, lastInv := 0#32
    gWet := 0#32, gDry := 0#32, gMaster := 0#32, tWet := 0#32, tDry := 0#32, tMaster := 0#32
    lin := none, rin := none, lout := none, rout := none }

/-- CONSTRUCT (R121), its checks in the order of R229. -/
def execConstruct (s : State) : Out :=
  whenLife .unconstructed s <|
    if !rateValid s.ports.rate then .next (s.raise .cfgBadRate)
    else if !s.ports.capsOk then .next (s.raise .cfgNoCapability)
    else if capacityTooLarge s.catalog (stretchOf s.ports.rate) then .next (s.raise .cfgCapacity)
    else andThen (derive 0#32 s.configure) fun s1 => .next { s1 with phase := .idle, life := .ready }

/-- RESET (R122, R251). -/
def execReset (s : State) : Out :=
  whenLife .ready s (.next { s.clearRam with gWet := 0#32, gDry := 0#32, gMaster := 0#32 })

/-- The body of an admitted RUN_BLOCK: SELECT, LATCH, the frames, IDLE (R123). -/
def runBlockBody (n : Nat) (s : State) : Out :=
  andThen (execSelect (s.startBlock n)) fun s1 =>
  andThen (execLatch (s1.atBstep 0x1#4)) fun s2 =>
  andThen (runFrames n s2.startFrames) fun s3 => .next s3.toIdle

/-- RUN_BLOCK (R123): admission, then the length, then the streams (R229). -/
def execRunBlock (n : BitVec 24) (s : State) : Out :=
  whenLife .ready s <|
    if n.toNat = 0 then .next s.refuse
    else if !streamsMeetR80 n.toNat s.ports then .next s.refuse
    else runBlockBody n.toNat s

end Sys2Proof.Machine
end

