-- ==== Sys2Proof/Machine/Dispatch.lean ====
section
/-! DEFINITION. Which meaning each instruction has, one arm per row of opcode_table.json. -/

namespace Sys2Proof.Machine

def exec (i : Instr) (s : State) : Host.Outcome State Fault Refusal :=
  match i with
  -- format H
  | .construct => Sys2Proof.Machine.execConstruct s
  | .reset => Sys2Proof.Machine.execReset s
  | .runBlock n => Sys2Proof.Machine.execRunBlock n s
  -- format I
  | .select => Sys2Proof.Machine.execSelect s
  | .latch => Sys2Proof.Machine.execLatch s
  | .frame => Sys2Proof.Machine.execFrame s
  | .derive => Sys2Proof.Machine.execDerive s
  | .clear => Sys2Proof.Machine.execClear s
  -- format U
  | .input => Sys2Proof.Machine.execInput s
  | .sameL => Sys2Proof.Machine.execSameL s
  | .sameR => Sys2Proof.Machine.execSameR s
  | .diffL => Sys2Proof.Machine.execDiffL s
  | .diffR => Sys2Proof.Machine.execDiffR s
  | .combL => Sys2Proof.Machine.execCombL s
  | .combR => Sys2Proof.Machine.execCombR s
  | .apf1L => Sys2Proof.Machine.execApf1L s
  | .apf1R => Sys2Proof.Machine.execApf1R s
  | .apf2L => Sys2Proof.Machine.execApf2L s
  | .apf2R => Sys2Proof.Machine.execApf2R s
  | .adv => Sys2Proof.Machine.execAdv s
  | .smooth => Sys2Proof.Machine.execSmooth s
  | .mixL => Sys2Proof.Machine.execMixL s
  | .mixR => Sys2Proof.Machine.execMixR s

end Sys2Proof.Machine
end

