-- ==== Sys2Proof/Machine/Step.lean ====
section
/-! DEFINITION. One step (20_memory.md R83, 70_reset_and_hazards.md R265). PHASE = IDLE: one host command,
atomically. PHASE = BLOCK: one internal operation of the sequencer, and the sequencer's move after it. -/

namespace Sys2Proof.Machine

/-- One step of the machine. With nothing issued, all state is retained (R236). -/
def step (s : State) : Host.Outcome State Fault Refusal :=
  match s.fetch with
  | .nothing => .next s
  | .command i s1 => exec i s1
  | .undecodable s1 => .next s1.refuse
  | .internal i s1 => andThen (exec i s1) fun s2 => .next s2.advance
  | .reserved => .fault .reservedCode

/-- `s` with a table row's word where the step fetches next: a host word as the host's next command,
with the ports as they are; a micro-step code at USTEP of a running FRAME (log 14). -/
def State.withFetchWord (s : State) (nbits w : Nat) : State :=
  match tableWord nbits w with
  | some (.h v) =>
    { s with
      phase := .idle
      pending := { word := v, ports := s.ports, samplesL := [], samplesR := [] } :: s.pending }
  | some (.u c) => { s with phase := .block, bstep := 0x2#4, ustep := c }
  | some (.i c) => { s with phase := .block, bstep := c }
  | none => s

end Sys2Proof.Machine
end

