-- ==== Sys2Proof/Safety.lean ====
section
/-! DEFINITION. What claims take as a premise: the invariant of the machine, and the spec's own premise that
no fault or refusal is recorded. -/

namespace Sys2Proof.Machine

/-- The micro-steps (30_encoding.md R95). -/
def isMicroStep : Instr → Bool
  | .input | .sameL | .sameR | .diffL | .diffR | .combL | .combR | .apf1L | .apf1R | .apf2L | .apf2R
  | .adv | .smooth | .mixL | .mixR => true
  | .construct | .reset | .runBlock _ | .select | .latch | .frame | .derive | .clear => false

/-- The host commands (R92). -/
def isHostCommand : Instr → Bool
  | .construct | .reset | .runBlock _ => true
  | .select | .latch | .frame | .derive | .clear | .input | .sameL | .sameR | .diffL | .diffR
  | .combL | .combR | .apf1L | .apf1R | .apf2L | .apf2R | .adv | .smooth | .mixL | .mixR => false

/-- 1 <= B <= CAP (10_state.md R32): every cursor-relative address is inside the RAM. -/
structure State.Sized (s : State) : Prop where
  pos : 0 < s.bufSize
  leCap : s.bufSize ≤ s.cap

/-- The registers that a successful derivation at RATE left (R31, R32, R49, R158; 41_deriver.md R159, R160). -/
structure State.Derived (s : State) : Prop where
  rate : rateValid s.rate = true
  caps : s.capsOk = true
  cap : s.cap = capacityOf s.catalog (stretchOf s.rate)
  capMax : s.cap ≤ Config.capMax
  entry : ∃ e, catalogEntry? s.catalog s.active = some e ∧ s.raw = e.words ∧ s.span = e.span
  stretch : s.stretch = stretchOf s.rate
  params : s.params = deriveParams s.fns.iirConvert s.raw s.rate s.stretch
  bufSize : s.bufSize = bufSizeOf s.span s.stretch
  fault : s.fi = false → invariantHolds s.params s.bufSize = true
  numeric : s.fn = false → allGainsFinite s.params = true

/-- The invariant of the machine. -/
structure State.Inv (s : State) : Prop where
  /-- The memories are canonical. -/
  ramWf : memWf s.ram = true
  samplesWf : memWf s.samples = true
  /-- Words at and above B hold +0.0 (20_memory.md R67). -/
  ramBelowB : ∀ c ∈ s.ram, c.1 < s.bufSize
  /-- B is a power of two with 1 <= B <= CAP (10_state.md R32). -/
  pow2 : ∃ k, s.bufSize = 2 ^ k
  leCap : s.bufSize ≤ s.cap
  /-- CURSOR is in [0, B) (R35). -/
  cursor : s.cursor < s.bufSize
  /-- CFGERR names a failure exactly when the instance has failed (R49, R50). -/
  cfgErr : s.cfgErr = .none ↔ s.life ≠ .failed
  /-- FI and FN are 0 in an instance that is not READY (R48, R50; log 11). -/
  noFault : s.life ≠ .ready → s.fi = false ∧ s.fn = false
  /-- A READY instance holds a derivation of its active preset (R31, R49). -/
  ready : s.life = .ready → s.Derived
  /-- A block runs only on a READY instance (R120). -/
  blockReady : s.phase = .block → s.life = .ready
  /-- While a block runs, the codes are legal (R42, 30_encoding.md R104) and a frame is left. -/
  blockStep : s.phase = .block → s.bstep.toNat ≤ 4
  microStep : s.phase = .block → s.ustep.toNat ≤ 14
  frames : s.phase = .block → s.k < s.nblk ∧ s.nblk ≤ Config.blockMax

/-- FI = FN = RF = 0, the premise of every claim about outputs (60_exceptions.md R226 to R228). -/
def State.faultFree (s : State) : Bool := !s.fi && !s.fn && !s.rf

/-- The state is the same but for the fields a FRAME's micro-steps write: CURSOR, RAM, G_*, the working
registers, USTEP, the samples and the count of draws. -/
def State.sameOutsideFrame (s t : State) : Prop :=
  t = { s with
    cursor := t.cursor, ram := t.ram, gWet := t.gWet, gDry := t.gDry, gMaster := t.gMaster
    lin := t.lin, rin := t.rin, lout := t.lout, rout := t.rout, ustep := t.ustep
    samples := t.samples, draws := t.draws }

end Sys2Proof.Machine
end

