-- ==== Sys2Proof/Certificates/Slice0/Obligations.lean ====
section
/-! DEFINITION. The statements about the model, from the spec's numbered rules. Each docstring names the rule.
Where a statement names `nan32 d`, a NaN result takes its pattern from a free value (log 6), so the
statement holds whatever that pattern is. -/

open Sys2Proof Sys2Proof.Machine

-- what the statements share

/-- Buf(o) as the state stands (20_memory.md R64). -/
def Sys2Proof.Claims.buf (s : State) (o : Int) : F32 := memRead s.ram (bufAddr s o)

/-- The state differs from `s` in the word of Buf(o), which holds `v`, and in the count of draws. -/
def Sys2Proof.Claims.WroteBuf (s t : State) (o : Int) (v : F32) : Prop :=
  t = { s with ram := t.ram, draws := t.draws } ∧
    ∀ a, memRead t.ram a = if a = bufAddr s o then v else memRead s.ram a

/-- `(((x +f (t *f P.vWALL)) -f prev) *f P.vIIR) +f prev` (42_frame_datapath.md R182). -/
def Sys2Proof.Claims.recurrence (s : State) (x : F32) (far m : Int) : F32 :=
  let t := Claims.buf s far
  let prev := Claims.buf s (m - 1)
  F32.add (nan32 (s.draws + 4))
    (F32.mul (nan32 (s.draws + 3))
      (F32.sub (nan32 (s.draws + 2))
        (F32.add (nan32 (s.draws + 1)) x (F32.mul (nan32 s.draws) t s.params.vWALL)) prev)
      s.params.vIIR) prev

/-- `(((vCOMB1 *f Buf(o1)) +f (vCOMB2 *f Buf(o2))) +f (vCOMB3 *f Buf(o3))) +f (vCOMB4 *f Buf(o4))`
(R187). -/
def Sys2Proof.Claims.combSum (s : State) (o1 o2 o3 o4 : Int) : F32 :=
  F32.add (nan32 (s.draws + 6))
    (F32.add (nan32 (s.draws + 4))
      (F32.add (nan32 (s.draws + 2))
        (F32.mul (nan32 s.draws) s.params.vCOMB1 (Claims.buf s o1))
        (F32.mul (nan32 (s.draws + 1)) s.params.vCOMB2 (Claims.buf s o2)))
      (F32.mul (nan32 (s.draws + 3)) s.params.vCOMB3 (Claims.buf s o3)))
    (F32.mul (nan32 (s.draws + 5)) s.params.vCOMB4 (Claims.buf s o4))

/-- `w = x -f (g *f d1)`, the value an all-pass stage stores (R190). -/
def Sys2Proof.Claims.allPassStore (s : State) (x : F32) (m d : Int) (g : F32) : F32 :=
  F32.sub (nan32 (s.draws + 1)) x (F32.mul (nan32 s.draws) g (Claims.buf s (m - d)))

/-- `(w *f g) +f d2`, where the re-read `d2` is `w` itself when `d mod B = 0` and the first read
otherwise (R190). -/
def Sys2Proof.Claims.allPassOut (s : State) (x : F32) (m d : Int) (g : F32) : F32 :=
  let w := Claims.allPassStore s x m d g
  F32.add (nan32 (s.draws + 3)) (F32.mul (nan32 (s.draws + 2)) w g)
    (if d % (s.bufSize : Int) = 0 then w else Claims.buf s (m - d))

/-- `g +f (SMOOTH_K *f (t -f g))` (R196). -/
def Sys2Proof.Claims.smoothed (d : Nat) (g t : F32) : F32 :=
  F32.add (nan32 (d + 2)) g (F32.mul (nan32 (d + 1)) 0x3A83126F#32 (F32.sub (nan32 d) t g))

/-- `((wet *f G_WET) +f (dry *f G_DRY)) *f G_MASTER` (R197, R198). -/
def Sys2Proof.Claims.mixed (s : State) (wet dry : F32) : F32 :=
  F32.mul (nan32 (s.draws + 3))
    (F32.add (nan32 (s.draws + 2)) (F32.mul (nan32 s.draws) wet s.gWet)
      (F32.mul (nan32 (s.draws + 1)) dry s.gDry)) s.gMaster

/-- What DERIVE installs, and the bits it sets, stand in `t` as in `s`. -/
def Sys2Proof.Claims.SamePreset (s t : State) : Prop :=
  t.active = s.active ∧ t.raw = s.raw ∧ t.span = s.span ∧ t.stretch = s.stretch ∧
    t.params = s.params ∧ t.bufSize = s.bufSize ∧ t.fi = s.fi ∧ t.fn = s.fn

/-- CONSTRUCT completes from `s` with LIFE = FAILED and CFGERR = `e`, and no other register changes: FI, FN and RF
as 40_host_commands.md R121 and 60_exceptions.md R230 say, the rest by the model's choice (log 12). From the
STATUS = 0 of 10_state.md R48, FI, FN and RF are 0 after it (R50). -/
def Sys2Proof.Claims.FailsWith (s : State) (e : CfgErr) : Prop :=
  ∃ t, exec .construct s = .next t ∧ t = { s with life := .failed, cfgErr := e } ∧
    (s.status = 0#32 → t.fi = false ∧ t.fn = false ∧ t.rf = false)

/-- Two streams of `n` words from `a` and from `b` share a word. -/
def Sys2Proof.Claims.ShareWord (n a b : Nat) : Prop := ∃ i j, i < n ∧ j < n ∧ a + i = b + j

/-- The same bits, or both a NaN. -/
def Sys2Proof.Claims.SameValue (x y : F32) : Prop := x = y ∨ (F32.isNaN x = true ∧ F32.isNaN y = true)

-- encoding

/-- The words of 95_test_vectors.md T2.1, and codes of 30_encoding.md R94 and R95, decode as the spec
says. -/
def Obligations.SpecWordsDecode : Prop :=
  decode (.h 0x01000000#32) = .ok .construct ∧ decode (.h 0x02000000#32) = .ok .reset ∧
  decode (.h 0x03000001#32) = .ok (.runBlock 1#24) ∧ decode (.h 0x03000006#32) = .ok (.runBlock 6#24) ∧
  decode (.h 0x03FFFFFF#32) = .ok (.runBlock 16777215#24) ∧
  decode (.h 0x01000001#32) = .error .immediateNotZero ∧
  decode (.h 0x02800000#32) = .error .immediateNotZero ∧
  decode (.h 0x03000000#32) = .error .zeroLength ∧ decode (.h 0x00000000#32) = .error .reservedOpcode ∧
  decode (.h 0x04000000#32) = .error .reservedOpcode ∧
  decode (.h 0xFF123456#32) = .error .reservedOpcode ∧
  decode (.i 0b0000#4) = .ok .select ∧ decode (.i 0b0011#4) = .ok .derive ∧
  decode (.i 0b0101#4) = .error .reservedBlockCode ∧
  decode (.u 0b0000#4) = .ok .input ∧ decode (.u 0b0011#4) = .ok .diffL ∧
  decode (.u 0b1011#4) = .ok .adv ∧ decode (.u 0b1110#4) = .ok .mixR ∧
  decode (.u 0b1111#4) = .error .reservedMicroCode

/-- Decode and encode agree in both directions, on every code word and every instruction
(30_encoding.md R92, R94, R95, R107): a word decodes to `i` exactly when `i` is well formed and the word is
its encoding. -/
def Obligations.DecodeInvertsEncode : Prop :=
  ∀ (w : CodeWord) (i : Instr), decode w = .ok i ↔ (i.wf = true ∧ encode i = w)

/-- 30_encoding.md R107: decodeH, total on all 2^32 words, with OPC = word[31:24] and IMM24 = word[23:0]
read as numbers. -/
def Obligations.HostWordDecoding : Prop :=
  ∀ w : BitVec 32,
    let opc := w.toNat / 2 ^ 24
    let imm := w.toNat % 2 ^ 24
    (opc = 0x01 ∧ imm = 0 → decode (.h w) = .ok .construct) ∧
    (opc = 0x02 ∧ imm = 0 → decode (.h w) = .ok .reset) ∧
    (opc = 0x03 ∧ imm ≠ 0 → decode (.h w) = .ok (.runBlock (BitVec.ofNat 24 imm))) ∧
    (¬(opc = 0x01 ∧ imm = 0) → ¬(opc = 0x02 ∧ imm = 0) → ¬(opc = 0x03 ∧ imm ≠ 0) →
      ∃ e, decode (.h w) = .error e)

/-- 30_encoding.md R102, R103: a reserved or illegal host word sets RF and changes no other state of the
block. (What the host itself has done by then, presenting the ports and taking the command off its
queue, is `present`, the model's choice of log 2 and log 21.) -/
def Obligations.ReservedHostWordIsRefused : Prop :=
  ∀ (s : State) (c : HostCommand) (rest : List HostCommand),
    s.phase = .idle → s.pending = c :: rest →
    (let opc := c.word.toNat / 2 ^ 24
     let imm := c.word.toNat % 2 ^ 24
     opc = 0x00 ∨ 0x04 ≤ opc ∨ ((opc = 0x01 ∨ opc = 0x02) ∧ imm ≠ 0) ∨ (opc = 0x03 ∧ imm = 0)) →
    step s = .next { s.present c rest with rf := true }

/-- 30_encoding.md R108, R109: a well-formed assembly line assembles to the word of R92 for its command, the
command is well formed, and a RUN_BLOCK line's streams meet 20_memory.md R80; a decimal is rounded to the
nearest binary32 (RoundingIsNearestEven says what roundMag is). The placement of the streams is the model's
choice (log 22). -/
def Obligations.AssemblyLinesAssemble : Prop :=
  (∀ l : AsmLine, l.wf = true →
    (assemble l).wf = true ∧
    match l with
    | .construct neg digits scale caps =>
      decode (.h (assemble l).word) = .ok .construct ∧
        (assemble l).ports.rate = F64.ofDecimal neg digits scale ∧
        (assemble l).ports.capsOk = (caps != some false)
    | .reset => decode (.h (assemble l).word) = .ok .reset
    | .runBlock n p wet dry master inL inR =>
      decode (.h (assemble l).word) = .ok (.runBlock (BitVec.ofNat 24 n)) ∧
        streamsMeetR80 n (assemble l).ports = true ∧ (assemble l).ports.presetIn.toInt = p ∧
        (assemble l).ports.wetDb = asmNum wet ∧ (assemble l).ports.dryDb = asmNum dry ∧
        (assemble l).ports.masterDb = asmNum master ∧ (assemble l).samplesL = inL.map asmNum ∧
        (assemble l).samplesR = inR.map asmNum
    | .silence n p wet dry master =>
      assemble l = assemble
        (.runBlock n p wet dry master (List.replicate n asmZero) (List.replicate n asmZero))
    | .impulseL n a p wet dry master =>
      assemble l = assemble
        (.runBlock n p wet dry master (a :: List.replicate (n - 1) asmZero) (List.replicate n asmZero))
    | .impulseR n a p wet dry master =>
      assemble l = assemble
        (.runBlock n p wet dry master (List.replicate n asmZero) (a :: List.replicate (n - 1) asmZero))) ∧
  (∀ (neg : Bool) (digits scale : Nat),
    asmNum (.dec neg digits scale) =
      BitVec.ofNat 32 (Fmt.withSign .b32 neg (Fmt.roundMag .b32 (digits * 2 ^ 149) (10 ^ scale)))) ∧
  asmNum asmZero = 0x00000000#32 ∧ asmNum (.inf true) = 0xFF800000#32 ∧
  asmNum (.inf false) = 0x7F800000#32 ∧ ∀ w, asmNum (.hex w) = w

-- the step

/-- A step in PHASE = IDLE runs the instruction the host's next word decodes to, as one transition
(20_memory.md R83, 70_reset_and_hazards.md R265), on the state in which its ports are presented; with nothing issued,
all state is retained (60_exceptions.md R236). Presenting a command puts its port values at the ports and its
samples into the input streams at inL and inR (30_encoding.md R93), and changes nothing of the block; the queue,
and that a right sample wins where a host lets the two inputs overlap, are the model's choice (logs 1, 2,
15, 21). -/
def Obligations.StepRunsHostCommand : Prop :=
  ∀ s : State,
    (s.phase = .idle →
      (∀ c rest i, s.pending = c :: rest → decode (.h c.word) = .ok i →
        step s = exec i (s.present c rest)) ∧
      (s.pending = [] → step s = .next s)) ∧
    ∀ (c : HostCommand) (rest : List HostCommand),
      s.present c rest =
        { s with ports := c.ports, samples := (s.present c rest).samples, pending := rest } ∧
      (memWf s.samples = true → ∀ a,
        (∀ k v, c.samplesR[k]? = some v → a = c.ports.inR + k →
          memRead (s.present c rest).samples a = v) ∧
        (∀ k v, c.samplesL[k]? = some v → a = c.ports.inL + k →
          (∀ j, j < c.samplesR.length → a ≠ c.ports.inR + j) →
          memRead (s.present c rest).samples a = v) ∧
        ((∀ j, j < c.samplesL.length → a ≠ c.ports.inL + j) →
          (∀ j, j < c.samplesR.length → a ≠ c.ports.inR + j) →
          memRead (s.present c rest).samples a = memRead s.samples a))

/-- A step in PHASE = BLOCK runs the operation at BSTEP, or within a FRAME the micro-step at USTEP, with
the working registers cleared before the frame's first one and after its last (10_state.md R40, 42_frame_datapath.md
R199), and then moves the sequencer (10_state.md R42, R43); a reserved code faults (30_encoding.md R104). That a
step in BLOCK is one internal operation is the model's reading (log 1, DEDUCED), and that LATCH follows the
codes of DERIVE and CLEAR is the model's choice (log 17). -/
def Obligations.StepRunsInternalOperation : Prop :=
  ∀ s : State, s.phase = .block →
    (∀ i, s.bstep = 0x2#4 → decode (.u s.ustep) = .ok i →
      let s1 := if s.ustep = 0x0#4 then s.clearWorking else s
      (∀ t, exec i s1 = .next t → step s = .next t.advance) ∧
      (∀ r, exec i s1 = .fault r → step s = .fault r)) ∧
    (∀ i, s.bstep ≠ 0x2#4 → decode (.i s.bstep) = .ok i →
      (∀ t, exec i s = .next t → step s = .next t.advance) ∧
      (∀ r, exec i s = .fault r → step s = .fault r)) ∧
    (5 ≤ s.bstep.toNat ∨ (s.bstep = 0x2#4 ∧ s.ustep = 0xF#4) → step s = .fault .reservedCode)

-- admission, construction, reset

/-- 40_host_commands.md R120: which commands are refused in which LIFE (RF set, nothing else), and no move while
PHASE = BLOCK (a named fault; log 18). The admitted cells are the completion statements. -/
def Obligations.AdmissionRefusals : Prop :=
  ∀ (s : State) (n : BitVec 24),
    (s.phase = .idle →
      (s.life ≠ .unconstructed → exec .construct s = .next { s with rf := true }) ∧
      (s.life ≠ .ready → exec .reset s = .next { s with rf := true } ∧
        exec (.runBlock n) s = .next { s with rf := true })) ∧
    (s.phase = .block →
      exec .construct s = .fault .commandDuringBlock ∧ exec .reset s = .fault .commandDuringBlock ∧
      exec (.runBlock n) s = .fault .commandDuringBlock)

/-- 10_state.md R49: the state after a successful CONSTRUCT, register by register, and what it keeps: the
catalog, the configuration functions, the ports, the samples, the queue, the draws, and the sequencer
registers, which have no value then (kept is the model's choice, log 17). -/
def Obligations.ConstructEstablishesReadyState : Prop :=
  ∀ s : State, s.phase = .idle → s.life = .unconstructed → rateValid s.ports.rate = true →
    s.ports.capsOk = true → capacityTooLarge s.catalog (stretchOf s.ports.rate) = false →
    ∃ t, exec .construct s = .next t ∧
      t.life = .ready ∧ t.rf = false ∧ t.cfgErr = .none ∧ t.diag = 0#32 ∧ t.lastInv = 0#32 ∧
      t.rate = s.ports.rate ∧ t.capsOk = true ∧
      t.cap = capacityOf s.catalog (stretchOf s.ports.rate) ∧
      t.active = 0#32 ∧ t.raw = s.catalog.first.words ∧ t.span = s.catalog.first.span ∧
      t.stretch = stretchOf s.ports.rate ∧
      t.params = deriveParams s.fns.iirConvert s.catalog.first.words s.ports.rate t.stretch ∧
      t.bufSize = bufSizeOf s.catalog.first.span t.stretch ∧
      t.fi = !invariantHolds t.params t.bufSize ∧ t.fn = !allGainsFinite t.params ∧
      t.cursor = 0 ∧ (∀ a, memRead t.ram a = 0#32) ∧
      t.gWet = 0#32 ∧ t.gDry = 0#32 ∧ t.gMaster = 0#32 ∧
      t.tWet = 0#32 ∧ t.tDry = 0#32 ∧ t.tMaster = 0#32 ∧
      t.lin = none ∧ t.rin = none ∧ t.lout = none ∧ t.rout = none ∧ t.phase = .idle ∧
      t.catalog = s.catalog ∧ t.fns = s.fns ∧ t.ports = s.ports ∧ t.samples = s.samples ∧
      t.pending = s.pending ∧ t.draws = s.draws ∧ t.bstep = s.bstep ∧ t.ustep = s.ustep ∧
      t.k = s.k ∧ t.nblk = s.nblk

/-- 60_exceptions.md R222, R223, R224: the three construction errors in the order of their checks, what each
records, the example of R224, and that the rate is not kept. FI, FN and RF are not written (40_host_commands.md
R121, 60_exceptions.md R230), so they are 0 after it from the STATUS = 0 in which 10_state.md R48 has CONSTRUCT
find the instance, as R50 says; that R50 speaks of that start is the model's reading (log 11, DEDUCED). The
other registers, which have no value then, are kept, the model's choice (log 12, DESIGN CHOICE). The capacity
is too large exactly when it exceeds 2^30, where every entry's size product is finite; one that is not finite
fails the check too, which is the model's reading (log 10, DEDUCED). -/
def Obligations.ConstructRecordsFirstFailure : Prop :=
  (∀ (c : Catalog) (r : F64),
    ((∀ e ∈ c.first :: c.rest, F64.isFinite (sizeProduct e.span r) = true) →
      (capacityTooLarge c r = true ↔ 2 ^ 30 < capacityOf c r)) ∧
    ((∃ e ∈ c.first :: c.rest, F64.isFinite (sizeProduct e.span r) = false) →
      capacityTooLarge c r = true)) ∧
  ∀ s : State, s.phase = .idle → s.life = .unconstructed →
    (rateValid s.ports.rate = false →
      Claims.FailsWith s .badRate) ∧
    (rateValid s.ports.rate = true → s.ports.capsOk = false →
      Claims.FailsWith s .noCapability) ∧
    (rateValid s.ports.rate = true → s.ports.capsOk = true →
      capacityTooLarge s.catalog (stretchOf s.ports.rate) = true →
      Claims.FailsWith s .capacity) ∧
    (s.ports.rate = 0x4270000000000000#64 → s.ports.capsOk = true → s.catalog.first.span = 128#32 →
      bufSizeOf 128#32 (stretchOf s.ports.rate) = 2 ^ 32 ∧
      ∃ t, exec .construct s = .next t ∧ t.life = .failed ∧ t.cfgErr = .capacity)

/-- 10_state.md R25, 60_exceptions.md R222: a rate is valid exactly if it is a finite positive number above 1.0, so
NaN, the infinities, the zeros, the negative numbers and 1.0 itself are not. -/
def Obligations.ValidRatesAreFiniteAboveOne : Prop :=
  ∀ r : F64, rateValid r = true ↔
    ∃ u, Fmt.unpack .b64 r.toNat = .fin false u ∧ Fmt.b64.one < u

/-- 40_host_commands.md R122: RESET of a READY instance sets every RAM word to +0.0, CURSOR to 0 and the
three smoothed gains to +0.0 and changes nothing else; a second one changes nothing, nor does one right
after CONSTRUCT; in another LIFE it is refused. -/
def Obligations.ResetClearsRamCursorGains : Prop :=
  ∀ s : State, s.phase = .idle →
    (s.life ≠ .ready → exec .reset s = .next { s with rf := true }) ∧
    (s.life = .ready →
      (∃ t, exec .reset s = .next t ∧ (∀ a, memRead t.ram a = 0#32) ∧ t.cursor = 0 ∧
        t.gWet = 0#32 ∧ t.gDry = 0#32 ∧ t.gMaster = 0#32 ∧
        t = { s with
          ram := t.ram, cursor := t.cursor, gWet := t.gWet, gDry := t.gDry, gMaster := t.gMaster } ∧
        exec .reset t = .next t) ∧
      ∀ u : State, u.life = .unconstructed → exec .construct u = .next s → exec .reset s = .next s)

-- RUN_BLOCK

/-- 40_host_commands.md R123, 30_encoding.md R103, 20_memory.md R80: on a READY instance RUN_BLOCK with n = 0, or with streams that
overlap other than in place, is refused; and which placements those are, in addresses. That a stream is its
n word addresses, that in place means equal addresses, and that an input may not share a word with the other
input nor an output with the other output, is the model's choice (log 15). -/
def Obligations.RunBlockRefusals : Prop :=
  (∀ (s : State) (n : BitVec 24), s.phase = .idle → s.life = .ready →
    n = 0#24 ∨ streamsMeetR80 n.toNat s.ports = false →
    exec (.runBlock n) s = .next { s with rf := true }) ∧
  ∀ (n : Nat) (p : Ports), streamsMeetR80 n p = true ↔
    (p.outL = p.inL ∨ ¬Claims.ShareWord n p.outL p.inL) ∧ ¬Claims.ShareWord n p.outL p.inR ∧
    (p.outR = p.inR ∨ ¬Claims.ShareWord n p.outR p.inR) ∧ ¬Claims.ShareWord n p.outR p.inL ∧
    ¬Claims.ShareWord n p.inL p.inR ∧ ¬Claims.ShareWord n p.outL p.outR

/-- 40_host_commands.md R123 with R124 and R125, 42_frame_datapath.md R195, R199: from every state that meets the
invariant, an admitted RUN_BLOCK completes, back in IDLE; which preset is then active; CURSOR; the targets;
no working register holds a value; and what it leaves alone: LIFE, CFGERR, RF, the configuration, the ports,
DIAG and LASTINV where the index is valid, the preset's registers, FI and FN where ACTIVE stays, and every
sample word outside the two output streams. That K and NBLK hold n in IDLE is the model's choice (log 17). -/
def Obligations.RunBlockCompletes : Prop :=
  ∀ (s : State) (n : BitVec 24), s.Inv → s.phase = .idle → s.life = .ready → n ≠ 0#24 →
    streamsMeetR80 n.toNat s.ports = true →
    ∃ t, exec (.runBlock n) s = .next t ∧ t.phase = .idle ∧ t.k = n.toNat ∧ t.nblk = n.toNat ∧
      t.life = s.life ∧ t.cfgErr = s.cfgErr ∧ t.rf = s.rf ∧ t.rate = s.rate ∧
      t.capsOk = s.capsOk ∧ t.catalog = s.catalog ∧ t.cap = s.cap ∧ t.fns = s.fns ∧
      t.ports = s.ports ∧ t.pending = s.pending ∧
      t.active = (if validPreset s.catalog s.ports.presetIn then s.ports.presetIn else s.active) ∧
      (t.active = s.active → Claims.SamePreset s t) ∧
      (validPreset s.catalog s.ports.presetIn = true → t.diag = s.diag ∧ t.lastInv = s.lastInv) ∧
      t.cursor = ((if t.active = s.active then s.cursor else 0) + n.toNat) % t.bufSize ∧
      t.tWet = dbToLin s.fns.dbToLinCore s.draws s.ports.wetDb ∧
      t.tDry = dbToLin s.fns.dbToLinCore (s.draws + 1) s.ports.dryDb ∧
      t.tMaster = dbToLin s.fns.dbToLinCore (s.draws + 2) s.ports.masterDb ∧
      t.lin = none ∧ t.rin = none ∧ t.lout = none ∧ t.rout = none ∧
      ∀ a, (∀ j, j < n.toNat → a ≠ s.ports.outL + j ∧ a ≠ s.ports.outR + j) →
        memRead t.samples a = memRead s.samples a

/-- 70_reset_and_hazards.md R265, 10_state.md R43: the one transition of RUN_BLOCK is what its 2 + 15 n internal steps do, one
after the other, from the block's start to IDLE; and where a step would stop, so does it. -/
def Obligations.RunBlockIsItsInternalSteps : Prop :=
  ∀ (s : State) (n : BitVec 24), s.phase = .idle → s.life = .ready → n ≠ 0#24 →
    streamsMeetR80 n.toNat s.ports = true →
    exec (.runBlock n) s = Host.Core.run core (2 + 15 * n.toNat) (s.startBlock n.toNat)

/-- 60_exceptions.md R225: an invalid preset index counts once in DIAG (saturating) and in LASTINV, and the block
then runs as if the index had equalled ACTIVE. -/
def Obligations.InvalidPresetRunsAsActive : Prop :=
  ∀ (s : State) (n : BitVec 24), s.phase = .idle → s.life = .ready → n ≠ 0#24 →
    streamsMeetR80 n.toNat s.ports = true → s.ports.presetIn ≠ s.active →
    validPreset s.catalog s.ports.presetIn = false →
    ∀ t, exec (.runBlock n) { s with ports := { s.ports with presetIn := s.active } } = .next t →
      t.diag = s.diag ∧ t.lastInv = s.lastInv ∧
      exec (.runBlock n) s = .next
        { t with
          ports := s.ports
          diag := BitVec.ofNat 32 (min (s.diag.toNat + 1) (2 ^ 32 - 1))
          lastInv := s.ports.presetIn }

/-- 70_reset_and_hazards.md R252: a valid new index switches the preset before frame 0: the block runs from the state its
DERIVE leaves, RAM zeroed and CURSOR 0, with G_* and T_* untouched by the switch. -/
def Obligations.PresetSwitchRunsFromDerivedState : Prop :=
  ∀ (s : State) (n : BitVec 24), s.phase = .idle → s.life = .ready → n ≠ 0#24 →
    streamsMeetR80 n.toNat s.ports = true → s.ports.presetIn ≠ s.active →
    validPreset s.catalog s.ports.presetIn = true →
    ∃ t, exec .derive s = .next t ∧ t.active = s.ports.presetIn ∧ (∀ a, memRead t.ram a = 0#32) ∧
      t.cursor = 0 ∧ t.gWet = s.gWet ∧ t.gDry = s.gDry ∧ t.gMaster = s.gMaster ∧
      t.tWet = s.tWet ∧ t.tDry = s.tDry ∧ t.tMaster = s.tMaster ∧
      exec (.runBlock n) s = exec (.runBlock n) t

/-- 20_memory.md R81: where the outputs lie makes no difference: two runs of one block whose output streams are
placed in any two ways R80 allows (in place or disjoint) leave the same outputs and the same state
otherwise. -/
def Obligations.InPlaceEqualsDisjoint : Prop :=
  ∀ (s : State) (n : BitVec 24) (outL outR : Nat),
    s.phase = .idle → s.life = .ready → n ≠ 0#24 → memWf s.samples = true →
    streamsMeetR80 n.toNat s.ports = true →
    streamsMeetR80 n.toNat { s.ports with outL := outL, outR := outR } = true →
    ∀ t, exec (.runBlock n) s = .next t →
    ∃ u, exec (.runBlock n) { s with ports := { s.ports with outL := outL, outR := outR } } = .next u ∧
      (∀ j, j < n.toNat →
        memRead u.samples (outL + j) = memRead t.samples (s.ports.outL + j) ∧
        memRead u.samples (outR + j) = memRead t.samples (s.ports.outR + j)) ∧
      u = { t with ports := u.ports, samples := u.samples }

/-- 40_host_commands.md R127: a block of a + b frames and a block of a frames followed by one of b frames, with
the streams taken up where they stopped and the same controls and preset index, leave the same samples,
RAM, gains and CURSOR. A NaN's pattern is left out of it: it is a free value of each run (log 6). -/
def Obligations.BlocksSplit : Prop :=
  ∀ (s : State) (a b : Nat), s.Inv → s.phase = .idle → s.life = .ready → 0 < a → 0 < b →
    a + b ≤ 2 ^ 24 - 1 → streamsMeetR80 (a + b) s.ports = true →
    ∃ t t1 t2 : State,
      exec (.runBlock (BitVec.ofNat 24 (a + b))) s = .next t ∧
      exec (.runBlock (BitVec.ofNat 24 a)) s = .next t1 ∧
      exec (.runBlock (BitVec.ofNat 24 b))
        { t1 with
          ports := { s.ports with
            inL := s.ports.inL + a, inR := s.ports.inR + a
            outL := s.ports.outL + a, outR := s.ports.outR + a } } = .next t2 ∧
      (∀ x, Claims.SameValue (memRead t2.samples x) (memRead t.samples x)) ∧
      (∀ x, Claims.SameValue (memRead t2.ram x) (memRead t.ram x)) ∧
      Claims.SameValue t2.gWet t.gWet ∧ Claims.SameValue t2.gDry t.gDry ∧
      Claims.SameValue t2.gMaster t.gMaster ∧ t2.cursor = t.cursor ∧ t2.active = t.active ∧
      t2.params = t.params

-- SELECT, LATCH, FRAME

/-- 40_host_commands.md R124: SELECT completes in every state: nothing when the index is ACTIVE, a DERIVE when it is another
valid one, and otherwise DIAG up by one (saturating) and LASTINV. -/
def Obligations.SelectCompletes : Prop :=
  ∀ s : State,
    (s.ports.presetIn = s.active → exec .select s = .next s) ∧
    (s.ports.presetIn ≠ s.active → 0 ≤ s.ports.presetIn.toInt →
      s.ports.presetIn.toInt < s.catalog.rest.length + 1 →
      ∃ t, exec .derive s = .next t ∧ exec .select s = .next t) ∧
    (s.ports.presetIn ≠ s.active →
      (s.ports.presetIn.toInt < 0 ∨ (s.catalog.rest.length : Int) + 1 ≤ s.ports.presetIn.toInt) →
      exec .select s = .next
        { s with
          diag := BitVec.ofNat 32 (min (s.diag.toNat + 1) (2 ^ 32 - 1))
          lastInv := s.ports.presetIn })

/-- 40_host_commands.md R125: LATCH writes the three targets and nothing else (its three draws apart, log 6). -/
def Obligations.LatchWritesTargets : Prop :=
  ∀ s : State, exec .latch s = .next
    { s with
      tWet := dbToLin s.fns.dbToLinCore s.draws s.ports.wetDb
      tDry := dbToLin s.fns.dbToLinCore (s.draws + 1) s.ports.dryDb
      tMaster := dbToLin s.fns.dbToLinCore (s.draws + 2) s.ports.masterDb
      draws := s.draws + 3 }

/-- 40_host_commands.md R128: the laws of dbToLin, for the default and for every replacement of dbToLinCore. -/
def Obligations.DecibelLaws : Prop :=
  ∀ (f : ConfigFn) (d : Nat) (x : F32),
    (F32.le x 0xC2B40000#32 = true → dbToLin f d x = 0x00000000#32) ∧
    dbToLin f d 0xFF800000#32 = 0x00000000#32 ∧
    (x = 0x00000000#32 ∨ x = 0x80000000#32 → dbToLin f d x = 0x3F800000#32) ∧
    (F32.le x 0xC2B40000#32 = false → x ≠ 0x00000000#32 → x ≠ 0x80000000#32 →
      dbToLin f d x =
        match f with
        | .default => dbCoreDefault d x
        | .replacement id => Config.dbReplacement id x)

/-- 40_host_commands.md R126, 42_frame_datapath.md R180, R199: while 1 <= B <= CAP a FRAME completes: all 15 micro-steps run, CURSOR moves by
one, no working register is retained, and nothing else changes but the RAM words at the eight
write taps, the gains, USTEP, the two output elements and the draws (log 6). -/
def Obligations.FrameCompletes : Prop :=
  ∀ s : State, s.Sized →
    ∃ t, exec .frame s = .next t ∧ s.sameOutsideFrame t ∧ t.cursor = (s.cursor + 1) % s.bufSize ∧
      t.ustep = 0xE#4 ∧ t.lin = none ∧ t.rin = none ∧ t.lout = none ∧ t.rout = none ∧
      (∀ a, a ∉ [s.params.mLSAME, s.params.mRSAME, s.params.mLDIFF, s.params.mRDIFF, s.params.mLAPF1,
          s.params.mRAPF1, s.params.mLAPF2, s.params.mRAPF2].map (bufAddr s) →
        memRead t.ram a = memRead s.ram a) ∧
      (∀ a, a ≠ s.ports.outL + s.k → a ≠ s.ports.outR + s.k →
        memRead t.samples a = memRead s.samples a)

/-- 70_reset_and_hazards.md R251's property, 95_test_vectors.md L1-13: with the RAM zeroed, zero input and finite gains (FN = 0), a frame's
wet output is zero on both channels: what Lout and Rout hold when its first eleven micro-steps, IN to
APF2_R, have run and ADV is next. The RAM's canonical form is a premise (State.Inv.ramWf). -/
def Obligations.SilentFrameFromZeroedRam : Prop :=
  ∀ s : State, s.Sized → memWf s.ram = true → (∀ a, memRead s.ram a = 0#32) →
    allGainsFinite s.params = true → F32.isZero (readInL s) = true → F32.isZero (readInR s) = true →
    s.phase = .block → s.bstep = 0x2#4 → s.ustep = 0x0#4 →
    ∃ t l r, Host.Core.run core 11 s = .next t ∧ t.ustep = 0xB#4 ∧ t.lout = some l ∧
      t.rout = some r ∧ F32.isZero l = true ∧ F32.isZero r = true

-- DERIVE, CLEAR and the deriver's functions

/-- 41_deriver.md R150: DERIVE of a valid index completes and installs the parameters of that entry at RATE, sets FI
and FN where a check fails (and never clears them), and clears the RAM and CURSOR; the rest is
unchanged. -/
def Obligations.DeriveInstallsPreset : Prop :=
  ∀ (s : State) (e : CatalogEntry), validPreset s.catalog s.ports.presetIn = true →
    (s.catalog.first :: s.catalog.rest)[s.ports.presetIn.toInt.toNat]? = some e →
    ∃ t, exec .derive s = .next t ∧
      t.raw = e.words ∧ t.span = e.span ∧ t.stretch = stretchOf s.rate ∧
      t.params = deriveParams s.fns.iirConvert e.words s.rate (stretchOf s.rate) ∧
      t.bufSize = bufSizeOf e.span (stretchOf s.rate) ∧
      (t.fi = true ↔
        s.fi = true ∨ ∃ o ∈ effectiveOffsets t.params, ¬(-(t.bufSize : Int) < o ∧ o < t.bufSize)) ∧
      (t.fn = true ↔ s.fn = true ∨ ∃ g ∈ derivedGains t.params, F32.isFinite g = false) ∧
      t.active = s.ports.presetIn ∧ (∀ a, memRead t.ram a = 0#32) ∧ t.cursor = 0 ∧
      t = { s with
        raw := t.raw, span := t.span, stretch := t.stretch, params := t.params, bufSize := t.bufSize
        fi := t.fi, fn := t.fn, active := t.active, ram := t.ram, cursor := t.cursor }

/-- 41_deriver.md R162: what DERIVE installs is a function of the record, the span, the rate and iirConvert
alone, so deriving the same preset at the same rate twice installs the same parameters, bit for bit; a
second DERIVE changes nothing at all. -/
def Obligations.DeriveIsIdempotent : Prop :=
  (∀ s t u v : State, exec .derive s = .next t → exec .derive u = .next v →
    v.raw = t.raw → v.span = t.span → u.rate = s.rate → u.fns.iirConvert = s.fns.iirConvert →
    v.params = t.params ∧ v.stretch = t.stretch ∧ v.bufSize = t.bufSize) ∧
  ∀ s t : State, exec .derive s = .next t → exec .derive t = .next t

/-- 41_deriver.md R164: when FI = 0 after a derivation, B is a power of two and strictly greater than every tap and
every effective offset. -/
def Obligations.CleanDerivationBoundsOffsets : Prop :=
  ∀ s t : State, exec .derive s = .next t → t.fi = false →
    (∃ k, t.bufSize = 2 ^ k) ∧ ∀ o ∈ effectiveOffsets t.params, |o| < (t.bufSize : Int)

/-- 41_deriver.md R161: CLEAR completes in every state: every RAM word +0.0, CURSOR 0, nothing else, G_* and T_* among
it. -/
def Obligations.ClearZeroesRam : Prop :=
  ∀ s : State, ∃ t, exec .clear s = .next t ∧ (∀ a, memRead t.ram a = 0#32) ∧ t.cursor = 0 ∧
    t = { s with ram := t.ram, cursor := t.cursor }

/-- 41_deriver.md R154: gainDecode is exact: its value is s16(w) / 32768, in units of 2^-149; and DERIVE
installs it for every gain field other than vIIR. -/
def Obligations.GainDecodeIsExact : Prop :=
  (∀ w : Word16, Fmt.unpack .b32 (gainDecode w).toNat =
    .fin (decide (w.toInt < 0)) (w.toInt.natAbs * 2 ^ 134)) ∧
  ∀ s t : State, exec .derive s = .next t →
    t.params.vCOMB1 = gainDecode t.raw[3] ∧ t.params.vCOMB2 = gainDecode t.raw[4] ∧
    t.params.vCOMB3 = gainDecode t.raw[5] ∧ t.params.vCOMB4 = gainDecode t.raw[6] ∧
    t.params.vWALL = gainDecode t.raw[7] ∧ t.params.vAPF1 = gainDecode t.raw[8] ∧
    t.params.vAPF2 = gainDecode t.raw[9] ∧ t.params.vLIN = gainDecode t.raw[30] ∧
    t.params.vRIN = gainDecode t.raw[31]

/-- 41_deriver.md R156 properties 1, 2 and 4: at the native rate iirConvert is the identity on every decoded
gain, for the default and for every replacement; the default gives +0.0 for +0.0 at every valid rate, and
-inf for -1.0 at 11025 Hz. -/
def Obligations.IirConvertIsIdentityAtNativeRate : Prop :=
  (∀ (f : ConfigFn) (w : Word16),
    iirConvert f (gainDecode w) 0x40D5888000000000#64 = gainDecode w) ∧
  (∀ r : F64, rateValid r = true → iirConvert .default 0x00000000#32 r = 0x00000000#32) ∧
  iirConvert .default 0xBF800000#32 0x40C5888000000000#64 = 0xFF800000#32

/-- 41_deriver.md R151, R152, R153, 10_state.md R28: the stretch is rate / 22050 rounded once; a tap is the exact product of
four times the raw field and the stretch, rounded once to binary64 (RoundingIsNearestEven says what roundMag
is) and truncated; it is not negative at any valid rate; the spec's examples at 48000 Hz; and after a DERIVE
each of the 20 taps and 2 depths is the tap of its own record word at S. A product that overflows gives a
free natural number (log 10). -/
def Obligations.TapScaling : Prop :=
  (∀ (r : F64) (m : Nat), Fmt.unpack .b64 r.toNat = .fin false m →
    (stretchOf r).toNat = Fmt.roundMag .b64 m 22050) ∧
  (∀ (u : Word16) (s : F64) (m : Nat), Fmt.unpack .b64 s.toNat = .fin false m →
    Fmt.roundMag .b64 (4 * u.toNat * m) 1 < Fmt.b64.infBits →
    tapScale u s = ((Fmt.unitsOf .b64 (Fmt.roundMag .b64 (4 * u.toNat * m) 1) / 2 ^ 1074 : Nat) : Int)) ∧
  (∀ (u : Word16) (r : F64), rateValid r = true → 0 ≤ tapScale u (stretchOf r)) ∧
  (∀ u : Word16, tapScale u (stretchOf 0x40D5888000000000#64) = 4 * (u.toNat : Int)) ∧
  (∀ u : Word16, tapScale u (stretchOf 0x40E5888000000000#64) = 8 * (u.toNat : Int)) ∧
  [1#16, 147#16, 9808#16, 65535#16].map (fun u => tapScale u (stretchOf 0x40E7700000000000#64)) =
    [8, 1280, 85402, 570644] ∧
  ∀ s t : State, exec .derive s = .next t →
    t.stretch = stretchOf s.rate ∧
    t.params.dAPF1 = tapScale t.raw[0] t.stretch ∧ t.params.dAPF2 = tapScale t.raw[1] t.stretch ∧
    t.params.mLSAME = tapScale t.raw[10] t.stretch ∧ t.params.mRSAME = tapScale t.raw[11] t.stretch ∧
    t.params.mLCOMB1 = tapScale t.raw[12] t.stretch ∧ t.params.mRCOMB1 = tapScale t.raw[13] t.stretch ∧
    t.params.mLCOMB2 = tapScale t.raw[14] t.stretch ∧ t.params.mRCOMB2 = tapScale t.raw[15] t.stretch ∧
    t.params.dLSAME = tapScale t.raw[16] t.stretch ∧ t.params.dRSAME = tapScale t.raw[17] t.stretch ∧
    t.params.mLDIFF = tapScale t.raw[18] t.stretch ∧ t.params.mRDIFF = tapScale t.raw[19] t.stretch ∧
    t.params.mLCOMB3 = tapScale t.raw[20] t.stretch ∧ t.params.mRCOMB3 = tapScale t.raw[21] t.stretch ∧
    t.params.mLCOMB4 = tapScale t.raw[22] t.stretch ∧ t.params.mRCOMB4 = tapScale t.raw[23] t.stretch ∧
    t.params.dLDIFF = tapScale t.raw[24] t.stretch ∧ t.params.dRDIFF = tapScale t.raw[25] t.stretch ∧
    t.params.mLAPF1 = tapScale t.raw[26] t.stretch ∧ t.params.mRAPF1 = tapScale t.raw[27] t.stretch ∧
    t.params.mLAPF2 = tapScale t.raw[28] t.stretch ∧ t.params.mRAPF2 = tapScale t.raw[29] t.stretch

/-- 00_scope.md R12, 41_deriver.md R157: nextPow2 is the smallest power of two at or above its argument, and 1 for 0. -/
def Obligations.NextPowerOfTwoIsLeast : Prop :=
  ∀ x : Nat, (∃ k, nextPow2 x = 2 ^ k) ∧ x ≤ nextPow2 x ∧ ∀ j, x ≤ 2 ^ j → nextPow2 x ≤ 2 ^ j

/-- 41_deriver.md R158: CAP is the largest active size over the catalog, CONSTRUCT computes it, and so B <= CAP for every
preset. -/
def Obligations.CapacityCoversCatalog : Prop :=
  (∀ (c : Catalog) (s : F64),
    (∀ e ∈ c.first :: c.rest, bufSizeOf e.span s ≤ capacityOf c s) ∧
    ∃ e ∈ c.first :: c.rest, bufSizeOf e.span s = capacityOf c s) ∧
  (∀ s t : State, s.life = .unconstructed → exec .construct s = .next t → t.life = .ready →
    t.cap = capacityOf s.catalog (stretchOf s.ports.rate)) ∧
  (∀ s t : State, s.Inv → s.life = .ready → exec .derive s = .next t → t.bufSize ≤ t.cap)

-- the micro-steps

/-- 42_frame_datapath.md R181: IN completes in every state and scales the two inputs. -/
def Obligations.InputScalesSamples : Prop :=
  ∀ s : State, exec .input s = .next
    { s with
      lin := some (F32.mul (nan32 s.draws) s.params.vLIN (memRead s.samples (s.ports.inL + s.k)))
      rin := some (F32.mul (nan32 (s.draws + 1)) s.params.vRIN
        (memRead s.samples (s.ports.inR + s.k)))
      draws := s.draws + 2 }

/-- 42_frame_datapath.md R182 to R186: the four reflections complete while 1 <= B <= CAP and their input register holds a
value, and write the recurrence at their tap, each with its own far tap; every other word and register
is unchanged. -/
def Obligations.ReflectionsWriteRecurrence : Prop :=
  ∀ (s : State) (x : F32), s.Sized → memWf s.ram = true →
    (s.lin = some x → ∃ t, exec .sameL s = .next t ∧
      Claims.WroteBuf s t s.params.mLSAME (Claims.recurrence s x s.params.dLSAME s.params.mLSAME)) ∧
    (s.rin = some x → ∃ t, exec .sameR s = .next t ∧
      Claims.WroteBuf s t s.params.mRSAME (Claims.recurrence s x s.params.dRSAME s.params.mRSAME)) ∧
    (s.lin = some x → ∃ t, exec .diffL s = .next t ∧
      Claims.WroteBuf s t s.params.mLDIFF (Claims.recurrence s x s.params.dRDIFF s.params.mLDIFF)) ∧
    (s.rin = some x → ∃ t, exec .diffR s = .next t ∧
      Claims.WroteBuf s t s.params.mRDIFF (Claims.recurrence s x s.params.dLDIFF s.params.mRDIFF))

/-- 42_frame_datapath.md R187 to R189: the combs complete while 1 <= B <= CAP, sum their four taps left to right, and write
nothing but their register. -/
def Obligations.CombsSumFourTaps : Prop :=
  ∀ s : State, s.Sized →
    exec .combL s = .next
      { s with
        lout := some (Claims.combSum s s.params.mLCOMB1 s.params.mLCOMB2 s.params.mLCOMB3
          s.params.mLCOMB4)
        draws := s.draws + 7 } ∧
    exec .combR s = .next
      { s with
        rout := some (Claims.combSum s s.params.mRCOMB1 s.params.mRCOMB2 s.params.mRCOMB3
          s.params.mRCOMB4)
        draws := s.draws + 7 }

/-- 42_frame_datapath.md R190 to R194, 70_reset_and_hazards.md R257: the all-pass stages complete while 1 <= B <= CAP and their register holds a
value; each stores `w` at its tap, and its output takes `w` itself for the re-read when d mod B = 0 and
the first read otherwise; every other word and register is unchanged. -/
def Obligations.AllPassStages : Prop :=
  ∀ (s : State) (x : F32), s.Sized → memWf s.ram = true →
    (s.lout = some x →
      (∃ t, exec .apf1L s = .next t ∧
        t = { s with
          ram := t.ram, draws := t.draws
          lout := some (Claims.allPassOut s x s.params.mLAPF1 s.params.dAPF1 s.params.vAPF1) } ∧
        ∀ a, memRead t.ram a = if a = bufAddr s s.params.mLAPF1
          then Claims.allPassStore s x s.params.mLAPF1 s.params.dAPF1 s.params.vAPF1
          else memRead s.ram a) ∧
      (∃ t, exec .apf2L s = .next t ∧
        t = { s with
          ram := t.ram, draws := t.draws
          lout := some (Claims.allPassOut s x s.params.mLAPF2 s.params.dAPF2 s.params.vAPF2) } ∧
        ∀ a, memRead t.ram a = if a = bufAddr s s.params.mLAPF2
          then Claims.allPassStore s x s.params.mLAPF2 s.params.dAPF2 s.params.vAPF2
          else memRead s.ram a)) ∧
    (s.rout = some x →
      (∃ t, exec .apf1R s = .next t ∧
        t = { s with
          ram := t.ram, draws := t.draws
          rout := some (Claims.allPassOut s x s.params.mRAPF1 s.params.dAPF1 s.params.vAPF1) } ∧
        ∀ a, memRead t.ram a = if a = bufAddr s s.params.mRAPF1
          then Claims.allPassStore s x s.params.mRAPF1 s.params.dAPF1 s.params.vAPF1
          else memRead s.ram a) ∧
      (∃ t, exec .apf2R s = .next t ∧
        t = { s with
          ram := t.ram, draws := t.draws
          rout := some (Claims.allPassOut s x s.params.mRAPF2 s.params.dAPF2 s.params.vAPF2) } ∧
        ∀ a, memRead t.ram a = if a = bufAddr s s.params.mRAPF2
          then Claims.allPassStore s x s.params.mRAPF2 s.params.dAPF2 s.params.vAPF2
          else memRead s.ram a))

/-- 42_frame_datapath.md R195: ADV completes in every state and moves CURSOR by one modulo B, so B - 1 goes to 0, and changes
nothing else. -/
def Obligations.AdvanceMovesCursor : Prop :=
  ∀ s : State, exec .adv s = .next { s with cursor := (s.cursor + 1) % s.bufSize } ∧
    (0 < s.bufSize → s.cursor = s.bufSize - 1 → exec .adv s = .next { s with cursor := 0 })

/-- 42_frame_datapath.md R196: SMOOTH completes in every state and moves each gain one step with SMOOTH_K = 0x3A83126F. -/
def Obligations.SmoothStepsGains : Prop :=
  ∀ s : State, exec .smooth s = .next
    { s with
      gWet := Claims.smoothed s.draws s.gWet s.tWet
      gDry := Claims.smoothed (s.draws + 3) s.gDry s.tDry
      gMaster := Claims.smoothed (s.draws + 6) s.gMaster s.tMaster
      draws := s.draws + 9 }

/-- 42_frame_datapath.md R196's first corner case: a gain at its target is unchanged. It holds for every finite gain but
-0.0, which no smoothing from +0.0 gives: there -0.0 + +0.0 = +0.0 (log 20). -/
def Obligations.SmoothKeepsReachedTarget : Prop :=
  ∀ (d : Nat) (g : F32), F32.isFinite g = true → g ≠ 0x80000000#32 → Claims.smoothed d g g = g

/-- 42_frame_datapath.md R197, R198: the mixes complete when their two registers hold values, write one output element each,
and change no other word or register. -/
def Obligations.MixWritesOutput : Prop :=
  ∀ (s : State) (wet dry : F32), memWf s.samples = true →
    (s.lout = some wet → s.lin = some dry → ∃ t, exec .mixL s = .next t ∧
      t = { s with samples := t.samples, draws := t.draws } ∧
      ∀ a, memRead t.samples a =
        if a = s.ports.outL + s.k then Claims.mixed s wet dry else memRead s.samples a) ∧
    (s.rout = some wet → s.rin = some dry → ∃ t, exec .mixR s = .next t ∧
      t = { s with samples := t.samples, draws := t.draws } ∧
      ∀ a, memRead t.samples a =
        if a = s.ports.outR + s.k then Claims.mixed s wet dry else memRead s.samples a)

/-- The frames of the 15 micro-steps, wherever they answer a next state (42_frame_datapath.md R180 to R198): the registers
each may write, and the one word each may store to, at the address its meaning computes. -/
def Obligations.MicroStepFrames : Prop :=
  ∀ s t : State,
    (exec .input s = .next t → t = { s with lin := t.lin, rin := t.rin, draws := t.draws }) ∧
    (exec .combL s = .next t → t = { s with lout := t.lout, draws := t.draws }) ∧
    (exec .combR s = .next t → t = { s with rout := t.rout, draws := t.draws }) ∧
    (exec .adv s = .next t → t = { s with cursor := t.cursor }) ∧
    (exec .smooth s = .next t →
      t = { s with gWet := t.gWet, gDry := t.gDry, gMaster := t.gMaster, draws := t.draws }) ∧
    (∀ p ∈ [(Instr.sameL, s.params.mLSAME), (.sameR, s.params.mRSAME), (.diffL, s.params.mLDIFF),
        (.diffR, s.params.mRDIFF)], exec p.1 s = .next t →
      t = { s with ram := t.ram, draws := t.draws } ∧
      ∀ a, a ≠ bufAddr s p.2 → memRead t.ram a = memRead s.ram a) ∧
    (∀ p ∈ [(Instr.apf1L, s.params.mLAPF1), (.apf2L, s.params.mLAPF2)], exec p.1 s = .next t →
      t = { s with ram := t.ram, lout := t.lout, draws := t.draws } ∧
      ∀ a, a ≠ bufAddr s p.2 → memRead t.ram a = memRead s.ram a) ∧
    (∀ p ∈ [(Instr.apf1R, s.params.mRAPF1), (.apf2R, s.params.mRAPF2)], exec p.1 s = .next t →
      t = { s with ram := t.ram, rout := t.rout, draws := t.draws } ∧
      ∀ a, a ≠ bufAddr s p.2 → memRead t.ram a = memRead s.ram a) ∧
    (∀ p ∈ [(Instr.mixL, s.ports.outL), (.mixR, s.ports.outR)], exec p.1 s = .next t →
      t = { s with samples := t.samples, draws := t.draws } ∧
      ∀ a, a ≠ p.2 + s.k → memRead t.samples a = memRead s.samples a)

/-- Where the internal operations stop (10_state.md R40 and U13, 20_memory.md R69 and U1): every micro-step that reads a
working register, on one that holds no value; every one that reaches the RAM, on a tap of its own outside
[0, CAP), read or written: the far tap, the previous tap and the write tap of a reflection, the four taps of
a comb, the delayed tap and the write tap of an all-pass stage. DERIVE stops on an index that names no
preset, the model's choice (log 13). -/
def Obligations.InternalOperationStops : Prop :=
  ∀ s : State,
    (∀ p ∈ [(Instr.sameL, s.lin), (.sameR, s.rin), (.diffL, s.lin), (.diffR, s.rin), (.apf1L, s.lout),
        (.apf1R, s.rout), (.apf2L, s.lout), (.apf2R, s.rout), (.mixL, s.lout), (.mixL, s.lin),
        (.mixR, s.rout), (.mixR, s.rin)],
      p.2 = none → exec p.1 s = .fault .workingUnwritten) ∧
    (∀ p ∈ [(Instr.sameL, s.lin, s.params.dLSAME, s.params.mLSAME),
        (.sameR, s.rin, s.params.dRSAME, s.params.mRSAME),
        (.diffL, s.lin, s.params.dRDIFF, s.params.mLDIFF),
        (.diffR, s.rin, s.params.dLDIFF, s.params.mRDIFF)],
      p.2.1.isSome = true →
      (∃ o ∈ [p.2.2.1, p.2.2.2 - 1, p.2.2.2], s.cap ≤ bufAddr s o) →
      exec p.1 s = .fault .ramOutOfRange) ∧
    ((∃ o ∈ [s.params.mLCOMB1, s.params.mLCOMB2, s.params.mLCOMB3, s.params.mLCOMB4],
      s.cap ≤ bufAddr s o) → exec .combL s = .fault .ramOutOfRange) ∧
    ((∃ o ∈ [s.params.mRCOMB1, s.params.mRCOMB2, s.params.mRCOMB3, s.params.mRCOMB4],
      s.cap ≤ bufAddr s o) → exec .combR s = .fault .ramOutOfRange) ∧
    (∀ p ∈ [(Instr.apf1L, s.lout, s.params.mLAPF1, s.params.dAPF1),
        (.apf1R, s.rout, s.params.mRAPF1, s.params.dAPF1),
        (.apf2L, s.lout, s.params.mLAPF2, s.params.dAPF2),
        (.apf2R, s.rout, s.params.mRAPF2, s.params.dAPF2)],
      p.2.1.isSome = true →
      (∃ o ∈ [p.2.2.1 - p.2.2.2, p.2.2.1], s.cap ≤ bufAddr s o) →
      exec p.1 s = .fault .ramOutOfRange) ∧
    (validPreset s.catalog s.ports.presetIn = false → exec .derive s = .fault .noSuchPreset)

-- status, errors, arithmetic, addresses

/-- 10_state.md R21: where STATUS holds its fields; every other bit reads as 0. -/
def Obligations.StatusLayout : Prop :=
  ∀ s : State,
    s.status.toNat =
      (match s.life with | .unconstructed => 0 | .ready => 1 | .failed => 2) +
      (if s.fi then 2 ^ 2 else 0) + (if s.fn then 2 ^ 3 else 0) + (if s.rf then 2 ^ 4 else 0) +
      (match s.cfgErr with | .none => 0 | .badRate => 1 | .noCapability => 2 | .capacity => 3) * 2 ^ 8

/-- 60_exceptions.md R221: the cause codes, which errors are fatal, and what each non-fatal one records. -/
def Obligations.ErrorsRecordTheirColumn : Prop :=
  ∀ (s : State) (p : BitVec 32),
    [Cause.cfgBadRate, .cfgNoCapability, .cfgCapacity, .presetInvalid p, .faultInvariant,
      .faultNumeric, .refused].map (fun c => (causeCode c, causeFatal c)) =
      [(0x01#8, true), (0x02#8, true), (0x03#8, true), (0x10#8, false), (0x20#8, false),
       (0x21#8, false), (0x30#8, false)] ∧
    (s.raise .cfgBadRate).life = .failed ∧ (s.raise .cfgBadRate).cfgErr = .badRate ∧
    (s.raise .cfgNoCapability).life = .failed ∧ (s.raise .cfgNoCapability).cfgErr = .noCapability ∧
    (s.raise .cfgCapacity).life = .failed ∧ (s.raise .cfgCapacity).cfgErr = .capacity ∧
    s.raise (.presetInvalid p) =
      { s with diag := BitVec.ofNat 32 (min (s.diag.toNat + 1) (2 ^ 32 - 1)), lastInv := p } ∧
    s.raise .faultInvariant = { s with fi := true } ∧ s.raise .faultNumeric = { s with fn := true } ∧
    s.raise .refused = { s with rf := true }

/-- 00_scope.md R13: rounding is to the nearest representable number, ties to the even pattern, and overflows to
infinity exactly from half a last place above the largest finite number. -/
def Obligations.RoundingIsNearestEven : Prop :=
  ∀ f : Fmt, f = .b32 ∨ f = .b64 → ∀ n d : Nat, 0 < d →
    (Fmt.roundMag f n d = f.infBits ↔
      (Fmt.unitsOf f (f.infBits - 1) + Fmt.unitsOf f f.infBits) * d ≤ 2 * n) ∧
    (Fmt.roundMag f n d < f.infBits → ∀ m, m < f.infBits →
      |(n : Int) - (Fmt.unitsOf f (Fmt.roundMag f n d) * d : Nat)| ≤
          |(n : Int) - (Fmt.unitsOf f m * d : Nat)| ∧
      (m ≠ Fmt.roundMag f n d →
        |(n : Int) - (Fmt.unitsOf f (Fmt.roundMag f n d) * d : Nat)| =
          |(n : Int) - (Fmt.unitsOf f m * d : Nat)| →
        Fmt.roundMag f n d % 2 = 0))

/-- 42_frame_datapath.md R200: a zero gain does not block a NaN or an infinity, and a NaN goes through every sum, difference
and product. -/
def Obligations.NonFiniteValuesPropagate : Prop :=
  ∀ (d : Nat) (x y z : F32),
    (z = 0x00000000#32 ∨ z = 0x80000000#32 → F32.isFinite x = false →
      F32.isNaN (F32.mul (nan32 d) z x) = true ∧ F32.isNaN (F32.mul (nan32 d) x z) = true) ∧
    (F32.isNaN x = true →
      F32.isNaN (F32.add (nan32 d) x y) = true ∧ F32.isNaN (F32.add (nan32 d) y x) = true ∧
      F32.isNaN (F32.sub (nan32 d) x y) = true ∧ F32.isNaN (F32.sub (nan32 d) y x) = true ∧
      F32.isNaN (F32.mul (nan32 d) x y) = true ∧ F32.isNaN (F32.mul (nan32 d) y x) = true)

/-- 20_memory.md R66: the address is what a two's-complement addition of any sufficient width followed by the mask
B - 1 gives. -/
def Obligations.AddressEqualsMaskedSum : Prop :=
  ∀ (s : State) (o : Int) (k w : Nat), s.bufSize = 2 ^ k →
    (s.bufSize : Int) + |o| + s.cursor < 2 ^ (w - 1) →
    (BitVec.ofInt w ((s.cursor : Int) + o) &&& BitVec.ofNat w (s.bufSize - 1)).toNat = bufAddr s o

/-- 20_memory.md R68, 42_frame_datapath.md R201: a word written at offset m is at offset d after (m - d) mod B advances of CURSOR, and a
reflection's previous tap is its write of one frame before. -/
def Obligations.TapsSlideWithCursor : Prop :=
  ∀ (s : State) (m d : Int), 0 < s.bufSize →
    bufAddr { s with
      cursor := (s.cursor + ((m - d) % (s.bufSize : Int)).toNat) % s.bufSize } d = bufAddr s m ∧
    bufAddr { s with cursor := (s.cursor + 1) % s.bufSize } (m - 1) = bufAddr s m

-- whole-machine rules

/-- 10_state.md R25, R27, R21: only CONSTRUCT writes RATE, CAPS_OK, CAP, LIFE and CFGERR, and nothing writes the catalog, the
configuration functions, the ports or the host's queue. -/
def Obligations.OnlyConstructConfigures : Prop :=
  ∀ (i : Instr) (s t : State), exec i s = .next t →
    t.catalog = s.catalog ∧ t.fns = s.fns ∧ t.ports = s.ports ∧ t.pending = s.pending ∧
    (i ≠ .construct ∨ s.life ≠ .unconstructed →
      t.rate = s.rate ∧ t.capsOk = s.capsOk ∧ t.cap = s.cap ∧ t.life = s.life ∧
        t.cfgErr = s.cfgErr)

/-- 10_state.md R22, R23, R28, R30, R31, R32, 70_reset_and_hazards.md R253: who writes DIAG, LASTINV and the preset's registers. ACTIVE, RAW,
SPAN, S, P, B, FI and FN are what they were, unless DERIVE has run, by itself or in SELECT, RUN_BLOCK or
CONSTRUCT; SELECT and RUN_BLOCK leave what DERIVE of a valid new index leaves. DIAG and LASTINV are what they
were, unless SELECT, by itself or in RUN_BLOCK, has met an invalid index, or CONSTRUCT has cleared them. -/
def Obligations.PresetAndDiagnosticWriters : Prop :=
  ∀ (i : Instr) (s t : State), exec i s = .next t →
    (i ∉ [Instr.derive, .select, .construct] → (∀ n, i ≠ .runBlock n) → Claims.SamePreset s t) ∧
    (i = .select ∨ (∃ n, i = .runBlock n) →
      Claims.SamePreset s t ∨
      (s.ports.presetIn ≠ s.active ∧ validPreset s.catalog s.ports.presetIn = true ∧
        ∃ d, exec .derive s = .next d ∧ Claims.SamePreset d t)) ∧
    (i = .construct → Claims.SamePreset s t ∨
      (s.life = .unconstructed ∧ t.life = .ready ∧ t.active = 0#32 ∧ t.raw = s.catalog.first.words)) ∧
    (i ∉ [Instr.select, .construct] → (∀ n, i ≠ .runBlock n) →
      t.diag = s.diag ∧ t.lastInv = s.lastInv) ∧
    (i = .select ∨ (∃ n, i = .runBlock n) →
      (t.diag = s.diag ∧ t.lastInv = s.lastInv) ∨
      (s.ports.presetIn ≠ s.active ∧ validPreset s.catalog s.ports.presetIn = false ∧
        t.diag = BitVec.ofNat 32 (min (s.diag.toNat + 1) (2 ^ 32 - 1)) ∧
        t.lastInv = s.ports.presetIn)) ∧
    (i = .construct → (t.diag = s.diag ∧ t.lastInv = s.lastInv) ∨
      (s.life = .unconstructed ∧ t.life = .ready ∧ t.diag = 0#32 ∧ t.lastInv = 0#32))

/-- 60_exceptions.md R226, R227, R228: FI, FN and RF are sticky: no instruction clears them, a failing CONSTRUCT
among them (R230; log 11), but the CONSTRUCT that makes an instance READY, which sets RF to 0 and FI and FN to
what its derivation finds (10_state.md R49, 40_host_commands.md R121). -/
def Obligations.FaultBitsAreSticky : Prop :=
  ∀ (i : Instr) (s t : State), exec i s = .next t →
    (i ≠ .construct ∨ s.life ≠ .unconstructed ∨ t.life ≠ .ready →
      (s.fi = true → t.fi = true) ∧ (s.fn = true → t.fn = true) ∧ (s.rf = true → t.rf = true)) ∧
    (i = .construct → s.life = .unconstructed → t.life = .ready →
      t.fi = !invariantHolds t.params t.bufSize ∧ t.fn = !allGainsFinite t.params ∧ t.rf = false)

/-- 42_frame_datapath.md R180 items 4 and 5, 60_exceptions.md R238: no micro-step writes STATUS, the parameters, the configuration or the
targets, and none moves the sequencer. -/
def Obligations.MicroStepsKeepStatusAndParameters : Prop :=
  ∀ (i : Instr) (s t : State), isMicroStep i = true → exec i s = .next t →
    s.sameOutsideFrame t ∧ t.ustep = s.ustep ∧ t.status = s.status

/-- 42_frame_datapath.md R199: MIX_L and MIX_R are the only writes to the streams, one element each: an instruction other than
these two and what contains them leaves every sample word. -/
def Obligations.OnlyMixWritesStreams : Prop :=
  ∀ (i : Instr) (s t : State), exec i s = .next t →
    (i ≠ .mixL → i ≠ .mixR → i ≠ .frame → (∀ n, i ≠ .runBlock n) → t.samples = s.samples) ∧
    (i = .mixL → ∀ a, a ≠ s.ports.outL + s.k → memRead t.samples a = memRead s.samples a) ∧
    (i = .mixR → ∀ a, a ≠ s.ports.outR + s.k → memRead t.samples a = memRead s.samples a)

/-- 10_state.md R35: CURSOR stays in [0, B); ADV advances it; a DERIVE, a CLEAR and a RESET set it to 0; no other
operation writes it (SELECT, CONSTRUCT, FRAME and RUN_BLOCK only through these). -/
def Obligations.CursorWriters : Prop :=
  ∀ (i : Instr) (s t : State), exec i s = .next t →
    (0 < s.bufSize → s.cursor < s.bufSize → t.cursor < t.bufSize) ∧
    (i = .adv → t.cursor = (s.cursor + 1) % s.bufSize) ∧
    (i = .derive ∨ i = .clear → t.cursor = 0) ∧
    (i = .reset → s.life = .ready → t.cursor = 0) ∧
    (i = .frame → t.cursor = (s.cursor + 1) % s.bufSize) ∧
    (i = .select ∨ i = .construct → t.cursor = s.cursor ∨ t.cursor = 0) ∧
    (i ∉ [Instr.adv, .derive, .clear, .reset, .select, .construct, .frame] → (∀ n, i ≠ .runBlock n) →
      t.cursor = s.cursor)

/-- 10_state.md R37, R38: the smoothed gains change only in SMOOTH (and FRAME and RUN_BLOCK, which run it) and to +0.0 in
CONSTRUCT and RESET, not in a preset change; the targets change only in LATCH (and RUN_BLOCK) and to
+0.0 in CONSTRUCT, not in RESET. -/
def Obligations.GainAndTargetWriters : Prop :=
  ∀ (i : Instr) (s t : State), exec i s = .next t →
    (i ≠ .smooth → i ≠ .frame → (∀ n, i ≠ .runBlock n) →
      (t.gWet = s.gWet ∧ t.gDry = s.gDry ∧ t.gMaster = s.gMaster) ∨
      ((i = .construct ∨ i = .reset) ∧ t.gWet = 0#32 ∧ t.gDry = 0#32 ∧ t.gMaster = 0#32)) ∧
    (i ≠ .latch → (∀ n, i ≠ .runBlock n) →
      (t.tWet = s.tWet ∧ t.tDry = s.tDry ∧ t.tMaster = s.tMaster) ∨
      (i = .construct ∧ t.tWet = 0#32 ∧ t.tDry = 0#32 ∧ t.tMaster = 0#32))

/-- The invariant holds at reset (10_state.md R48; B = CAP = 1 there is the model's choice, log 3). -/
def Obligations.InvariantAtReset : Prop := State.reset.Inv

/-- Every step keeps the invariant: canonical memories, words at and above B +0.0 (20_memory.md R67), B a power of two
with 1 <= B <= CAP (10_state.md R32), CURSOR in [0, B) (R35), CFGERR in step with LIFE, FI = FN = 0 outside READY
(R48, R50), a READY instance holding a derivation of its active preset (R31), and a legal sequencer (R42). -/
def Obligations.StepKeepsInvariant : Prop :=
  ∀ s t : State, s.Inv → step s = .next t → t.Inv

/-- 60_exceptions.md R230, R231, R238: from every state in IDLE that meets the invariant, whatever commands the host has queued, no
number of steps ever stops, and every command returns to IDLE. -/
def Obligations.HostCommandsNeverStop : Prop :=
  ∀ (s : State) (n : Nat), s.Inv → s.phase = .idle →
    ∃ t, Host.Core.run core n s = .next t ∧ t.Inv ∧ t.phase = .idle
end

