-- ==== Sys2Proof/Laws/State.lean ====
section
/-! SUPPORT. What each update of the state does to each field: one lemma per field per update. -/

namespace Sys2Proof.Machine

variable (s : State)

-- setBuf

@[simp] theorem setBuf_life (o : Int) (v : F32) : (s.setBuf o v).life = s.life := rfl
@[simp] theorem setBuf_fi (o : Int) (v : F32) : (s.setBuf o v).fi = s.fi := rfl
@[simp] theorem setBuf_fn (o : Int) (v : F32) : (s.setBuf o v).fn = s.fn := rfl
@[simp] theorem setBuf_rf (o : Int) (v : F32) : (s.setBuf o v).rf = s.rf := rfl
@[simp] theorem setBuf_cfgErr (o : Int) (v : F32) : (s.setBuf o v).cfgErr = s.cfgErr := rfl
@[simp] theorem setBuf_diag (o : Int) (v : F32) : (s.setBuf o v).diag = s.diag := rfl
@[simp] theorem setBuf_lastInv (o : Int) (v : F32) : (s.setBuf o v).lastInv = s.lastInv := rfl
@[simp] theorem setBuf_rate (o : Int) (v : F32) : (s.setBuf o v).rate = s.rate := rfl
@[simp] theorem setBuf_capsOk (o : Int) (v : F32) : (s.setBuf o v).capsOk = s.capsOk := rfl
@[simp] theorem setBuf_catalog (o : Int) (v : F32) : (s.setBuf o v).catalog = s.catalog := rfl
@[simp] theorem setBuf_cap (o : Int) (v : F32) : (s.setBuf o v).cap = s.cap := rfl
@[simp] theorem setBuf_active (o : Int) (v : F32) : (s.setBuf o v).active = s.active := rfl
@[simp] theorem setBuf_raw (o : Int) (v : F32) : (s.setBuf o v).raw = s.raw := rfl
@[simp] theorem setBuf_span (o : Int) (v : F32) : (s.setBuf o v).span = s.span := rfl
@[simp] theorem setBuf_stretch (o : Int) (v : F32) : (s.setBuf o v).stretch = s.stretch := rfl
@[simp] theorem setBuf_params (o : Int) (v : F32) : (s.setBuf o v).params = s.params := rfl
@[simp] theorem setBuf_bufSize (o : Int) (v : F32) : (s.setBuf o v).bufSize = s.bufSize := rfl
@[simp] theorem setBuf_cursor (o : Int) (v : F32) : (s.setBuf o v).cursor = s.cursor := rfl
@[simp] theorem setBuf_ram (o : Int) (v : F32) : (s.setBuf o v).ram = memWrite s.ram (bufAddr s o) v := rfl
@[simp] theorem setBuf_gWet (o : Int) (v : F32) : (s.setBuf o v).gWet = s.gWet := rfl
@[simp] theorem setBuf_gDry (o : Int) (v : F32) : (s.setBuf o v).gDry = s.gDry := rfl
@[simp] theorem setBuf_gMaster (o : Int) (v : F32) : (s.setBuf o v).gMaster = s.gMaster := rfl
@[simp] theorem setBuf_tWet (o : Int) (v : F32) : (s.setBuf o v).tWet = s.tWet := rfl
@[simp] theorem setBuf_tDry (o : Int) (v : F32) : (s.setBuf o v).tDry = s.tDry := rfl
@[simp] theorem setBuf_tMaster (o : Int) (v : F32) : (s.setBuf o v).tMaster = s.tMaster := rfl
@[simp] theorem setBuf_lin (o : Int) (v : F32) : (s.setBuf o v).lin = s.lin := rfl
@[simp] theorem setBuf_rin (o : Int) (v : F32) : (s.setBuf o v).rin = s.rin := rfl
@[simp] theorem setBuf_lout (o : Int) (v : F32) : (s.setBuf o v).lout = s.lout := rfl
@[simp] theorem setBuf_rout (o : Int) (v : F32) : (s.setBuf o v).rout = s.rout := rfl
@[simp] theorem setBuf_phase (o : Int) (v : F32) : (s.setBuf o v).phase = s.phase := rfl
@[simp] theorem setBuf_bstep (o : Int) (v : F32) : (s.setBuf o v).bstep = s.bstep := rfl
@[simp] theorem setBuf_ustep (o : Int) (v : F32) : (s.setBuf o v).ustep = s.ustep := rfl
@[simp] theorem setBuf_k (o : Int) (v : F32) : (s.setBuf o v).k = s.k := rfl
@[simp] theorem setBuf_nblk (o : Int) (v : F32) : (s.setBuf o v).nblk = s.nblk := rfl
@[simp] theorem setBuf_ports (o : Int) (v : F32) : (s.setBuf o v).ports = s.ports := rfl
@[simp] theorem setBuf_samples (o : Int) (v : F32) : (s.setBuf o v).samples = s.samples := rfl
@[simp] theorem setBuf_pending (o : Int) (v : F32) : (s.setBuf o v).pending = s.pending := rfl
@[simp] theorem setBuf_fns (o : Int) (v : F32) : (s.setBuf o v).fns = s.fns := rfl
@[simp] theorem setBuf_draws (o : Int) (v : F32) : (s.setBuf o v).draws = s.draws := rfl

-- clearRam

@[simp] theorem clearRam_life : (s.clearRam).life = s.life := rfl
@[simp] theorem clearRam_fi : (s.clearRam).fi = s.fi := rfl
@[simp] theorem clearRam_fn : (s.clearRam).fn = s.fn := rfl
@[simp] theorem clearRam_rf : (s.clearRam).rf = s.rf := rfl
@[simp] theorem clearRam_cfgErr : (s.clearRam).cfgErr = s.cfgErr := rfl
@[simp] theorem clearRam_diag : (s.clearRam).diag = s.diag := rfl
@[simp] theorem clearRam_lastInv : (s.clearRam).lastInv = s.lastInv := rfl
@[simp] theorem clearRam_rate : (s.clearRam).rate = s.rate := rfl
@[simp] theorem clearRam_capsOk : (s.clearRam).capsOk = s.capsOk := rfl
@[simp] theorem clearRam_catalog : (s.clearRam).catalog = s.catalog := rfl
@[simp] theorem clearRam_cap : (s.clearRam).cap = s.cap := rfl
@[simp] theorem clearRam_active : (s.clearRam).active = s.active := rfl
@[simp] theorem clearRam_raw : (s.clearRam).raw = s.raw := rfl
@[simp] theorem clearRam_span : (s.clearRam).span = s.span := rfl
@[simp] theorem clearRam_stretch : (s.clearRam).stretch = s.stretch := rfl
@[simp] theorem clearRam_params : (s.clearRam).params = s.params := rfl
@[simp] theorem clearRam_bufSize : (s.clearRam).bufSize = s.bufSize := rfl
@[simp] theorem clearRam_cursor : (s.clearRam).cursor = 0 := rfl
@[simp] theorem clearRam_ram : (s.clearRam).ram = [] := rfl
@[simp] theorem clearRam_gWet : (s.clearRam).gWet = s.gWet := rfl
@[simp] theorem clearRam_gDry : (s.clearRam).gDry = s.gDry := rfl
@[simp] theorem clearRam_gMaster : (s.clearRam).gMaster = s.gMaster := rfl
@[simp] theorem clearRam_tWet : (s.clearRam).tWet = s.tWet := rfl
@[simp] theorem clearRam_tDry : (s.clearRam).tDry = s.tDry := rfl
@[simp] theorem clearRam_tMaster : (s.clearRam).tMaster = s.tMaster := rfl
@[simp] theorem clearRam_lin : (s.clearRam).lin = s.lin := rfl
@[simp] theorem clearRam_rin : (s.clearRam).rin = s.rin := rfl
@[simp] theorem clearRam_lout : (s.clearRam).lout = s.lout := rfl
@[simp] theorem clearRam_rout : (s.clearRam).rout = s.rout := rfl
@[simp] theorem clearRam_phase : (s.clearRam).phase = s.phase := rfl
@[simp] theorem clearRam_bstep : (s.clearRam).bstep = s.bstep := rfl
@[simp] theorem clearRam_ustep : (s.clearRam).ustep = s.ustep := rfl
@[simp] theorem clearRam_k : (s.clearRam).k = s.k := rfl
@[simp] theorem clearRam_nblk : (s.clearRam).nblk = s.nblk := rfl
@[simp] theorem clearRam_ports : (s.clearRam).ports = s.ports := rfl
@[simp] theorem clearRam_samples : (s.clearRam).samples = s.samples := rfl
@[simp] theorem clearRam_pending : (s.clearRam).pending = s.pending := rfl
@[simp] theorem clearRam_fns : (s.clearRam).fns = s.fns := rfl
@[simp] theorem clearRam_draws : (s.clearRam).draws = s.draws := rfl

-- clearWorking

@[simp] theorem clearWorking_life : (s.clearWorking).life = s.life := rfl
@[simp] theorem clearWorking_fi : (s.clearWorking).fi = s.fi := rfl
@[simp] theorem clearWorking_fn : (s.clearWorking).fn = s.fn := rfl
@[simp] theorem clearWorking_rf : (s.clearWorking).rf = s.rf := rfl
@[simp] theorem clearWorking_cfgErr : (s.clearWorking).cfgErr = s.cfgErr := rfl
@[simp] theorem clearWorking_diag : (s.clearWorking).diag = s.diag := rfl
@[simp] theorem clearWorking_lastInv : (s.clearWorking).lastInv = s.lastInv := rfl
@[simp] theorem clearWorking_rate : (s.clearWorking).rate = s.rate := rfl
@[simp] theorem clearWorking_capsOk : (s.clearWorking).capsOk = s.capsOk := rfl
@[simp] theorem clearWorking_catalog : (s.clearWorking).catalog = s.catalog := rfl
@[simp] theorem clearWorking_cap : (s.clearWorking).cap = s.cap := rfl
@[simp] theorem clearWorking_active : (s.clearWorking).active = s.active := rfl
@[simp] theorem clearWorking_raw : (s.clearWorking).raw = s.raw := rfl
@[simp] theorem clearWorking_span : (s.clearWorking).span = s.span := rfl
@[simp] theorem clearWorking_stretch : (s.clearWorking).stretch = s.stretch := rfl
@[simp] theorem clearWorking_params : (s.clearWorking).params = s.params := rfl
@[simp] theorem clearWorking_bufSize : (s.clearWorking).bufSize = s.bufSize := rfl
@[simp] theorem clearWorking_cursor : (s.clearWorking).cursor = s.cursor := rfl
@[simp] theorem clearWorking_ram : (s.clearWorking).ram = s.ram := rfl
@[simp] theorem clearWorking_gWet : (s.clearWorking).gWet = s.gWet := rfl
@[simp] theorem clearWorking_gDry : (s.clearWorking).gDry = s.gDry := rfl
@[simp] theorem clearWorking_gMaster : (s.clearWorking).gMaster = s.gMaster := rfl
@[simp] theorem clearWorking_tWet : (s.clearWorking).tWet = s.tWet := rfl
@[simp] theorem clearWorking_tDry : (s.clearWorking).tDry = s.tDry := rfl
@[simp] theorem clearWorking_tMaster : (s.clearWorking).tMaster = s.tMaster := rfl
@[simp] theorem clearWorking_lin : (s.clearWorking).lin = none := rfl
@[simp] theorem clearWorking_rin : (s.clearWorking).rin = none := rfl
@[simp] theorem clearWorking_lout : (s.clearWorking).lout = none := rfl
@[simp] theorem clearWorking_rout : (s.clearWorking).rout = none := rfl
@[simp] theorem clearWorking_phase : (s.clearWorking).phase = s.phase := rfl
@[simp] theorem clearWorking_bstep : (s.clearWorking).bstep = s.bstep := rfl
@[simp] theorem clearWorking_ustep : (s.clearWorking).ustep = s.ustep := rfl
@[simp] theorem clearWorking_k : (s.clearWorking).k = s.k := rfl
@[simp] theorem clearWorking_nblk : (s.clearWorking).nblk = s.nblk := rfl
@[simp] theorem clearWorking_ports : (s.clearWorking).ports = s.ports := rfl
@[simp] theorem clearWorking_samples : (s.clearWorking).samples = s.samples := rfl
@[simp] theorem clearWorking_pending : (s.clearWorking).pending = s.pending := rfl
@[simp] theorem clearWorking_fns : (s.clearWorking).fns = s.fns := rfl
@[simp] theorem clearWorking_draws : (s.clearWorking).draws = s.draws := rfl

-- drew

@[simp] theorem drew_life (n : Nat) : (s.drew n).life = s.life := rfl
@[simp] theorem drew_fi (n : Nat) : (s.drew n).fi = s.fi := rfl
@[simp] theorem drew_fn (n : Nat) : (s.drew n).fn = s.fn := rfl
@[simp] theorem drew_rf (n : Nat) : (s.drew n).rf = s.rf := rfl
@[simp] theorem drew_cfgErr (n : Nat) : (s.drew n).cfgErr = s.cfgErr := rfl
@[simp] theorem drew_diag (n : Nat) : (s.drew n).diag = s.diag := rfl
@[simp] theorem drew_lastInv (n : Nat) : (s.drew n).lastInv = s.lastInv := rfl
@[simp] theorem drew_rate (n : Nat) : (s.drew n).rate = s.rate := rfl
@[simp] theorem drew_capsOk (n : Nat) : (s.drew n).capsOk = s.capsOk := rfl
@[simp] theorem drew_catalog (n : Nat) : (s.drew n).catalog = s.catalog := rfl
@[simp] theorem drew_cap (n : Nat) : (s.drew n).cap = s.cap := rfl
@[simp] theorem drew_active (n : Nat) : (s.drew n).active = s.active := rfl
@[simp] theorem drew_raw (n : Nat) : (s.drew n).raw = s.raw := rfl
@[simp] theorem drew_span (n : Nat) : (s.drew n).span = s.span := rfl
@[simp] theorem drew_stretch (n : Nat) : (s.drew n).stretch = s.stretch := rfl
@[simp] theorem drew_params (n : Nat) : (s.drew n).params = s.params := rfl
@[simp] theorem drew_bufSize (n : Nat) : (s.drew n).bufSize = s.bufSize := rfl
@[simp] theorem drew_cursor (n : Nat) : (s.drew n).cursor = s.cursor := rfl
@[simp] theorem drew_ram (n : Nat) : (s.drew n).ram = s.ram := rfl
@[simp] theorem drew_gWet (n : Nat) : (s.drew n).gWet = s.gWet := rfl
@[simp] theorem drew_gDry (n : Nat) : (s.drew n).gDry = s.gDry := rfl
@[simp] theorem drew_gMaster (n : Nat) : (s.drew n).gMaster = s.gMaster := rfl
@[simp] theorem drew_tWet (n : Nat) : (s.drew n).tWet = s.tWet := rfl
@[simp] theorem drew_tDry (n : Nat) : (s.drew n).tDry = s.tDry := rfl
@[simp] theorem drew_tMaster (n : Nat) : (s.drew n).tMaster = s.tMaster := rfl
@[simp] theorem drew_lin (n : Nat) : (s.drew n).lin = s.lin := rfl
@[simp] theorem drew_rin (n : Nat) : (s.drew n).rin = s.rin := rfl
@[simp] theorem drew_lout (n : Nat) : (s.drew n).lout = s.lout := rfl
@[simp] theorem drew_rout (n : Nat) : (s.drew n).rout = s.rout := rfl
@[simp] theorem drew_phase (n : Nat) : (s.drew n).phase = s.phase := rfl
@[simp] theorem drew_bstep (n : Nat) : (s.drew n).bstep = s.bstep := rfl
@[simp] theorem drew_ustep (n : Nat) : (s.drew n).ustep = s.ustep := rfl
@[simp] theorem drew_k (n : Nat) : (s.drew n).k = s.k := rfl
@[simp] theorem drew_nblk (n : Nat) : (s.drew n).nblk = s.nblk := rfl
@[simp] theorem drew_ports (n : Nat) : (s.drew n).ports = s.ports := rfl
@[simp] theorem drew_samples (n : Nat) : (s.drew n).samples = s.samples := rfl
@[simp] theorem drew_pending (n : Nat) : (s.drew n).pending = s.pending := rfl
@[simp] theorem drew_fns (n : Nat) : (s.drew n).fns = s.fns := rfl
@[simp] theorem drew_draws (n : Nat) : (s.drew n).draws = s.draws + n := rfl

-- failConstruct

@[simp] theorem failConstruct_life (e : CfgErr) : (s.failConstruct e).life = .failed := rfl
@[simp] theorem failConstruct_fi (e : CfgErr) : (s.failConstruct e).fi = s.fi := rfl
@[simp] theorem failConstruct_fn (e : CfgErr) : (s.failConstruct e).fn = s.fn := rfl
@[simp] theorem failConstruct_rf (e : CfgErr) : (s.failConstruct e).rf = s.rf := rfl
@[simp] theorem failConstruct_cfgErr (e : CfgErr) : (s.failConstruct e).cfgErr = e := rfl
@[simp] theorem failConstruct_diag (e : CfgErr) : (s.failConstruct e).diag = s.diag := rfl
@[simp] theorem failConstruct_lastInv (e : CfgErr) : (s.failConstruct e).lastInv = s.lastInv := rfl
@[simp] theorem failConstruct_rate (e : CfgErr) : (s.failConstruct e).rate = s.rate := rfl
@[simp] theorem failConstruct_capsOk (e : CfgErr) : (s.failConstruct e).capsOk = s.capsOk := rfl
@[simp] theorem failConstruct_catalog (e : CfgErr) : (s.failConstruct e).catalog = s.catalog := rfl
@[simp] theorem failConstruct_cap (e : CfgErr) : (s.failConstruct e).cap = s.cap := rfl
@[simp] theorem failConstruct_active (e : CfgErr) : (s.failConstruct e).active = s.active := rfl
@[simp] theorem failConstruct_raw (e : CfgErr) : (s.failConstruct e).raw = s.raw := rfl
@[simp] theorem failConstruct_span (e : CfgErr) : (s.failConstruct e).span = s.span := rfl
@[simp] theorem failConstruct_stretch (e : CfgErr) : (s.failConstruct e).stretch = s.stretch := rfl
@[simp] theorem failConstruct_params (e : CfgErr) : (s.failConstruct e).params = s.params := rfl
@[simp] theorem failConstruct_bufSize (e : CfgErr) : (s.failConstruct e).bufSize = s.bufSize := rfl
@[simp] theorem failConstruct_cursor (e : CfgErr) : (s.failConstruct e).cursor = s.cursor := rfl
@[simp] theorem failConstruct_ram (e : CfgErr) : (s.failConstruct e).ram = s.ram := rfl
@[simp] theorem failConstruct_gWet (e : CfgErr) : (s.failConstruct e).gWet = s.gWet := rfl
@[simp] theorem failConstruct_gDry (e : CfgErr) : (s.failConstruct e).gDry = s.gDry := rfl
@[simp] theorem failConstruct_gMaster (e : CfgErr) : (s.failConstruct e).gMaster = s.gMaster := rfl
@[simp] theorem failConstruct_tWet (e : CfgErr) : (s.failConstruct e).tWet = s.tWet := rfl
@[simp] theorem failConstruct_tDry (e : CfgErr) : (s.failConstruct e).tDry = s.tDry := rfl
@[simp] theorem failConstruct_tMaster (e : CfgErr) : (s.failConstruct e).tMaster = s.tMaster := rfl
@[simp] theorem failConstruct_lin (e : CfgErr) : (s.failConstruct e).lin = s.lin := rfl
@[simp] theorem failConstruct_rin (e : CfgErr) : (s.failConstruct e).rin = s.rin := rfl
@[simp] theorem failConstruct_lout (e : CfgErr) : (s.failConstruct e).lout = s.lout := rfl
@[simp] theorem failConstruct_rout (e : CfgErr) : (s.failConstruct e).rout = s.rout := rfl
@[simp] theorem failConstruct_phase (e : CfgErr) : (s.failConstruct e).phase = s.phase := rfl
@[simp] theorem failConstruct_bstep (e : CfgErr) : (s.failConstruct e).bstep = s.bstep := rfl
@[simp] theorem failConstruct_ustep (e : CfgErr) : (s.failConstruct e).ustep = s.ustep := rfl
@[simp] theorem failConstruct_k (e : CfgErr) : (s.failConstruct e).k = s.k := rfl
@[simp] theorem failConstruct_nblk (e : CfgErr) : (s.failConstruct e).nblk = s.nblk := rfl
@[simp] theorem failConstruct_ports (e : CfgErr) : (s.failConstruct e).ports = s.ports := rfl
@[simp] theorem failConstruct_samples (e : CfgErr) : (s.failConstruct e).samples = s.samples := rfl
@[simp] theorem failConstruct_pending (e : CfgErr) : (s.failConstruct e).pending = s.pending := rfl
@[simp] theorem failConstruct_fns (e : CfgErr) : (s.failConstruct e).fns = s.fns := rfl
@[simp] theorem failConstruct_draws (e : CfgErr) : (s.failConstruct e).draws = s.draws := rfl

-- refuse

@[simp] theorem refuse_life : (s.refuse).life = s.life := rfl
@[simp] theorem refuse_fi : (s.refuse).fi = s.fi := rfl
@[simp] theorem refuse_fn : (s.refuse).fn = s.fn := rfl
@[simp] theorem refuse_rf : (s.refuse).rf = true := rfl
@[simp] theorem refuse_cfgErr : (s.refuse).cfgErr = s.cfgErr := rfl
@[simp] theorem refuse_diag : (s.refuse).diag = s.diag := rfl
@[simp] theorem refuse_lastInv : (s.refuse).lastInv = s.lastInv := rfl
@[simp] theorem refuse_rate : (s.refuse).rate = s.rate := rfl
@[simp] theorem refuse_capsOk : (s.refuse).capsOk = s.capsOk := rfl
@[simp] theorem refuse_catalog : (s.refuse).catalog = s.catalog := rfl
@[simp] theorem refuse_cap : (s.refuse).cap = s.cap := rfl
@[simp] theorem refuse_active : (s.refuse).active = s.active := rfl
@[simp] theorem refuse_raw : (s.refuse).raw = s.raw := rfl
@[simp] theorem refuse_span : (s.refuse).span = s.span := rfl
@[simp] theorem refuse_stretch : (s.refuse).stretch = s.stretch := rfl
@[simp] theorem refuse_params : (s.refuse).params = s.params := rfl
@[simp] theorem refuse_bufSize : (s.refuse).bufSize = s.bufSize := rfl
@[simp] theorem refuse_cursor : (s.refuse).cursor = s.cursor := rfl
@[simp] theorem refuse_ram : (s.refuse).ram = s.ram := rfl
@[simp] theorem refuse_gWet : (s.refuse).gWet = s.gWet := rfl
@[simp] theorem refuse_gDry : (s.refuse).gDry = s.gDry := rfl
@[simp] theorem refuse_gMaster : (s.refuse).gMaster = s.gMaster := rfl
@[simp] theorem refuse_tWet : (s.refuse).tWet = s.tWet := rfl
@[simp] theorem refuse_tDry : (s.refuse).tDry = s.tDry := rfl
@[simp] theorem refuse_tMaster : (s.refuse).tMaster = s.tMaster := rfl
@[simp] theorem refuse_lin : (s.refuse).lin = s.lin := rfl
@[simp] theorem refuse_rin : (s.refuse).rin = s.rin := rfl
@[simp] theorem refuse_lout : (s.refuse).lout = s.lout := rfl
@[simp] theorem refuse_rout : (s.refuse).rout = s.rout := rfl
@[simp] theorem refuse_phase : (s.refuse).phase = s.phase := rfl
@[simp] theorem refuse_bstep : (s.refuse).bstep = s.bstep := rfl
@[simp] theorem refuse_ustep : (s.refuse).ustep = s.ustep := rfl
@[simp] theorem refuse_k : (s.refuse).k = s.k := rfl
@[simp] theorem refuse_nblk : (s.refuse).nblk = s.nblk := rfl
@[simp] theorem refuse_ports : (s.refuse).ports = s.ports := rfl
@[simp] theorem refuse_samples : (s.refuse).samples = s.samples := rfl
@[simp] theorem refuse_pending : (s.refuse).pending = s.pending := rfl
@[simp] theorem refuse_fns : (s.refuse).fns = s.fns := rfl
@[simp] theorem refuse_draws : (s.refuse).draws = s.draws := rfl

-- startBlock

@[simp] theorem startBlock_life (n : Nat) : (s.startBlock n).life = s.life := rfl
@[simp] theorem startBlock_fi (n : Nat) : (s.startBlock n).fi = s.fi := rfl
@[simp] theorem startBlock_fn (n : Nat) : (s.startBlock n).fn = s.fn := rfl
@[simp] theorem startBlock_rf (n : Nat) : (s.startBlock n).rf = s.rf := rfl
@[simp] theorem startBlock_cfgErr (n : Nat) : (s.startBlock n).cfgErr = s.cfgErr := rfl
@[simp] theorem startBlock_diag (n : Nat) : (s.startBlock n).diag = s.diag := rfl
@[simp] theorem startBlock_lastInv (n : Nat) : (s.startBlock n).lastInv = s.lastInv := rfl
@[simp] theorem startBlock_rate (n : Nat) : (s.startBlock n).rate = s.rate := rfl
@[simp] theorem startBlock_capsOk (n : Nat) : (s.startBlock n).capsOk = s.capsOk := rfl
@[simp] theorem startBlock_catalog (n : Nat) : (s.startBlock n).catalog = s.catalog := rfl
@[simp] theorem startBlock_cap (n : Nat) : (s.startBlock n).cap = s.cap := rfl
@[simp] theorem startBlock_active (n : Nat) : (s.startBlock n).active = s.active := rfl
@[simp] theorem startBlock_raw (n : Nat) : (s.startBlock n).raw = s.raw := rfl
@[simp] theorem startBlock_span (n : Nat) : (s.startBlock n).span = s.span := rfl
@[simp] theorem startBlock_stretch (n : Nat) : (s.startBlock n).stretch = s.stretch := rfl
@[simp] theorem startBlock_params (n : Nat) : (s.startBlock n).params = s.params := rfl
@[simp] theorem startBlock_bufSize (n : Nat) : (s.startBlock n).bufSize = s.bufSize := rfl
@[simp] theorem startBlock_cursor (n : Nat) : (s.startBlock n).cursor = s.cursor := rfl
@[simp] theorem startBlock_ram (n : Nat) : (s.startBlock n).ram = s.ram := rfl
@[simp] theorem startBlock_gWet (n : Nat) : (s.startBlock n).gWet = s.gWet := rfl
@[simp] theorem startBlock_gDry (n : Nat) : (s.startBlock n).gDry = s.gDry := rfl
@[simp] theorem startBlock_gMaster (n : Nat) : (s.startBlock n).gMaster = s.gMaster := rfl
@[simp] theorem startBlock_tWet (n : Nat) : (s.startBlock n).tWet = s.tWet := rfl
@[simp] theorem startBlock_tDry (n : Nat) : (s.startBlock n).tDry = s.tDry := rfl
@[simp] theorem startBlock_tMaster (n : Nat) : (s.startBlock n).tMaster = s.tMaster := rfl
@[simp] theorem startBlock_lin (n : Nat) : (s.startBlock n).lin = s.lin := rfl
@[simp] theorem startBlock_rin (n : Nat) : (s.startBlock n).rin = s.rin := rfl
@[simp] theorem startBlock_lout (n : Nat) : (s.startBlock n).lout = s.lout := rfl
@[simp] theorem startBlock_rout (n : Nat) : (s.startBlock n).rout = s.rout := rfl
@[simp] theorem startBlock_phase (n : Nat) : (s.startBlock n).phase = .block := rfl
@[simp] theorem startBlock_bstep (n : Nat) : (s.startBlock n).bstep = 0x0#4 := rfl
@[simp] theorem startBlock_ustep (n : Nat) : (s.startBlock n).ustep = 0x0#4 := rfl
@[simp] theorem startBlock_k (n : Nat) : (s.startBlock n).k = 0 := rfl
@[simp] theorem startBlock_nblk (n : Nat) : (s.startBlock n).nblk = n := rfl
@[simp] theorem startBlock_ports (n : Nat) : (s.startBlock n).ports = s.ports := rfl
@[simp] theorem startBlock_samples (n : Nat) : (s.startBlock n).samples = s.samples := rfl
@[simp] theorem startBlock_pending (n : Nat) : (s.startBlock n).pending = s.pending := rfl
@[simp] theorem startBlock_fns (n : Nat) : (s.startBlock n).fns = s.fns := rfl
@[simp] theorem startBlock_draws (n : Nat) : (s.startBlock n).draws = s.draws := rfl

-- atBstep

@[simp] theorem atBstep_life (c : BitVec 4) : (s.atBstep c).life = s.life := rfl
@[simp] theorem atBstep_fi (c : BitVec 4) : (s.atBstep c).fi = s.fi := rfl
@[simp] theorem atBstep_fn (c : BitVec 4) : (s.atBstep c).fn = s.fn := rfl
@[simp] theorem atBstep_rf (c : BitVec 4) : (s.atBstep c).rf = s.rf := rfl
@[simp] theorem atBstep_cfgErr (c : BitVec 4) : (s.atBstep c).cfgErr = s.cfgErr := rfl
@[simp] theorem atBstep_diag (c : BitVec 4) : (s.atBstep c).diag = s.diag := rfl
@[simp] theorem atBstep_lastInv (c : BitVec 4) : (s.atBstep c).lastInv = s.lastInv := rfl
@[simp] theorem atBstep_rate (c : BitVec 4) : (s.atBstep c).rate = s.rate := rfl
@[simp] theorem atBstep_capsOk (c : BitVec 4) : (s.atBstep c).capsOk = s.capsOk := rfl
@[simp] theorem atBstep_catalog (c : BitVec 4) : (s.atBstep c).catalog = s.catalog := rfl
@[simp] theorem atBstep_cap (c : BitVec 4) : (s.atBstep c).cap = s.cap := rfl
@[simp] theorem atBstep_active (c : BitVec 4) : (s.atBstep c).active = s.active := rfl
@[simp] theorem atBstep_raw (c : BitVec 4) : (s.atBstep c).raw = s.raw := rfl
@[simp] theorem atBstep_span (c : BitVec 4) : (s.atBstep c).span = s.span := rfl
@[simp] theorem atBstep_stretch (c : BitVec 4) : (s.atBstep c).stretch = s.stretch := rfl
@[simp] theorem atBstep_params (c : BitVec 4) : (s.atBstep c).params = s.params := rfl
@[simp] theorem atBstep_bufSize (c : BitVec 4) : (s.atBstep c).bufSize = s.bufSize := rfl
@[simp] theorem atBstep_cursor (c : BitVec 4) : (s.atBstep c).cursor = s.cursor := rfl
@[simp] theorem atBstep_ram (c : BitVec 4) : (s.atBstep c).ram = s.ram := rfl
@[simp] theorem atBstep_gWet (c : BitVec 4) : (s.atBstep c).gWet = s.gWet := rfl
@[simp] theorem atBstep_gDry (c : BitVec 4) : (s.atBstep c).gDry = s.gDry := rfl
@[simp] theorem atBstep_gMaster (c : BitVec 4) : (s.atBstep c).gMaster = s.gMaster := rfl
@[simp] theorem atBstep_tWet (c : BitVec 4) : (s.atBstep c).tWet = s.tWet := rfl
@[simp] theorem atBstep_tDry (c : BitVec 4) : (s.atBstep c).tDry = s.tDry := rfl
@[simp] theorem atBstep_tMaster (c : BitVec 4) : (s.atBstep c).tMaster = s.tMaster := rfl
@[simp] theorem atBstep_lin (c : BitVec 4) : (s.atBstep c).lin = s.lin := rfl
@[simp] theorem atBstep_rin (c : BitVec 4) : (s.atBstep c).rin = s.rin := rfl
@[simp] theorem atBstep_lout (c : BitVec 4) : (s.atBstep c).lout = s.lout := rfl
@[simp] theorem atBstep_rout (c : BitVec 4) : (s.atBstep c).rout = s.rout := rfl
@[simp] theorem atBstep_phase (c : BitVec 4) : (s.atBstep c).phase = s.phase := rfl
@[simp] theorem atBstep_bstep (c : BitVec 4) : (s.atBstep c).bstep = c := rfl
@[simp] theorem atBstep_ustep (c : BitVec 4) : (s.atBstep c).ustep = s.ustep := rfl
@[simp] theorem atBstep_k (c : BitVec 4) : (s.atBstep c).k = s.k := rfl
@[simp] theorem atBstep_nblk (c : BitVec 4) : (s.atBstep c).nblk = s.nblk := rfl
@[simp] theorem atBstep_ports (c : BitVec 4) : (s.atBstep c).ports = s.ports := rfl
@[simp] theorem atBstep_samples (c : BitVec 4) : (s.atBstep c).samples = s.samples := rfl
@[simp] theorem atBstep_pending (c : BitVec 4) : (s.atBstep c).pending = s.pending := rfl
@[simp] theorem atBstep_fns (c : BitVec 4) : (s.atBstep c).fns = s.fns := rfl
@[simp] theorem atBstep_draws (c : BitVec 4) : (s.atBstep c).draws = s.draws := rfl

-- atUstep

@[simp] theorem atUstep_life (c : BitVec 4) : (s.atUstep c).life = s.life := rfl
@[simp] theorem atUstep_fi (c : BitVec 4) : (s.atUstep c).fi = s.fi := rfl
@[simp] theorem atUstep_fn (c : BitVec 4) : (s.atUstep c).fn = s.fn := rfl
@[simp] theorem atUstep_rf (c : BitVec 4) : (s.atUstep c).rf = s.rf := rfl
@[simp] theorem atUstep_cfgErr (c : BitVec 4) : (s.atUstep c).cfgErr = s.cfgErr := rfl
@[simp] theorem atUstep_diag (c : BitVec 4) : (s.atUstep c).diag = s.diag := rfl
@[simp] theorem atUstep_lastInv (c : BitVec 4) : (s.atUstep c).lastInv = s.lastInv := rfl
@[simp] theorem atUstep_rate (c : BitVec 4) : (s.atUstep c).rate = s.rate := rfl
@[simp] theorem atUstep_capsOk (c : BitVec 4) : (s.atUstep c).capsOk = s.capsOk := rfl
@[simp] theorem atUstep_catalog (c : BitVec 4) : (s.atUstep c).catalog = s.catalog := rfl
@[simp] theorem atUstep_cap (c : BitVec 4) : (s.atUstep c).cap = s.cap := rfl
@[simp] theorem atUstep_active (c : BitVec 4) : (s.atUstep c).active = s.active := rfl
@[simp] theorem atUstep_raw (c : BitVec 4) : (s.atUstep c).raw = s.raw := rfl
@[simp] theorem atUstep_span (c : BitVec 4) : (s.atUstep c).span = s.span := rfl
@[simp] theorem atUstep_stretch (c : BitVec 4) : (s.atUstep c).stretch = s.stretch := rfl
@[simp] theorem atUstep_params (c : BitVec 4) : (s.atUstep c).params = s.params := rfl
@[simp] theorem atUstep_bufSize (c : BitVec 4) : (s.atUstep c).bufSize = s.bufSize := rfl
@[simp] theorem atUstep_cursor (c : BitVec 4) : (s.atUstep c).cursor = s.cursor := rfl
@[simp] theorem atUstep_ram (c : BitVec 4) : (s.atUstep c).ram = s.ram := rfl
@[simp] theorem atUstep_gWet (c : BitVec 4) : (s.atUstep c).gWet = s.gWet := rfl
@[simp] theorem atUstep_gDry (c : BitVec 4) : (s.atUstep c).gDry = s.gDry := rfl
@[simp] theorem atUstep_gMaster (c : BitVec 4) : (s.atUstep c).gMaster = s.gMaster := rfl
@[simp] theorem atUstep_tWet (c : BitVec 4) : (s.atUstep c).tWet = s.tWet := rfl
@[simp] theorem atUstep_tDry (c : BitVec 4) : (s.atUstep c).tDry = s.tDry := rfl
@[simp] theorem atUstep_tMaster (c : BitVec 4) : (s.atUstep c).tMaster = s.tMaster := rfl
@[simp] theorem atUstep_lin (c : BitVec 4) : (s.atUstep c).lin = s.lin := rfl
@[simp] theorem atUstep_rin (c : BitVec 4) : (s.atUstep c).rin = s.rin := rfl
@[simp] theorem atUstep_lout (c : BitVec 4) : (s.atUstep c).lout = s.lout := rfl
@[simp] theorem atUstep_rout (c : BitVec 4) : (s.atUstep c).rout = s.rout := rfl
@[simp] theorem atUstep_phase (c : BitVec 4) : (s.atUstep c).phase = s.phase := rfl
@[simp] theorem atUstep_bstep (c : BitVec 4) : (s.atUstep c).bstep = s.bstep := rfl
@[simp] theorem atUstep_ustep (c : BitVec 4) : (s.atUstep c).ustep = c := rfl
@[simp] theorem atUstep_k (c : BitVec 4) : (s.atUstep c).k = s.k := rfl
@[simp] theorem atUstep_nblk (c : BitVec 4) : (s.atUstep c).nblk = s.nblk := rfl
@[simp] theorem atUstep_ports (c : BitVec 4) : (s.atUstep c).ports = s.ports := rfl
@[simp] theorem atUstep_samples (c : BitVec 4) : (s.atUstep c).samples = s.samples := rfl
@[simp] theorem atUstep_pending (c : BitVec 4) : (s.atUstep c).pending = s.pending := rfl
@[simp] theorem atUstep_fns (c : BitVec 4) : (s.atUstep c).fns = s.fns := rfl
@[simp] theorem atUstep_draws (c : BitVec 4) : (s.atUstep c).draws = s.draws := rfl

-- frameDone

@[simp] theorem frameDone_life : (s.frameDone).life = s.life := rfl
@[simp] theorem frameDone_fi : (s.frameDone).fi = s.fi := rfl
@[simp] theorem frameDone_fn : (s.frameDone).fn = s.fn := rfl
@[simp] theorem frameDone_rf : (s.frameDone).rf = s.rf := rfl
@[simp] theorem frameDone_cfgErr : (s.frameDone).cfgErr = s.cfgErr := rfl
@[simp] theorem frameDone_diag : (s.frameDone).diag = s.diag := rfl
@[simp] theorem frameDone_lastInv : (s.frameDone).lastInv = s.lastInv := rfl
@[simp] theorem frameDone_rate : (s.frameDone).rate = s.rate := rfl
@[simp] theorem frameDone_capsOk : (s.frameDone).capsOk = s.capsOk := rfl
@[simp] theorem frameDone_catalog : (s.frameDone).catalog = s.catalog := rfl
@[simp] theorem frameDone_cap : (s.frameDone).cap = s.cap := rfl
@[simp] theorem frameDone_active : (s.frameDone).active = s.active := rfl
@[simp] theorem frameDone_raw : (s.frameDone).raw = s.raw := rfl
@[simp] theorem frameDone_span : (s.frameDone).span = s.span := rfl
@[simp] theorem frameDone_stretch : (s.frameDone).stretch = s.stretch := rfl
@[simp] theorem frameDone_params : (s.frameDone).params = s.params := rfl
@[simp] theorem frameDone_bufSize : (s.frameDone).bufSize = s.bufSize := rfl
@[simp] theorem frameDone_cursor : (s.frameDone).cursor = s.cursor := rfl
@[simp] theorem frameDone_ram : (s.frameDone).ram = s.ram := rfl
@[simp] theorem frameDone_gWet : (s.frameDone).gWet = s.gWet := rfl
@[simp] theorem frameDone_gDry : (s.frameDone).gDry = s.gDry := rfl
@[simp] theorem frameDone_gMaster : (s.frameDone).gMaster = s.gMaster := rfl
@[simp] theorem frameDone_tWet : (s.frameDone).tWet = s.tWet := rfl
@[simp] theorem frameDone_tDry : (s.frameDone).tDry = s.tDry := rfl
@[simp] theorem frameDone_tMaster : (s.frameDone).tMaster = s.tMaster := rfl
@[simp] theorem frameDone_lin : (s.frameDone).lin = none := rfl
@[simp] theorem frameDone_rin : (s.frameDone).rin = none := rfl
@[simp] theorem frameDone_lout : (s.frameDone).lout = none := rfl
@[simp] theorem frameDone_rout : (s.frameDone).rout = none := rfl
@[simp] theorem frameDone_phase : (s.frameDone).phase = s.phase := rfl
@[simp] theorem frameDone_bstep : (s.frameDone).bstep = s.bstep := rfl
@[simp] theorem frameDone_ustep : (s.frameDone).ustep = 0x0#4 := rfl
@[simp] theorem frameDone_k : (s.frameDone).k = s.k + 1 := rfl
@[simp] theorem frameDone_nblk : (s.frameDone).nblk = s.nblk := rfl
@[simp] theorem frameDone_ports : (s.frameDone).ports = s.ports := rfl
@[simp] theorem frameDone_samples : (s.frameDone).samples = s.samples := rfl
@[simp] theorem frameDone_pending : (s.frameDone).pending = s.pending := rfl
@[simp] theorem frameDone_fns : (s.frameDone).fns = s.fns := rfl
@[simp] theorem frameDone_draws : (s.frameDone).draws = s.draws := rfl

-- startFrames

@[simp] theorem startFrames_life : (s.startFrames).life = s.life := rfl
@[simp] theorem startFrames_fi : (s.startFrames).fi = s.fi := rfl
@[simp] theorem startFrames_fn : (s.startFrames).fn = s.fn := rfl
@[simp] theorem startFrames_rf : (s.startFrames).rf = s.rf := rfl
@[simp] theorem startFrames_cfgErr : (s.startFrames).cfgErr = s.cfgErr := rfl
@[simp] theorem startFrames_diag : (s.startFrames).diag = s.diag := rfl
@[simp] theorem startFrames_lastInv : (s.startFrames).lastInv = s.lastInv := rfl
@[simp] theorem startFrames_rate : (s.startFrames).rate = s.rate := rfl
@[simp] theorem startFrames_capsOk : (s.startFrames).capsOk = s.capsOk := rfl
@[simp] theorem startFrames_catalog : (s.startFrames).catalog = s.catalog := rfl
@[simp] theorem startFrames_cap : (s.startFrames).cap = s.cap := rfl
@[simp] theorem startFrames_active : (s.startFrames).active = s.active := rfl
@[simp] theorem startFrames_raw : (s.startFrames).raw = s.raw := rfl
@[simp] theorem startFrames_span : (s.startFrames).span = s.span := rfl
@[simp] theorem startFrames_stretch : (s.startFrames).stretch = s.stretch := rfl
@[simp] theorem startFrames_params : (s.startFrames).params = s.params := rfl
@[simp] theorem startFrames_bufSize : (s.startFrames).bufSize = s.bufSize := rfl
@[simp] theorem startFrames_cursor : (s.startFrames).cursor = s.cursor := rfl
@[simp] theorem startFrames_ram : (s.startFrames).ram = s.ram := rfl
@[simp] theorem startFrames_gWet : (s.startFrames).gWet = s.gWet := rfl
@[simp] theorem startFrames_gDry : (s.startFrames).gDry = s.gDry := rfl
@[simp] theorem startFrames_gMaster : (s.startFrames).gMaster = s.gMaster := rfl
@[simp] theorem startFrames_tWet : (s.startFrames).tWet = s.tWet := rfl
@[simp] theorem startFrames_tDry : (s.startFrames).tDry = s.tDry := rfl
@[simp] theorem startFrames_tMaster : (s.startFrames).tMaster = s.tMaster := rfl
@[simp] theorem startFrames_lin : (s.startFrames).lin = s.lin := rfl
@[simp] theorem startFrames_rin : (s.startFrames).rin = s.rin := rfl
@[simp] theorem startFrames_lout : (s.startFrames).lout = s.lout := rfl
@[simp] theorem startFrames_rout : (s.startFrames).rout = s.rout := rfl
@[simp] theorem startFrames_phase : (s.startFrames).phase = s.phase := rfl
@[simp] theorem startFrames_bstep : (s.startFrames).bstep = 0x2#4 := rfl
@[simp] theorem startFrames_ustep : (s.startFrames).ustep = 0x0#4 := rfl
@[simp] theorem startFrames_k : (s.startFrames).k = 0 := rfl
@[simp] theorem startFrames_nblk : (s.startFrames).nblk = s.nblk := rfl
@[simp] theorem startFrames_ports : (s.startFrames).ports = s.ports := rfl
@[simp] theorem startFrames_samples : (s.startFrames).samples = s.samples := rfl
@[simp] theorem startFrames_pending : (s.startFrames).pending = s.pending := rfl
@[simp] theorem startFrames_fns : (s.startFrames).fns = s.fns := rfl
@[simp] theorem startFrames_draws : (s.startFrames).draws = s.draws := rfl

-- toIdle

@[simp] theorem toIdle_life : (s.toIdle).life = s.life := rfl
@[simp] theorem toIdle_fi : (s.toIdle).fi = s.fi := rfl
@[simp] theorem toIdle_fn : (s.toIdle).fn = s.fn := rfl
@[simp] theorem toIdle_rf : (s.toIdle).rf = s.rf := rfl
@[simp] theorem toIdle_cfgErr : (s.toIdle).cfgErr = s.cfgErr := rfl
@[simp] theorem toIdle_diag : (s.toIdle).diag = s.diag := rfl
@[simp] theorem toIdle_lastInv : (s.toIdle).lastInv = s.lastInv := rfl
@[simp] theorem toIdle_rate : (s.toIdle).rate = s.rate := rfl
@[simp] theorem toIdle_capsOk : (s.toIdle).capsOk = s.capsOk := rfl
@[simp] theorem toIdle_catalog : (s.toIdle).catalog = s.catalog := rfl
@[simp] theorem toIdle_cap : (s.toIdle).cap = s.cap := rfl
@[simp] theorem toIdle_active : (s.toIdle).active = s.active := rfl
@[simp] theorem toIdle_raw : (s.toIdle).raw = s.raw := rfl
@[simp] theorem toIdle_span : (s.toIdle).span = s.span := rfl
@[simp] theorem toIdle_stretch : (s.toIdle).stretch = s.stretch := rfl
@[simp] theorem toIdle_params : (s.toIdle).params = s.params := rfl
@[simp] theorem toIdle_bufSize : (s.toIdle).bufSize = s.bufSize := rfl
@[simp] theorem toIdle_cursor : (s.toIdle).cursor = s.cursor := rfl
@[simp] theorem toIdle_ram : (s.toIdle).ram = s.ram := rfl
@[simp] theorem toIdle_gWet : (s.toIdle).gWet = s.gWet := rfl
@[simp] theorem toIdle_gDry : (s.toIdle).gDry = s.gDry := rfl
@[simp] theorem toIdle_gMaster : (s.toIdle).gMaster = s.gMaster := rfl
@[simp] theorem toIdle_tWet : (s.toIdle).tWet = s.tWet := rfl
@[simp] theorem toIdle_tDry : (s.toIdle).tDry = s.tDry := rfl
@[simp] theorem toIdle_tMaster : (s.toIdle).tMaster = s.tMaster := rfl
@[simp] theorem toIdle_lin : (s.toIdle).lin = s.lin := rfl
@[simp] theorem toIdle_rin : (s.toIdle).rin = s.rin := rfl
@[simp] theorem toIdle_lout : (s.toIdle).lout = s.lout := rfl
@[simp] theorem toIdle_rout : (s.toIdle).rout = s.rout := rfl
@[simp] theorem toIdle_phase : (s.toIdle).phase = .idle := rfl
@[simp] theorem toIdle_bstep : (s.toIdle).bstep = s.bstep := rfl
@[simp] theorem toIdle_ustep : (s.toIdle).ustep = s.ustep := rfl
@[simp] theorem toIdle_k : (s.toIdle).k = s.k := rfl
@[simp] theorem toIdle_nblk : (s.toIdle).nblk = s.nblk := rfl
@[simp] theorem toIdle_ports : (s.toIdle).ports = s.ports := rfl
@[simp] theorem toIdle_samples : (s.toIdle).samples = s.samples := rfl
@[simp] theorem toIdle_pending : (s.toIdle).pending = s.pending := rfl
@[simp] theorem toIdle_fns : (s.toIdle).fns = s.fns := rfl
@[simp] theorem toIdle_draws : (s.toIdle).draws = s.draws := rfl

-- present

@[simp] theorem present_life (c : HostCommand) (r : List HostCommand) : (s.present c r).life = s.life := rfl
@[simp] theorem present_fi (c : HostCommand) (r : List HostCommand) : (s.present c r).fi = s.fi := rfl
@[simp] theorem present_fn (c : HostCommand) (r : List HostCommand) : (s.present c r).fn = s.fn := rfl
@[simp] theorem present_rf (c : HostCommand) (r : List HostCommand) : (s.present c r).rf = s.rf := rfl
@[simp] theorem present_cfgErr (c : HostCommand) (r : List HostCommand) : (s.present c r).cfgErr = s.cfgErr := rfl
@[simp] theorem present_diag (c : HostCommand) (r : List HostCommand) : (s.present c r).diag = s.diag := rfl
@[simp] theorem present_lastInv (c : HostCommand) (r : List HostCommand) : (s.present c r).lastInv = s.lastInv := rfl
@[simp] theorem present_rate (c : HostCommand) (r : List HostCommand) : (s.present c r).rate = s.rate := rfl
@[simp] theorem present_capsOk (c : HostCommand) (r : List HostCommand) : (s.present c r).capsOk = s.capsOk := rfl
@[simp] theorem present_catalog (c : HostCommand) (r : List HostCommand) : (s.present c r).catalog = s.catalog := rfl
@[simp] theorem present_cap (c : HostCommand) (r : List HostCommand) : (s.present c r).cap = s.cap := rfl
@[simp] theorem present_active (c : HostCommand) (r : List HostCommand) : (s.present c r).active = s.active := rfl
@[simp] theorem present_raw (c : HostCommand) (r : List HostCommand) : (s.present c r).raw = s.raw := rfl
@[simp] theorem present_span (c : HostCommand) (r : List HostCommand) : (s.present c r).span = s.span := rfl
@[simp] theorem present_stretch (c : HostCommand) (r : List HostCommand) : (s.present c r).stretch = s.stretch := rfl
@[simp] theorem present_params (c : HostCommand) (r : List HostCommand) : (s.present c r).params = s.params := rfl
@[simp] theorem present_bufSize (c : HostCommand) (r : List HostCommand) : (s.present c r).bufSize = s.bufSize := rfl
@[simp] theorem present_cursor (c : HostCommand) (r : List HostCommand) : (s.present c r).cursor = s.cursor := rfl
@[simp] theorem present_ram (c : HostCommand) (r : List HostCommand) : (s.present c r).ram = s.ram := rfl
@[simp] theorem present_gWet (c : HostCommand) (r : List HostCommand) : (s.present c r).gWet = s.gWet := rfl
@[simp] theorem present_gDry (c : HostCommand) (r : List HostCommand) : (s.present c r).gDry = s.gDry := rfl
@[simp] theorem present_gMaster (c : HostCommand) (r : List HostCommand) : (s.present c r).gMaster = s.gMaster := rfl
@[simp] theorem present_tWet (c : HostCommand) (r : List HostCommand) : (s.present c r).tWet = s.tWet := rfl
@[simp] theorem present_tDry (c : HostCommand) (r : List HostCommand) : (s.present c r).tDry = s.tDry := rfl
@[simp] theorem present_tMaster (c : HostCommand) (r : List HostCommand) : (s.present c r).tMaster = s.tMaster := rfl
@[simp] theorem present_lin (c : HostCommand) (r : List HostCommand) : (s.present c r).lin = s.lin := rfl
@[simp] theorem present_rin (c : HostCommand) (r : List HostCommand) : (s.present c r).rin = s.rin := rfl
@[simp] theorem present_lout (c : HostCommand) (r : List HostCommand) : (s.present c r).lout = s.lout := rfl
@[simp] theorem present_rout (c : HostCommand) (r : List HostCommand) : (s.present c r).rout = s.rout := rfl
@[simp] theorem present_phase (c : HostCommand) (r : List HostCommand) : (s.present c r).phase = s.phase := rfl
@[simp] theorem present_bstep (c : HostCommand) (r : List HostCommand) : (s.present c r).bstep = s.bstep := rfl
@[simp] theorem present_ustep (c : HostCommand) (r : List HostCommand) : (s.present c r).ustep = s.ustep := rfl
@[simp] theorem present_k (c : HostCommand) (r : List HostCommand) : (s.present c r).k = s.k := rfl
@[simp] theorem present_nblk (c : HostCommand) (r : List HostCommand) : (s.present c r).nblk = s.nblk := rfl
@[simp] theorem present_ports (c : HostCommand) (r : List HostCommand) : (s.present c r).ports = c.ports := rfl
@[simp] theorem present_samples (c : HostCommand) (r : List HostCommand) : (s.present c r).samples = memWriteList (memWriteList s.samples c.ports.inL c.samplesL) c.ports.inR c.samplesR := rfl
@[simp] theorem present_pending (c : HostCommand) (r : List HostCommand) : (s.present c r).pending = r := rfl
@[simp] theorem present_fns (c : HostCommand) (r : List HostCommand) : (s.present c r).fns = s.fns := rfl
@[simp] theorem present_draws (c : HostCommand) (r : List HostCommand) : (s.present c r).draws = s.draws := rfl

-- writeOutL

@[simp] theorem writeOutL_life (v : F32) : (s.writeOutL v).life = s.life := rfl
@[simp] theorem writeOutL_fi (v : F32) : (s.writeOutL v).fi = s.fi := rfl
@[simp] theorem writeOutL_fn (v : F32) : (s.writeOutL v).fn = s.fn := rfl
@[simp] theorem writeOutL_rf (v : F32) : (s.writeOutL v).rf = s.rf := rfl
@[simp] theorem writeOutL_cfgErr (v : F32) : (s.writeOutL v).cfgErr = s.cfgErr := rfl
@[simp] theorem writeOutL_diag (v : F32) : (s.writeOutL v).diag = s.diag := rfl
@[simp] theorem writeOutL_lastInv (v : F32) : (s.writeOutL v).lastInv = s.lastInv := rfl
@[simp] theorem writeOutL_rate (v : F32) : (s.writeOutL v).rate = s.rate := rfl
@[simp] theorem writeOutL_capsOk (v : F32) : (s.writeOutL v).capsOk = s.capsOk := rfl
@[simp] theorem writeOutL_catalog (v : F32) : (s.writeOutL v).catalog = s.catalog := rfl
@[simp] theorem writeOutL_cap (v : F32) : (s.writeOutL v).cap = s.cap := rfl
@[simp] theorem writeOutL_active (v : F32) : (s.writeOutL v).active = s.active := rfl
@[simp] theorem writeOutL_raw (v : F32) : (s.writeOutL v).raw = s.raw := rfl
@[simp] theorem writeOutL_span (v : F32) : (s.writeOutL v).span = s.span := rfl
@[simp] theorem writeOutL_stretch (v : F32) : (s.writeOutL v).stretch = s.stretch := rfl
@[simp] theorem writeOutL_params (v : F32) : (s.writeOutL v).params = s.params := rfl
@[simp] theorem writeOutL_bufSize (v : F32) : (s.writeOutL v).bufSize = s.bufSize := rfl
@[simp] theorem writeOutL_cursor (v : F32) : (s.writeOutL v).cursor = s.cursor := rfl
@[simp] theorem writeOutL_ram (v : F32) : (s.writeOutL v).ram = s.ram := rfl
@[simp] theorem writeOutL_gWet (v : F32) : (s.writeOutL v).gWet = s.gWet := rfl
@[simp] theorem writeOutL_gDry (v : F32) : (s.writeOutL v).gDry = s.gDry := rfl
@[simp] theorem writeOutL_gMaster (v : F32) : (s.writeOutL v).gMaster = s.gMaster := rfl
@[simp] theorem writeOutL_tWet (v : F32) : (s.writeOutL v).tWet = s.tWet := rfl
@[simp] theorem writeOutL_tDry (v : F32) : (s.writeOutL v).tDry = s.tDry := rfl
@[simp] theorem writeOutL_tMaster (v : F32) : (s.writeOutL v).tMaster = s.tMaster := rfl
@[simp] theorem writeOutL_lin (v : F32) : (s.writeOutL v).lin = s.lin := rfl
@[simp] theorem writeOutL_rin (v : F32) : (s.writeOutL v).rin = s.rin := rfl
@[simp] theorem writeOutL_lout (v : F32) : (s.writeOutL v).lout = s.lout := rfl
@[simp] theorem writeOutL_rout (v : F32) : (s.writeOutL v).rout = s.rout := rfl
@[simp] theorem writeOutL_phase (v : F32) : (s.writeOutL v).phase = s.phase := rfl
@[simp] theorem writeOutL_bstep (v : F32) : (s.writeOutL v).bstep = s.bstep := rfl
@[simp] theorem writeOutL_ustep (v : F32) : (s.writeOutL v).ustep = s.ustep := rfl
@[simp] theorem writeOutL_k (v : F32) : (s.writeOutL v).k = s.k := rfl
@[simp] theorem writeOutL_nblk (v : F32) : (s.writeOutL v).nblk = s.nblk := rfl
@[simp] theorem writeOutL_ports (v : F32) : (s.writeOutL v).ports = s.ports := rfl
@[simp] theorem writeOutL_samples (v : F32) : (s.writeOutL v).samples = memWrite s.samples (s.ports.outL + s.k) v := rfl
@[simp] theorem writeOutL_pending (v : F32) : (s.writeOutL v).pending = s.pending := rfl
@[simp] theorem writeOutL_fns (v : F32) : (s.writeOutL v).fns = s.fns := rfl
@[simp] theorem writeOutL_draws (v : F32) : (s.writeOutL v).draws = s.draws := rfl

-- writeOutR

@[simp] theorem writeOutR_life (v : F32) : (s.writeOutR v).life = s.life := rfl
@[simp] theorem writeOutR_fi (v : F32) : (s.writeOutR v).fi = s.fi := rfl
@[simp] theorem writeOutR_fn (v : F32) : (s.writeOutR v).fn = s.fn := rfl
@[simp] theorem writeOutR_rf (v : F32) : (s.writeOutR v).rf = s.rf := rfl
@[simp] theorem writeOutR_cfgErr (v : F32) : (s.writeOutR v).cfgErr = s.cfgErr := rfl
@[simp] theorem writeOutR_diag (v : F32) : (s.writeOutR v).diag = s.diag := rfl
@[simp] theorem writeOutR_lastInv (v : F32) : (s.writeOutR v).lastInv = s.lastInv := rfl
@[simp] theorem writeOutR_rate (v : F32) : (s.writeOutR v).rate = s.rate := rfl
@[simp] theorem writeOutR_capsOk (v : F32) : (s.writeOutR v).capsOk = s.capsOk := rfl
@[simp] theorem writeOutR_catalog (v : F32) : (s.writeOutR v).catalog = s.catalog := rfl
@[simp] theorem writeOutR_cap (v : F32) : (s.writeOutR v).cap = s.cap := rfl
@[simp] theorem writeOutR_active (v : F32) : (s.writeOutR v).active = s.active := rfl
@[simp] theorem writeOutR_raw (v : F32) : (s.writeOutR v).raw = s.raw := rfl
@[simp] theorem writeOutR_span (v : F32) : (s.writeOutR v).span = s.span := rfl
@[simp] theorem writeOutR_stretch (v : F32) : (s.writeOutR v).stretch = s.stretch := rfl
@[simp] theorem writeOutR_params (v : F32) : (s.writeOutR v).params = s.params := rfl
@[simp] theorem writeOutR_bufSize (v : F32) : (s.writeOutR v).bufSize = s.bufSize := rfl
@[simp] theorem writeOutR_cursor (v : F32) : (s.writeOutR v).cursor = s.cursor := rfl
@[simp] theorem writeOutR_ram (v : F32) : (s.writeOutR v).ram = s.ram := rfl
@[simp] theorem writeOutR_gWet (v : F32) : (s.writeOutR v).gWet = s.gWet := rfl
@[simp] theorem writeOutR_gDry (v : F32) : (s.writeOutR v).gDry = s.gDry := rfl
@[simp] theorem writeOutR_gMaster (v : F32) : (s.writeOutR v).gMaster = s.gMaster := rfl
@[simp] theorem writeOutR_tWet (v : F32) : (s.writeOutR v).tWet = s.tWet := rfl
@[simp] theorem writeOutR_tDry (v : F32) : (s.writeOutR v).tDry = s.tDry := rfl
@[simp] theorem writeOutR_tMaster (v : F32) : (s.writeOutR v).tMaster = s.tMaster := rfl
@[simp] theorem writeOutR_lin (v : F32) : (s.writeOutR v).lin = s.lin := rfl
@[simp] theorem writeOutR_rin (v : F32) : (s.writeOutR v).rin = s.rin := rfl
@[simp] theorem writeOutR_lout (v : F32) : (s.writeOutR v).lout = s.lout := rfl
@[simp] theorem writeOutR_rout (v : F32) : (s.writeOutR v).rout = s.rout := rfl
@[simp] theorem writeOutR_phase (v : F32) : (s.writeOutR v).phase = s.phase := rfl
@[simp] theorem writeOutR_bstep (v : F32) : (s.writeOutR v).bstep = s.bstep := rfl
@[simp] theorem writeOutR_ustep (v : F32) : (s.writeOutR v).ustep = s.ustep := rfl
@[simp] theorem writeOutR_k (v : F32) : (s.writeOutR v).k = s.k := rfl
@[simp] theorem writeOutR_nblk (v : F32) : (s.writeOutR v).nblk = s.nblk := rfl
@[simp] theorem writeOutR_ports (v : F32) : (s.writeOutR v).ports = s.ports := rfl
@[simp] theorem writeOutR_samples (v : F32) : (s.writeOutR v).samples = memWrite s.samples (s.ports.outR + s.k) v := rfl
@[simp] theorem writeOutR_pending (v : F32) : (s.writeOutR v).pending = s.pending := rfl
@[simp] theorem writeOutR_fns (v : F32) : (s.writeOutR v).fns = s.fns := rfl
@[simp] theorem writeOutR_draws (v : F32) : (s.writeOutR v).draws = s.draws := rfl

-- install

@[simp] theorem install_life (e : CatalogEntry) : (s.install e).life = s.life := rfl
@[simp] theorem install_fi (e : CatalogEntry) : (s.install e).fi = s.fi := rfl
@[simp] theorem install_fn (e : CatalogEntry) : (s.install e).fn = s.fn := rfl
@[simp] theorem install_rf (e : CatalogEntry) : (s.install e).rf = s.rf := rfl
@[simp] theorem install_cfgErr (e : CatalogEntry) : (s.install e).cfgErr = s.cfgErr := rfl
@[simp] theorem install_diag (e : CatalogEntry) : (s.install e).diag = s.diag := rfl
@[simp] theorem install_lastInv (e : CatalogEntry) : (s.install e).lastInv = s.lastInv := rfl
@[simp] theorem install_rate (e : CatalogEntry) : (s.install e).rate = s.rate := rfl
@[simp] theorem install_capsOk (e : CatalogEntry) : (s.install e).capsOk = s.capsOk := rfl
@[simp] theorem install_catalog (e : CatalogEntry) : (s.install e).catalog = s.catalog := rfl
@[simp] theorem install_cap (e : CatalogEntry) : (s.install e).cap = s.cap := rfl
@[simp] theorem install_active (e : CatalogEntry) : (s.install e).active = s.active := rfl
@[simp] theorem install_raw (e : CatalogEntry) : (s.install e).raw = e.words := rfl
@[simp] theorem install_span (e : CatalogEntry) : (s.install e).span = e.span := rfl
@[simp] theorem install_stretch (e : CatalogEntry) : (s.install e).stretch = stretchOf s.rate := rfl
@[simp] theorem install_params (e : CatalogEntry) : (s.install e).params = deriveParams s.fns.iirConvert e.words s.rate (stretchOf s.rate) := rfl
@[simp] theorem install_bufSize (e : CatalogEntry) : (s.install e).bufSize = bufSizeOf e.span (stretchOf s.rate) := rfl
@[simp] theorem install_cursor (e : CatalogEntry) : (s.install e).cursor = s.cursor := rfl
@[simp] theorem install_ram (e : CatalogEntry) : (s.install e).ram = s.ram := rfl
@[simp] theorem install_gWet (e : CatalogEntry) : (s.install e).gWet = s.gWet := rfl
@[simp] theorem install_gDry (e : CatalogEntry) : (s.install e).gDry = s.gDry := rfl
@[simp] theorem install_gMaster (e : CatalogEntry) : (s.install e).gMaster = s.gMaster := rfl
@[simp] theorem install_tWet (e : CatalogEntry) : (s.install e).tWet = s.tWet := rfl
@[simp] theorem install_tDry (e : CatalogEntry) : (s.install e).tDry = s.tDry := rfl
@[simp] theorem install_tMaster (e : CatalogEntry) : (s.install e).tMaster = s.tMaster := rfl
@[simp] theorem install_lin (e : CatalogEntry) : (s.install e).lin = s.lin := rfl
@[simp] theorem install_rin (e : CatalogEntry) : (s.install e).rin = s.rin := rfl
@[simp] theorem install_lout (e : CatalogEntry) : (s.install e).lout = s.lout := rfl
@[simp] theorem install_rout (e : CatalogEntry) : (s.install e).rout = s.rout := rfl
@[simp] theorem install_phase (e : CatalogEntry) : (s.install e).phase = s.phase := rfl
@[simp] theorem install_bstep (e : CatalogEntry) : (s.install e).bstep = s.bstep := rfl
@[simp] theorem install_ustep (e : CatalogEntry) : (s.install e).ustep = s.ustep := rfl
@[simp] theorem install_k (e : CatalogEntry) : (s.install e).k = s.k := rfl
@[simp] theorem install_nblk (e : CatalogEntry) : (s.install e).nblk = s.nblk := rfl
@[simp] theorem install_ports (e : CatalogEntry) : (s.install e).ports = s.ports := rfl
@[simp] theorem install_samples (e : CatalogEntry) : (s.install e).samples = s.samples := rfl
@[simp] theorem install_pending (e : CatalogEntry) : (s.install e).pending = s.pending := rfl
@[simp] theorem install_fns (e : CatalogEntry) : (s.install e).fns = s.fns := rfl
@[simp] theorem install_draws (e : CatalogEntry) : (s.install e).draws = s.draws := rfl

-- configure

@[simp] theorem configure_life : (s.configure).life = s.life := rfl
@[simp] theorem configure_fi : (s.configure).fi = false := rfl
@[simp] theorem configure_fn : (s.configure).fn = false := rfl
@[simp] theorem configure_rf : (s.configure).rf = false := rfl
@[simp] theorem configure_cfgErr : (s.configure).cfgErr = .none := rfl
@[simp] theorem configure_diag : (s.configure).diag = 0#32 := rfl
@[simp] theorem configure_lastInv : (s.configure).lastInv = 0#32 := rfl
@[simp] theorem configure_rate : (s.configure).rate = s.ports.rate := rfl
@[simp] theorem configure_capsOk : (s.configure).capsOk = true := rfl
@[simp] theorem configure_catalog : (s.configure).catalog = s.catalog := rfl
@[simp] theorem configure_cap : (s.configure).cap = capacityOf s.catalog (stretchOf s.ports.rate) := rfl
@[simp] theorem configure_active : (s.configure).active = s.active := rfl
@[simp] theorem configure_raw : (s.configure).raw = s.raw := rfl
@[simp] theorem configure_span : (s.configure).span = s.span := rfl
@[simp] theorem configure_stretch : (s.configure).stretch = s.stretch := rfl
@[simp] theorem configure_params : (s.configure).params = s.params := rfl
@[simp] theorem configure_bufSize : (s.configure).bufSize = s.bufSize := rfl
@[simp] theorem configure_cursor : (s.configure).cursor = s.cursor := rfl
@[simp] theorem configure_ram : (s.configure).ram = s.ram := rfl
@[simp] theorem configure_gWet : (s.configure).gWet = 0#32 := rfl
@[simp] theorem configure_gDry : (s.configure).gDry = 0#32 := rfl
@[simp] theorem configure_gMaster : (s.configure).gMaster = 0#32 := rfl
@[simp] theorem configure_tWet : (s.configure).tWet = 0#32 := rfl
@[simp] theorem configure_tDry : (s.configure).tDry = 0#32 := rfl
@[simp] theorem configure_tMaster : (s.configure).tMaster = 0#32 := rfl
@[simp] theorem configure_lin : (s.configure).lin = none := rfl
@[simp] theorem configure_rin : (s.configure).rin = none := rfl
@[simp] theorem configure_lout : (s.configure).lout = none := rfl
@[simp] theorem configure_rout : (s.configure).rout = none := rfl
@[simp] theorem configure_phase : (s.configure).phase = s.phase := rfl
@[simp] theorem configure_bstep : (s.configure).bstep = s.bstep := rfl
@[simp] theorem configure_ustep : (s.configure).ustep = s.ustep := rfl
@[simp] theorem configure_k : (s.configure).k = s.k := rfl
@[simp] theorem configure_nblk : (s.configure).nblk = s.nblk := rfl
@[simp] theorem configure_ports : (s.configure).ports = s.ports := rfl
@[simp] theorem configure_samples : (s.configure).samples = s.samples := rfl
@[simp] theorem configure_pending : (s.configure).pending = s.pending := rfl
@[simp] theorem configure_fns : (s.configure).fns = s.fns := rfl
@[simp] theorem configure_draws : (s.configure).draws = s.draws := rfl

-- the two checks of DERIVE

@[simp] theorem checkDerived_life : s.checkDerived.life = s.life := by
  unfold State.checkDerived; split <;> split <;> rfl
@[simp] theorem checkDerived_rf : s.checkDerived.rf = s.rf := by
  unfold State.checkDerived; split <;> split <;> rfl
@[simp] theorem checkDerived_cfgErr : s.checkDerived.cfgErr = s.cfgErr := by
  unfold State.checkDerived; split <;> split <;> rfl
@[simp] theorem checkDerived_diag : s.checkDerived.diag = s.diag := by
  unfold State.checkDerived; split <;> split <;> rfl
@[simp] theorem checkDerived_lastInv : s.checkDerived.lastInv = s.lastInv := by
  unfold State.checkDerived; split <;> split <;> rfl
@[simp] theorem checkDerived_rate : s.checkDerived.rate = s.rate := by
  unfold State.checkDerived; split <;> split <;> rfl
@[simp] theorem checkDerived_capsOk : s.checkDerived.capsOk = s.capsOk := by
  unfold State.checkDerived; split <;> split <;> rfl
@[simp] theorem checkDerived_catalog : s.checkDerived.catalog = s.catalog := by
  unfold State.checkDerived; split <;> split <;> rfl
@[simp] theorem checkDerived_cap : s.checkDerived.cap = s.cap := by
  unfold State.checkDerived; split <;> split <;> rfl
@[simp] theorem checkDerived_active : s.checkDerived.active = s.active := by
  unfold State.checkDerived; split <;> split <;> rfl
@[simp] theorem checkDerived_raw : s.checkDerived.raw = s.raw := by
  unfold State.checkDerived; split <;> split <;> rfl
@[simp] theorem checkDerived_span : s.checkDerived.span = s.span := by
  unfold State.checkDerived; split <;> split <;> rfl
@[simp] theorem checkDerived_stretch : s.checkDerived.stretch = s.stretch := by
  unfold State.checkDerived; split <;> split <;> rfl
@[simp] theorem checkDerived_params : s.checkDerived.params = s.params := by
  unfold State.checkDerived; split <;> split <;> rfl
@[simp] theorem checkDerived_bufSize : s.checkDerived.bufSize = s.bufSize := by
  unfold State.checkDerived; split <;> split <;> rfl
@[simp] theorem checkDerived_cursor : s.checkDerived.cursor = s.cursor := by
  unfold State.checkDerived; split <;> split <;> rfl
@[simp] theorem checkDerived_ram : s.checkDerived.ram = s.ram := by
  unfold State.checkDerived; split <;> split <;> rfl
@[simp] theorem checkDerived_gWet : s.checkDerived.gWet = s.gWet := by
  unfold State.checkDerived; split <;> split <;> rfl
@[simp] theorem checkDerived_gDry : s.checkDerived.gDry = s.gDry := by
  unfold State.checkDerived; split <;> split <;> rfl
@[simp] theorem checkDerived_gMaster : s.checkDerived.gMaster = s.gMaster := by
  unfold State.checkDerived; split <;> split <;> rfl
@[simp] theorem checkDerived_tWet : s.checkDerived.tWet = s.tWet := by
  unfold State.checkDerived; split <;> split <;> rfl
@[simp] theorem checkDerived_tDry : s.checkDerived.tDry = s.tDry := by
  unfold State.checkDerived; split <;> split <;> rfl
@[simp] theorem checkDerived_tMaster : s.checkDerived.tMaster = s.tMaster := by
  unfold State.checkDerived; split <;> split <;> rfl
@[simp] theorem checkDerived_lin : s.checkDerived.lin = s.lin := by
  unfold State.checkDerived; split <;> split <;> rfl
@[simp] theorem checkDerived_rin : s.checkDerived.rin = s.rin := by
  unfold State.checkDerived; split <;> split <;> rfl
@[simp] theorem checkDerived_lout : s.checkDerived.lout = s.lout := by
  unfold State.checkDerived; split <;> split <;> rfl
@[simp] theorem checkDerived_rout : s.checkDerived.rout = s.rout := by
  unfold State.checkDerived; split <;> split <;> rfl
@[simp] theorem checkDerived_phase : s.checkDerived.phase = s.phase := by
  unfold State.checkDerived; split <;> split <;> rfl
@[simp] theorem checkDerived_bstep : s.checkDerived.bstep = s.bstep := by
  unfold State.checkDerived; split <;> split <;> rfl
@[simp] theorem checkDerived_ustep : s.checkDerived.ustep = s.ustep := by
  unfold State.checkDerived; split <;> split <;> rfl
@[simp] theorem checkDerived_k : s.checkDerived.k = s.k := by
  unfold State.checkDerived; split <;> split <;> rfl
@[simp] theorem checkDerived_nblk : s.checkDerived.nblk = s.nblk := by
  unfold State.checkDerived; split <;> split <;> rfl
@[simp] theorem checkDerived_ports : s.checkDerived.ports = s.ports := by
  unfold State.checkDerived; split <;> split <;> rfl
@[simp] theorem checkDerived_samples : s.checkDerived.samples = s.samples := by
  unfold State.checkDerived; split <;> split <;> rfl
@[simp] theorem checkDerived_pending : s.checkDerived.pending = s.pending := by
  unfold State.checkDerived; split <;> split <;> rfl
@[simp] theorem checkDerived_fns : s.checkDerived.fns = s.fns := by
  unfold State.checkDerived; split <;> split <;> rfl
@[simp] theorem checkDerived_draws : s.checkDerived.draws = s.draws := by
  unfold State.checkDerived; split <;> split <;> rfl

@[simp] theorem checkDerived_fi :
    s.checkDerived.fi = (s.fi || !invariantHolds s.params s.bufSize) := by
  unfold State.checkDerived; split <;> split <;> simp_all [State.raise]

@[simp] theorem checkDerived_fn : s.checkDerived.fn = (s.fn || !allGainsFinite s.params) := by
  unfold State.checkDerived; split <;> split <;> simp_all [State.raise]

end Sys2Proof.Machine
end

