-- ==== Sys2Proof/Laws/Memory.lean ====
section
/-! SUPPORT. The word memory: what a read gives after a write (20_memory.md R70, R71), and that every
operation keeps the canonical form. -/

namespace Sys2Proof.Machine

theorem memWfFrom_cons {lo a : Nat} {v : F32} {m : WordMem} :
    memWfFrom lo ((a, v) :: m) = true ↔ lo ≤ a ∧ v ≠ 0#32 ∧ memWfFrom (a + 1) m = true := by
  simp [memWfFrom, and_assoc]

/-- A lower bound may be lowered. -/
theorem memWfFrom_mono {lo hi : Nat} {m : WordMem} (h : memWfFrom hi m = true) (hl : lo ≤ hi) :
    memWfFrom lo m = true := by
  cases m with
  | nil => rfl
  | cons c m =>
    obtain ⟨a, v⟩ := c
    rw [memWfFrom_cons] at h ⊢
    exact ⟨hl.trans h.1, h.2⟩

/-- A canonical memory lists no address below its bound. -/
theorem le_of_mem_of_memWfFrom {lo : Nat} {m : WordMem} (h : memWfFrom lo m = true) :
    ∀ c ∈ m, lo ≤ c.1 := by
  induction m generalizing lo with
  | nil => simp
  | cons c m ih =>
    obtain ⟨a, v⟩ := c
    rw [memWfFrom_cons] at h
    intro c hc
    rcases List.mem_cons.1 hc with rfl | hc
    · exact h.1
    · have := ih h.2.2 c hc
      omega

/-- A word below the bound of a canonical memory is unlisted. -/
theorem memRead_of_lt {lo a : Nat} {m : WordMem} (h : memWfFrom lo m = true) (ha : a < lo) :
    memRead m a = 0#32 := by
  induction m generalizing lo with
  | nil => rfl
  | cons c m ih =>
    obtain ⟨b, v⟩ := c
    rw [memWfFrom_cons] at h
    have hab : a ≠ b := by omega
    simp only [memRead, if_neg hab]
    exact ih h.2.2 (by omega)

theorem memRead_memCons_ne {a b : Nat} {v : F32} {m : WordMem} (h : b ≠ a) :
    memRead (memCons a v m) b = memRead m b := by
  unfold memCons
  split
  · rfl
  · simp [memRead, h]

theorem memRead_memCons_same {a : Nat} {v : F32} {m : WordMem} (h : memWfFrom (a + 1) m = true) :
    memRead (memCons a v m) a = v := by
  unfold memCons
  split
  · rename_i hv
    rw [memRead_of_lt h (Nat.lt_succ_self a), hv]
  · simp [memRead]

theorem memWfFrom_memCons {lo a : Nat} {v : F32} {m : WordMem} (hl : lo ≤ a)
    (h : memWfFrom (a + 1) m = true) : memWfFrom lo (memCons a v m) = true := by
  unfold memCons
  split
  · exact memWfFrom_mono h (by omega)
  · rename_i hv
    exact memWfFrom_cons.2 ⟨hl, hv, h⟩

/-- A write leaves every other word alone. -/
theorem memRead_memWrite_ne {a b : Nat} {v : F32} {m : WordMem} (h : b ≠ a) :
    memRead (memWrite m a v) b = memRead m b := by
  induction m with
  | nil => exact memRead_memCons_ne h
  | cons c m ih =>
    obtain ⟨d, u⟩ := c
    simp only [memWrite]
    split
    · exact memRead_memCons_ne h
    · split
      · rename_i hd
        rw [memRead_memCons_ne h]
        simp [memRead, ← hd, h]
      · simp only [memRead, ih]

/-- A read of the word just written gives the value written. -/
theorem memRead_memWrite_same {lo a : Nat} {v : F32} {m : WordMem} (h : memWfFrom lo m = true) :
    memRead (memWrite m a v) a = v := by
  induction m generalizing lo with
  | nil => exact memRead_memCons_same rfl
  | cons c m ih =>
    obtain ⟨d, u⟩ := c
    have hc := memWfFrom_cons.1 h
    simp only [memWrite]
    split
    · rename_i had
      exact memRead_memCons_same (memWfFrom_cons.2 ⟨had, hc.2⟩)
    · split
      · rename_i had
        exact memRead_memCons_same (had ▸ hc.2.2)
      · rename_i had
        simp only [memRead, if_neg had]
        exact ih hc.2.2

/-- Read after write, on a canonical memory. -/
theorem memRead_memWrite {m : WordMem} (h : memWf m = true) (a b : Nat) (v : F32) :
    memRead (memWrite m a v) b = if b = a then v else memRead m b := by
  split
  · rename_i hb
    rw [hb, memRead_memWrite_same h]
  · rename_i hb
    exact memRead_memWrite_ne hb

theorem memWfFrom_memWrite {lo a : Nat} {v : F32} {m : WordMem} (hl : lo ≤ a)
    (h : memWfFrom lo m = true) : memWfFrom lo (memWrite m a v) = true := by
  induction m generalizing lo with
  | nil => exact memWfFrom_memCons hl rfl
  | cons c m ih =>
    obtain ⟨d, u⟩ := c
    have hc := memWfFrom_cons.1 h
    simp only [memWrite]
    split
    · rename_i had
      exact memWfFrom_memCons hl (memWfFrom_cons.2 ⟨had, hc.2⟩)
    · split
      · rename_i had
        exact memWfFrom_memCons hl (had ▸ hc.2.2)
      · exact memWfFrom_cons.2 ⟨hc.1, hc.2.1, ih (by omega) hc.2.2⟩

/-- A write keeps the canonical form. -/
theorem memWf_memWrite {m : WordMem} (h : memWf m = true) (a : Nat) (v : F32) :
    memWf (memWrite m a v) = true :=
  memWfFrom_memWrite (Nat.zero_le a) h

/-- A write of a list keeps the canonical form. -/
theorem memWf_memWriteList {m : WordMem} (h : memWf m = true) (a : Nat) (vs : List F32) :
    memWf (memWriteList m a vs) = true := by
  induction vs generalizing m a with
  | nil => exact h
  | cons v vs ih => exact ih (memWf_memWrite h a v) (a + 1)

/-- A write lists nothing new but the word written. -/
theorem fst_mem_memWrite {m : WordMem} {a : Nat} {v : F32} :
    ∀ c ∈ memWrite m a v, c.1 = a ∨ c ∈ m := by
  have hcons : ∀ (n : WordMem), ∀ c ∈ memCons a v n, c.1 = a ∨ c ∈ n := by
    intro n c hc
    unfold memCons at hc
    split at hc
    · exact .inr hc
    · rcases List.mem_cons.1 hc with rfl | hc
      · exact .inl rfl
      · exact .inr hc
  induction m with
  | nil => exact hcons []
  | cons d m ih =>
    obtain ⟨b, u⟩ := d
    intro c hc
    simp only [memWrite] at hc
    split at hc
    · exact hcons _ c hc
    · split at hc
      · rcases hcons _ c hc with h | h
        · exact .inl h
        · exact .inr (List.mem_cons_of_mem _ h)
      · rcases List.mem_cons.1 hc with rfl | hc
        · exact .inr (by simp)
        · rcases ih c hc with h | h
          · exact .inl h
          · exact .inr (List.mem_cons_of_mem _ h)

/-- A list write reaches only its own words. -/
theorem memRead_memWriteList_of_outside {m : WordMem} {a b : Nat} {vs : List F32}
    (h : b < a ∨ a + vs.length ≤ b) : memRead (memWriteList m a vs) b = memRead m b := by
  induction vs generalizing m a with
  | nil => rfl
  | cons v vs ih =>
    simp only [List.length_cons] at h
    rw [memWriteList, ih (by omega), memRead_memWrite_ne (by omega)]

/-- The k-th word of a list just written is its k-th element. -/
theorem memRead_memWriteList_of_inside {m : WordMem} (hm : memWf m = true) {a k : Nat}
    {vs : List F32} (h : k < vs.length) : memRead (memWriteList m a vs) (a + k) = vs[k] := by
  induction vs generalizing m a k with
  | nil => simp at h
  | cons v vs ih =>
    cases k with
    | zero =>
      rw [memWriteList, memRead_memWriteList_of_outside (by omega)]
      exact memRead_memWrite_same hm
    | succ k =>
      rw [memWriteList, show a + (k + 1) = a + 1 + k by omega]
      exact ih (memWf_memWrite hm a v) (by simpa using h)

/-- Equal reads make equal canonical memories. -/
theorem memory_ext {m n : WordMem} {lo : Nat} (hm : memWfFrom lo m = true)
    (hn : memWfFrom lo n = true) (h : ∀ a, memRead m a = memRead n a) : m = n := by
  induction m generalizing n lo with
  | nil =>
    cases n with
    | nil => rfl
    | cons c n =>
      obtain ⟨b, v⟩ := c
      have := h b
      simp [memRead] at this
      exact absurd this.symm (memWfFrom_cons.1 hn).2.1
  | cons c m ih =>
    obtain ⟨a, u⟩ := c
    have hc := memWfFrom_cons.1 hm
    cases n with
    | nil =>
      have := h a
      simp [memRead] at this
      exact absurd this hc.2.1
    | cons d n =>
      obtain ⟨b, v⟩ := d
      have hd := memWfFrom_cons.1 hn
      have hab : a = b := by
        rcases Nat.lt_trichotomy a b with hlt | heq | hgt
        · have := h a
          rw [memRead_of_lt (memWfFrom_cons.2 ⟨Nat.le_refl b, hd.2⟩) hlt] at this
          simp [memRead] at this
          exact absurd this hc.2.1
        · exact heq
        · have := h b
          rw [memRead_of_lt (memWfFrom_cons.2 ⟨Nat.le_refl a, hc.2⟩) hgt] at this
          simp [memRead] at this
          exact absurd this.symm hd.2.1
      subst hab
      have huv : u = v := by simpa [memRead] using h a
      subst huv
      have : m = n := ih hc.2.2 hd.2.2 fun x => by
        by_cases hx : x = a
        · subst hx
          rw [memRead_of_lt hc.2.2 (by omega), memRead_of_lt hd.2.2 (by omega)]
        · simpa [memRead, hx] using h x
      rw [this]

end Sys2Proof.Machine
end

