-- ==== Sys2Proof/Laws/Ops.lean ====
section
/-! SUPPORT. What the shared operations answer: the access to the delay RAM (20_memory.md R64, R69), the
working registers (10_state.md R40), admission (40_host_commands.md R120) and the recording of an error
(60_exceptions.md R221). -/

namespace Sys2Proof.Machine

@[simp] theorem andThen_next (s : State) (k : State → Out) : andThen (.next s) k = k s := rfl

/-- A sequence answers a next state exactly when both parts do. -/
theorem andThen_eq_next {o : Out} {k : State → Out} {t : State} :
    andThen o k = .next t ↔ ∃ s, o = .next s ∧ k s = .next t := by
  cases o <;> simp [andThen]

theorem andThen_assoc (o : Out) (f g : State → Out) :
    andThen (andThen o f) g = andThen o fun s => andThen (f s) g := by
  cases o <;> rfl

/-- An address lies in [0, B). -/
theorem bufAddr_lt {s : State} (h : 0 < s.bufSize) (o : Int) : bufAddr s o < s.bufSize := by
  have hb : (0 : Int) < s.bufSize := by exact_mod_cast h
  have h1 := Int.emod_nonneg ((s.cursor : Int) + o) hb.ne'
  have h2 := Int.emod_lt_of_pos ((s.cursor : Int) + o) hb
  unfold bufAddr
  omega

theorem bufAddr_lt_cap {s : State} (h : s.Sized) (o : Int) : bufAddr s o < s.cap :=
  (bufAddr_lt h.pos o).trans_le h.leCap

/-- An address depends on CURSOR and B alone. -/
theorem bufAddr_congr {s t : State} (hc : t.cursor = s.cursor) (hb : t.bufSize = s.bufSize) (o : Int) :
    bufAddr t o = bufAddr s o := by
  unfold bufAddr
  rw [hc, hb]

/-- While 1 <= B <= CAP a read of the delay RAM never faults. -/
theorem withBuf_of_sized {s : State} (h : s.Sized) (o : Int) (k : F32 → Out) :
    withBuf s o k = k (memRead s.ram (bufAddr s o)) := if_pos (bufAddr_lt_cap h o)

/-- While 1 <= B <= CAP a write of the delay RAM never faults. -/
theorem writeBuf_of_sized {s : State} (h : s.Sized) (o : Int) (v : F32) :
    writeBuf s o v = .next (s.setBuf o v) := if_pos (bufAddr_lt_cap h o)

theorem withBuf_eq_next {s t : State} {o : Int} {k : F32 → Out} :
    withBuf s o k = .next t ↔ bufAddr s o < s.cap ∧ k (memRead s.ram (bufAddr s o)) = .next t := by
  unfold withBuf
  split <;> simp_all

theorem writeBuf_eq_next {s t : State} {o : Int} {v : F32} :
    writeBuf s o v = .next t ↔ bufAddr s o < s.cap ∧ t = s.setBuf o v := by
  unfold writeBuf
  split <;> simp_all [eq_comm]

@[simp] theorem withReg_some (x : F32) (k : F32 → Out) : withReg (some x) k = k x := rfl

theorem withReg_eq_next {r : Option F32} {k : F32 → Out} {t : State} :
    withReg r k = .next t ↔ ∃ x, r = some x ∧ k x = .next t := by
  cases r <;> simp [withReg]

/-- STATUS is 0 exactly where its five fields are (R21): an instance before any command (R48). -/
theorem status_eq_zero_iff (s : State) :
    s.status = 0#32 ↔
      s.life = .unconstructed ∧ s.fi = false ∧ s.fn = false ∧ s.rf = false ∧ s.cfgErr = .none := by
  simp only [State.status]
  generalize s.life = l, s.fi = i, s.fn = n, s.rf = r, s.cfgErr = c
  cases l <;> cases i <;> cases n <;> cases r <;> cases c <;> decide

/-- From R48's STATUS = 0 a failed construction leaves R50's three bits. -/
theorem failConstruct_of_status_zero {s : State} (h : s.status = 0#32) (e : CfgErr) :
    s.failConstruct e =
      { s with life := .failed, cfgErr := e, fi := false, fn := false, rf := false } := by
  obtain ⟨-, hi, hn, hr, -⟩ := (status_eq_zero_iff s).mp h
  simp [State.failConstruct, hi, hn, hr]

/-- An admitted command goes on; one that is not either has no move or is refused. -/
theorem whenLife_eq_next {need : Life} {s t : State} {k : Out} :
    whenLife need s k = .next t ↔
      s.phase = .idle ∧ (s.life = need ∧ k = .next t ∨ s.life ≠ need ∧ t = s.refuse) := by
  unfold whenLife
  cases s.phase <;> by_cases h : s.life = need <;> simp [h, eq_comm]

theorem whenLife_of_ready {need : Life} {s : State} {k : Out} (hp : s.phase = .idle)
    (hl : s.life = need) : whenLife need s k = k := by
  simp [whenLife, hp, hl]

/-- Every NaN pattern a free value stands for is a NaN. -/
theorem isNaN_asNaN32 (x : BitVec 32) : F32.isNaN (asNaN32 x) = true := by
  unfold asNaN32
  split
  · assumption
  · have hx : (x ||| 0x7FC00000#32).toNat % 2 ^ 31 = x.toNat % 2 ^ 31 ||| 0x7FC00000 := by
      rw [BitVec.toNat_or, Nat.or_mod_two_pow]
      rfl
    have hge : 0x7FC00000 ≤ x.toNat % 2 ^ 31 ||| 0x7FC00000 := Nat.right_le_or
    have hs : Fmt.b32.signBit = 2 ^ 31 := rfl
    have hi : Fmt.b32.infBits = 0x7F800000 := rfl
    simp only [F32.isNaN, Fmt.isNaN, hs, hi, decide_eq_true_eq, hx]
    omega

theorem isNaN_nan32 (d : Nat) : F32.isNaN (nan32 d) = true := isNaN_asNaN32 _

/-- Every NaN pattern is one that a free value can stand for. -/
theorem asNaN32_of_isNaN {x : F32} (h : F32.isNaN x = true) : asNaN32 x = x := if_pos h

end Sys2Proof.Machine
end

