-- ==== Sys2Proof/Laws/Micro.lean ====
section
/-! SUPPORT. What the shared parts of the micro-steps answer: REFLECT, COMB and APF
(42_frame_datapath.md R182, R187, R190). -/

namespace Sys2Proof.Machine

/-- REFLECT completes while 1 <= B <= CAP. -/
theorem reflect_of_sized {s : State} (h : s.Sized) (x : F32) (far m : Int) :
    reflect x far m s =
      .next ((s.drew 5).setBuf m
        (reflectValue s.draws x (memRead s.ram (bufAddr s far)) (memRead s.ram (bufAddr s (m - 1)))
          s.params.vWALL s.params.vIIR)) := by
  have h' : (s.drew 5).Sized := ⟨h.pos, h.leCap⟩
  simp only [reflect, withBuf_of_sized h, writeBuf_of_sized h']

/-- Where REFLECT answers a next state, it is the one with the value written. -/
theorem reflect_eq_next {s t : State} {x : F32} {far m : Int} (h : reflect x far m s = .next t) :
    bufAddr s m < s.cap ∧
      t = (s.drew 5).setBuf m
        (reflectValue s.draws x (memRead s.ram (bufAddr s far)) (memRead s.ram (bufAddr s (m - 1)))
          s.params.vWALL s.params.vIIR) := by
  obtain ⟨-, h⟩ := withBuf_eq_next.1 h
  obtain ⟨-, h⟩ := withBuf_eq_next.1 h
  exact writeBuf_eq_next.1 h

/-- COMB reads and goes on while 1 <= B <= CAP. -/
theorem comb_of_sized {s : State} (h : s.Sized) (o1 o2 o3 o4 : Int) (k : F32 → Out) :
    comb o1 o2 o3 o4 s k =
      k (combValue s.draws s.params (memRead s.ram (bufAddr s o1)) (memRead s.ram (bufAddr s o2))
        (memRead s.ram (bufAddr s o3)) (memRead s.ram (bufAddr s o4))) := by
  simp only [comb, withBuf_of_sized h]

theorem comb_eq_next {s t : State} {o1 o2 o3 o4 : Int} {k : F32 → Out}
    (h : comb o1 o2 o3 o4 s k = .next t) :
    k (combValue s.draws s.params (memRead s.ram (bufAddr s o1)) (memRead s.ram (bufAddr s o2))
      (memRead s.ram (bufAddr s o3)) (memRead s.ram (bufAddr s o4))) = .next t := by
  obtain ⟨-, h⟩ := withBuf_eq_next.1 h
  obtain ⟨-, h⟩ := withBuf_eq_next.1 h
  obtain ⟨-, h⟩ := withBuf_eq_next.1 h
  exact (withBuf_eq_next.1 h).2

/-- APF completes while 1 <= B <= CAP: it stores, reads again after the store and goes on. -/
theorem apf_of_sized {s : State} (h : s.Sized) (x : F32) (m d : Int) (g : F32)
    (k : F32 → State → Out) :
    apf x m d g s k =
      (let w := apfStored s.draws x g (memRead s.ram (bufAddr s (m - d)))
       let s1 := (s.drew 4).setBuf m w
       k (apfOutput s.draws w g (memRead s1.ram (bufAddr s (m - d)))) s1) := by
  have h' : (s.drew 4).Sized := ⟨h.pos, h.leCap⟩
  have h1 : ∀ v, ((s.drew 4).setBuf m v).Sized := fun _ => ⟨h.pos, h.leCap⟩
  simp only [apf, withBuf_of_sized h, writeBuf_of_sized h', andThen_next, withBuf_of_sized (h1 _)]
  rfl

theorem apf_eq_next {s t : State} {x : F32} {m d : Int} {g : F32} {k : F32 → State → Out}
    (h : apf x m d g s k = .next t) :
    bufAddr s m < s.cap ∧ bufAddr s (m - d) < s.cap ∧
      (let w := apfStored s.draws x g (memRead s.ram (bufAddr s (m - d)))
       let s1 := (s.drew 4).setBuf m w
       k (apfOutput s.draws w g (memRead s1.ram (bufAddr s (m - d)))) s1) = .next t := by
  obtain ⟨h0, h⟩ := withBuf_eq_next.1 h
  obtain ⟨s1, hw, h⟩ := andThen_eq_next.1 h
  obtain ⟨hm, rfl⟩ := writeBuf_eq_next.1 hw
  exact ⟨hm, h0, (withBuf_eq_next.1 h).2⟩

/-- The micro-steps run one after the other. -/
theorem runMicro_cons (c : BitVec 4) (f : State → Out) (rest : List (BitVec 4 × (State → Out)))
    (s : State) : runMicro ((c, f) :: rest) s = andThen (f (s.atUstep c)) (runMicro rest) := rfl

theorem runMicro_append (l r : List (BitVec 4 × (State → Out))) (s : State) :
    runMicro (l ++ r) s = andThen (runMicro l s) (runMicro r) := by
  induction l generalizing s with
  | nil => rfl
  | cons p l ih =>
    obtain ⟨c, f⟩ := p
    simp only [List.cons_append, runMicro_cons, andThen_assoc]
    congr 1
    funext s1
    exact ih s1

/-- What every micro-step of a list keeps, running the list keeps. -/
theorem runMicro_keeps {P : State → Prop} {l : List (BitVec 4 × (State → Out))}
    (hu : ∀ s c, P s → P (s.atUstep c))
    (hl : ∀ p ∈ l, ∀ s t, P s → p.2 s = .next t → P t) :
    ∀ s t, P s → runMicro l s = .next t → P t := by
  induction l with
  | nil =>
    intro s t hs h
    cases h
    exact hs
  | cons p l ih =>
    obtain ⟨c, f⟩ := p
    intro s t hs h
    obtain ⟨s1, h1, h2⟩ := andThen_eq_next.1 h
    exact ih (fun q hq => hl q (List.mem_cons_of_mem _ hq)) s1 t
      (hl (c, f) (by simp) _ s1 (hu s c hs) h1) h2

/-- A FRAME is its micro-steps between two clearings of the working registers (R126, R199). -/
theorem execFrame_eq_next {s t : State} :
    execFrame s = .next t ↔
      ∃ u, runMicro microProgram s.clearWorking = .next u ∧ t = u.clearWorking := by
  rw [execFrame, andThen_eq_next]
  exact ⟨fun ⟨u, h, e⟩ => ⟨u, h, by cases e; rfl⟩, fun ⟨u, h, e⟩ => ⟨u, h, by rw [e]⟩⟩

/-- What every frame keeps, the loop over the frames keeps. -/
theorem runFrames_keeps {P : State → Prop} (hd : ∀ s, P s → P s.frameDone)
    (hf : ∀ s t, P s → execFrame s = .next t → P t) (n : Nat) :
    ∀ s t, P s → runFrames n s = .next t → P t := by
  induction n with
  | zero =>
    intro s t hs h
    cases h
    exact hs
  | succ n ih =>
    intro s t hs h
    obtain ⟨s1, h1, h2⟩ := andThen_eq_next.1 h
    exact ih s1.frameDone t (hd s1 (hf s s1 hs h1)) h2

end Sys2Proof.Machine
end

