-- ==== Sys2Proof/Laws/Deriver.lean ====
section
/-! SUPPORT. What DERIVE answers (41_deriver.md R150) and the arithmetic of the buffer size (R157, R158). -/

namespace Sys2Proof.Machine

/-- DERIVE answers a next state exactly for an index of the catalog. -/
theorem derive_eq_next {p : BitVec 32} {s t : State} :
    derive p s = .next t ↔ ∃ e, catalogEntry? s.catalog p = some e ∧ t = s.deriveEntry p e := by
  unfold derive
  cases catalogEntry? s.catalog p <;> simp [eq_comm]

/-- A valid index names an entry. -/
theorem catalogEntry?_isSome {c : Catalog} {p : BitVec 32} :
    (∃ e, catalogEntry? c p = some e) ↔ validPreset c p = true := by
  unfold catalogEntry?
  constructor
  · rintro ⟨e, h⟩
    by_contra hv
    simp [hv] at h
  · intro hv
    have hlt : p.toInt.toNat < (catalogEntries c).length := by
      simp only [validPreset, Bool.and_eq_true, decide_eq_true_eq] at hv
      simp only [nPresets] at hv
      simp only [catalogEntries, List.length_cons]
      omega
    exact ⟨_, by rw [if_pos hv, List.getElem?_eq_getElem hlt]⟩

/-- An entry found by an index is an entry of the catalog. -/
theorem mem_of_catalogEntry? {c : Catalog} {p : BitVec 32} {e : CatalogEntry}
    (h : catalogEntry? c p = some e) : e ∈ catalogEntries c := by
  unfold catalogEntry? at h
  split at h
  · exact List.mem_of_getElem? h
  · cases h

/-- The first entry is the one at index 0. -/
theorem catalogEntry?_zero (c : Catalog) : catalogEntry? c 0#32 = some c.first := by
  have : validPreset c 0#32 = true := by
    simp [validPreset, nPresets]
  simp [catalogEntry?, this, catalogEntries]

/-- The checks write FI and FN only (R150, R159, R160). -/
theorem checkDerived_eq (w : State) :
    w.checkDerived =
      { w with
        fi := w.fi || !invariantHolds w.params w.bufSize
        fn := w.fn || !allGainsFinite w.params } := by
  unfold State.checkDerived
  cases invariantHolds w.params w.bufSize <;> cases allGainsFinite w.params <;> simp [State.raise]

section deriveEntry

variable (s : State) (p : BitVec 32) (e : CatalogEntry)

/-- DERIVE of an entry, field by field. -/
theorem deriveEntry_eq :
    s.deriveEntry p e =
      { s with
        fi := s.fi || !invariantHolds (s.install e).params (s.install e).bufSize
        fn := s.fn || !allGainsFinite (s.install e).params
        active := p, raw := e.words, span := e.span, stretch := stretchOf s.rate
        params := deriveParams s.fns.iirConvert e.words s.rate (stretchOf s.rate)
        bufSize := bufSizeOf e.span (stretchOf s.rate), cursor := 0, ram := [] } := by
  simp only [State.deriveEntry, checkDerived_eq]
  generalize invariantHolds (s.install e).params (s.install e).bufSize = bi
  generalize allGainsFinite (s.install e).params = bj
  simp only [State.clearRam, State.install]

end deriveEntry

/-- A power of two that is at least `x`, and at most any other. -/
theorem nextPow2_eq_pow (x : Nat) : ∃ k, nextPow2 x = 2 ^ k := by
  unfold nextPow2
  split
  · exact ⟨0, rfl⟩
  · exact ⟨_, rfl⟩

theorem bufSizeOf_eq_pow (span : BitVec 32) (s : F64) : ∃ k, bufSizeOf span s = 2 ^ k := by
  rw [bufSizeOf]
  exact nextPow2_eq_pow _

end Sys2Proof.Machine
end

