-- ==== Sys2Proof/Laws/Float.lean ====
section
/-! SUPPORT. Rounding leaves a representable value alone, and the parts of a pattern come back from it
(00_scope.md R13). -/

namespace Sys2Proof

/-- A format with at least one significand bit and one exponent bit. -/
structure Fmt.Proper (f : Fmt) : Prop where
  prec : 1 ≤ f.prec
  expBits : 1 ≤ f.expBits

theorem Fmt.b32_proper : Fmt.b32.Proper := ⟨by decide, by decide⟩
theorem Fmt.b64_proper : Fmt.b64.Proper := ⟨by decide, by decide⟩

theorem Fmt.b32_one : Fmt.b32.one = 2 ^ 149 := by decide +kernel
theorem Fmt.b64_one : Fmt.b64.one = 2 ^ 1074 := by decide +kernel

/-- A whole quotient is rounded to itself. -/
theorem roundNat_mul (k : Nat) {d : Nat} (hd : 0 < d) : roundNat (k * d) d = k := by
  have h1 : k * d % d = 0 := Nat.mul_mod_left k d
  have h2 : k * d / d = k := Nat.mul_div_cancel k hd
  simp [roundNat, h1, h2]
  omega

/-- The pattern of a representable magnitude is found again: rounding is exact on it. -/
theorem Fmt.roundMag_unitsOf {f : Fmt} (hf : f.Proper) {mag d : Nat} (hm : mag ≤ f.infBits)
    (hd : 0 < d) : Fmt.roundMag f (Fmt.unitsOf f mag * d) d = mag := by
  obtain ⟨p, hp⟩ : ∃ p, f.prec = p + 1 := ⟨f.prec - 1, by have := hf.prec; omega⟩
  have hq : f.prec - 1 = p := by omega
  have hdiv : Fmt.unitsOf f mag * d / d = Fmt.unitsOf f mag := Nat.mul_div_cancel _ hd
  have hmag : 2 ^ p * (mag / 2 ^ p) + mag % 2 ^ p = mag := Nat.div_add_mod mag (2 ^ p)
  have hfrac : mag % 2 ^ p < 2 ^ p := Nat.mod_lt _ (by positivity)
  unfold Fmt.roundMag
  rw [hdiv]
  suffices h : Fmt.ulpExp f (Fmt.unitsOf f mag) * 2 ^ (f.prec - 1) +
      roundNat (Fmt.unitsOf f mag * d) (d * 2 ^ Fmt.ulpExp f (Fmt.unitsOf f mag)) = mag by
    simp only [h]
    omega
  rcases Nat.eq_zero_or_pos (mag / 2 ^ p) with he | he
  · have hu : Fmt.unitsOf f mag = mag % 2 ^ p := by simp [Fmt.unitsOf, hq, he]
    have hlog : Fmt.ulpExp f (Fmt.unitsOf f mag) = 0 := by
      rw [hu, Fmt.ulpExp, hq]
      rcases Nat.eq_zero_or_pos (mag % 2 ^ p) with h0 | h0
      · simp [h0]
      · have := (Nat.log2_lt (by omega)).2 hfrac
        omega
    rw [hlog, hu]
    simp only [pow_zero, mul_one, zero_mul, zero_add]
    rw [roundNat_mul _ hd]
    simpa [he] using hmag
  · obtain ⟨e, he'⟩ : ∃ e, mag / 2 ^ p = e + 1 := ⟨mag / 2 ^ p - 1, by omega⟩
    have hu : Fmt.unitsOf f mag = (2 ^ p + mag % 2 ^ p) * 2 ^ e := by
      simp [Fmt.unitsOf, hq, he']
    have hlo : 2 ^ (p + e) ≤ (2 ^ p + mag % 2 ^ p) * 2 ^ e := by
      rw [pow_add]
      exact Nat.mul_le_mul_right _ (Nat.le_add_right _ _)
    have hhi : (2 ^ p + mag % 2 ^ p) * 2 ^ e < 2 ^ (p + e + 1) := by
      rw [show p + e + 1 = (p + 1) + e by omega, pow_add _ (p + 1)]
      exact Nat.mul_lt_mul_of_pos_right (by rw [pow_succ]; omega) (by positivity)
    have hne : (2 ^ p + mag % 2 ^ p) * 2 ^ e ≠ 0 := by positivity
    have hlog : Fmt.ulpExp f (Fmt.unitsOf f mag) = e := by
      rw [hu, Fmt.ulpExp, hq]
      have h1 := (Nat.le_log2 hne).2 hlo
      have h2 := (Nat.log2_lt hne).2 hhi
      omega
    rw [hlog, hu, hq, show (2 ^ p + mag % 2 ^ p) * 2 ^ e * d = (2 ^ p + mag % 2 ^ p) * (d * 2 ^ e) by
      ring, roundNat_mul _ (by positivity)]
    rw [he'] at hmag
    linarith [show 2 ^ p * (e + 1) = e * 2 ^ p + 2 ^ p by ring]

/-- The magnitude and the sign come back from a pattern. -/
theorem Fmt.withSign_mod {f : Fmt} {neg : Bool} {mag : Nat} (h : mag < f.signBit) :
    Fmt.withSign f neg mag % f.signBit = mag := by
  unfold Fmt.withSign
  split
  · rw [Nat.add_mod_left, Nat.mod_eq_of_lt h]
  · exact Nat.mod_eq_of_lt h

theorem Fmt.signBit_le_withSign {f : Fmt} {neg : Bool} {mag : Nat} (h : mag < f.signBit) :
    decide (f.signBit ≤ Fmt.withSign f neg mag) = neg := by
  unfold Fmt.withSign
  cases neg <;> simp <;> omega

/-- Infinity's magnitude is below the sign bit. -/
theorem Fmt.infBits_lt_signBit {f : Fmt} (hf : f.Proper) : f.infBits < f.signBit := by
  have hp := hf.prec
  have : 0 < 2 ^ (f.prec - 1) := by positivity
  have h2 : 0 < 2 ^ f.expBits := by positivity
  unfold Fmt.infBits Fmt.signBit
  rw [show f.expBits + f.prec - 1 = f.expBits + (f.prec - 1) by omega, pow_add]
  exact Nat.mul_lt_mul_of_pos_right (by omega) this

theorem Fmt.roundMag_le (f : Fmt) (n d : Nat) : Fmt.roundMag f n d ≤ f.infBits := min_le_left _ _

/-- What a packed quotient unpacks to. -/
theorem Fmt.unpack_pack {f : Fmt} (hf : f.Proper) (neg : Bool) (n d : Nat) :
    Fmt.unpack f (Fmt.pack f neg n d) =
      if Fmt.roundMag f n d < f.infBits then .fin neg (Fmt.unitsOf f (Fmt.roundMag f n d))
      else .inf neg := by
  have hlt : Fmt.roundMag f n d < f.signBit :=
    (Fmt.roundMag_le f n d).trans_lt (Fmt.infBits_lt_signBit hf)
  unfold Fmt.unpack Fmt.pack
  simp only [Fmt.withSign_mod hlt, Fmt.signBit_le_withSign hlt]
  have := Fmt.roundMag_le f n d
  split
  · rfl
  · rw [if_pos (by omega)]

/-- A pattern is its sign and its magnitude. -/
theorem Fmt.withSign_of_parts {f : Fmt} {bits : Nat} (h : bits < 2 * f.signBit) :
    Fmt.withSign f (decide (f.signBit ≤ bits)) (bits % f.signBit) = bits := by
  unfold Fmt.withSign
  by_cases hs : f.signBit ≤ bits
  · have : bits % f.signBit = bits - f.signBit := by
      rw [Nat.mod_eq_sub_mod hs, Nat.mod_eq_of_lt (by omega)]
    simp [hs, this]
  · simp [hs, Nat.mod_eq_of_lt (by omega : bits < f.signBit)]

/-- Packing the value of a finite pattern gives the pattern back. -/
theorem Fmt.pack_unpack {f : Fmt} (hf : f.Proper) {bits d : Nat} {neg : Bool} {u : Nat}
    (hb : bits < 2 * f.signBit) (hd : 0 < d) (h : Fmt.unpack f bits = .fin neg u) :
    Fmt.pack f neg (u * d) d = bits := by
  unfold Fmt.unpack at h
  simp only at h
  split at h
  · rename_i hlt
    cases h
    rw [Fmt.pack, Fmt.roundMag_unitsOf hf hlt.le hd]
    exact Fmt.withSign_of_parts hb
  · split at h <;> cases h

end Sys2Proof
end

