-- ==== Sys2Proof/Laws/PerInstr.lean ====
section
/-! SUPPORT. The law TableRow: an instruction's code word has the format of its row in opcode_table.json, and
the row's match under the row's mask. -/

namespace Sys2Proof.Laws.TableRow

/-- A code word is a format H word with `m` under the mask `k`. -/
def isH (k m : BitVec 32) : CodeWord → Prop
  | .h w => w &&& k = m
  | .i _ | .u _ => False

/-- The rows of opcode_table.json, in its order. -/
def Statement : Instr → Prop
  | .construct => isH 0xFFFFFFFF#32 0x01000000#32 (encode .construct)
  | .reset => isH 0xFFFFFFFF#32 0x02000000#32 (encode .reset)
  | .runBlock n => isH 0xFF000000#32 0x03000000#32 (encode (.runBlock n))
  | .select => encode .select = .i 0x0#4
  | .latch => encode .latch = .i 0x1#4
  | .frame => encode .frame = .i 0x2#4
  | .derive => encode .derive = .i 0x3#4
  | .clear => encode .clear = .i 0x4#4
  | .input => encode .input = .u 0x0#4
  | .sameL => encode .sameL = .u 0x1#4
  | .sameR => encode .sameR = .u 0x2#4
  | .diffL => encode .diffL = .u 0x3#4
  | .diffR => encode .diffR = .u 0x4#4
  | .combL => encode .combL = .u 0x5#4
  | .combR => encode .combR = .u 0x6#4
  | .apf1L => encode .apf1L = .u 0x7#4
  | .apf1R => encode .apf1R = .u 0x8#4
  | .apf2L => encode .apf2L = .u 0x9#4
  | .apf2R => encode .apf2R = .u 0xA#4
  | .adv => encode .adv = .u 0xB#4
  | .smooth => encode .smooth = .u 0xC#4
  | .mixL => encode .mixL = .u 0xD#4
  | .mixR => encode .mixR = .u 0xE#4

theorem construct : Statement .construct := by
  show (_ : BitVec 32) &&& _ = _
  decide

theorem reset : Statement .reset := by
  show (_ : BitVec 32) &&& _ = _
  decide

theorem runBlock (n : BitVec 24) : Statement (.runBlock n) := by
  show (0x03#8 ++ n) &&& 0xFF000000#32 = 0x03000000#32
  have hk : 0xFF000000#32 = 0xFF#8 ++ 0x000000#24 := rfl
  rw [hk, BitVec.and_append, BitVec.and_zero]
  rfl

theorem select : Statement .select := rfl

theorem latch : Statement .latch := rfl

theorem frame : Statement .frame := rfl

theorem derive : Statement .derive := rfl

theorem clear : Statement .clear := rfl

theorem input : Statement .input := rfl

theorem sameL : Statement .sameL := rfl

theorem sameR : Statement .sameR := rfl

theorem diffL : Statement .diffL := rfl

theorem diffR : Statement .diffR := rfl

theorem combL : Statement .combL := rfl

theorem combR : Statement .combR := rfl

theorem apf1L : Statement .apf1L := rfl

theorem apf1R : Statement .apf1R := rfl

theorem apf2L : Statement .apf2L := rfl

theorem apf2R : Statement .apf2R := rfl

theorem adv : Statement .adv := rfl

theorem smooth : Statement .smooth := rfl

theorem mixL : Statement .mixL := rfl

theorem mixR : Statement .mixR := rfl

end Sys2Proof.Laws.TableRow
end

