-- ==== Sys2Proof/Laws/Step.lean ====
section
/-! SUPPORT. What one step can do (20_memory.md R83, 10_state.md R43). -/

namespace Sys2Proof.Machine

/-- Everything a step that answers a next state can have been. -/
theorem step_eq_next {s t : State} (h : step s = .next t) :
    (s.phase = .idle ∧ s.pending = [] ∧ t = s) ∨
    (s.phase = .idle ∧ ∃ c rest, s.pending = c :: rest ∧
      ((∃ i, decode (.h c.word) = .ok i ∧ exec i (s.present c rest) = .next t) ∨
       (∃ e, decode (.h c.word) = .error e ∧ t = (s.present c rest).refuse))) ∨
    (s.phase = .block ∧ ∃ i s1 s2, s.fetch = .internal i s1 ∧ exec i s1 = .next s2 ∧
      t = s2.advance) := by
  unfold step at h
  cases hp : s.phase with
  | idle =>
    cases hq : s.pending with
    | nil =>
      simp only [State.fetch, hp, hq] at h
      cases h
      exact .inl ⟨rfl, rfl, rfl⟩
    | cons c rest =>
      refine .inr (.inl ⟨rfl, c, rest, rfl, ?_⟩)
      cases hd : decode (.h c.word) with
      | ok i =>
        simp only [State.fetch, hp, hq, hd] at h
        exact .inl ⟨i, rfl, h⟩
      | error e =>
        simp only [State.fetch, hp, hq, hd] at h
        cases h
        exact .inr ⟨e, rfl, rfl⟩
  | block =>
    refine .inr (.inr ⟨rfl, ?_⟩)
    have hi : (∃ i s1, s.fetch = .internal i s1) ∨ s.fetch = .reserved := by
      simp only [State.fetch, hp]
      split
      · split
        · exact .inl ⟨_, _, rfl⟩
        · exact .inr rfl
      · split
        · exact .inl ⟨_, _, rfl⟩
        · exact .inr rfl
    rcases hi with ⟨i, s1, hf⟩ | hf
    · rw [hf] at h
      obtain ⟨s2, h2, h3⟩ := andThen_eq_next.1 h
      cases h3
      exact ⟨i, s1, s2, hf, h2, rfl⟩
    · rw [hf] at h
      cases h

/-- In PHASE = BLOCK the sequencer runs what its codes decode to (10_state.md R42, R43). -/
theorem fetch_block {s : State} (hp : s.phase = .block) {i : Instr} {s1 : State}
    (h : s.fetch = .internal i s1) :
    (s.bstep = 0x2#4 ∧ decode (.u s.ustep) = .ok i ∧
      s1 = if s.ustep = 0x0#4 then s.clearWorking else s) ∨
    (s.bstep ≠ 0x2#4 ∧ decode (.i s.bstep) = .ok i ∧ s1 = s) := by
  simp only [State.fetch, hp] at h
  split at h
  · split at h
    · cases h
      exact .inl ⟨by assumption, by assumption, rfl⟩
    · cases h
  · split at h
    · cases h
      exact .inr ⟨by assumption, by assumption, rfl⟩
    · cases h

end Sys2Proof.Machine
end

