-- ==== Sys2Proof/Tests/Slice0.lean ====
section
/-! SUPPORT. The model's own tests: what WellFormed refuses, words written out from 30_encoding.md, vectors of
95_test_vectors.md (their numbers stand beside them), and a witness for the hypotheses of every
obligation. Binary64 arithmetic is evaluated by the kernel (`decide +kernel`). -/

namespace Sys2Proof.Tests

set_option Elab.async false

open Sys2Proof Sys2Proof.Machine

-- helpers

/-- The outcome is a next state that meets `p`. -/
def sat (o : Out) (p : State → Bool) : Bool :=
  match o with
  | .next t => p t
  | .fault _ | .refused _ => false

theorem exists_of_sat {o : Out} {p : State → Bool} (h : sat o p = true) :
    ∃ t, o = .next t ∧ p t = true := by
  cases o with
  | next t => exact ⟨t, rfl, h⟩
  | fault r => cases h
  | refused r => cases h

/-- The outcome is the fault `f`. -/
def faults (o : Out) (f : Fault) : Bool :=
  match o with
  | .next _ | .refused _ => false
  | .fault r => r == f

/-- TP0 of 95_test_vectors.md T0. -/
def tp0 : CatalogEntry :=
  { words := #v[0x0001#16, 0x0001#16, 0x4000#16, 0x4000#16, 0x2000#16, 0#16, 0#16, 0x2000#16,
      0x4000#16, 0xC000#16, 0x0002#16, 0x000A#16, 0x0001#16, 0x0009#16, 0x0000#16, 0x0008#16,
      0x0001#16, 0x0009#16, 0x0003#16, 0x000B#16, 0#16, 0#16, 0#16, 0#16, 0x0001#16, 0x0009#16,
      0x0005#16, 0x000D#16, 0x0007#16, 0x000F#16, 0x4000#16, 0x4000#16]
    span := 128#32 }

/-- TP1 of T0. -/
def tp1 : CatalogEntry :=
  { words := #v[0#16, 0#16, 0x7FFF#16, 0x7FFF#16, 0#16, 0#16, 0#16, 0#16, 0x4000#16, 0x4000#16,
      1#16, 1#16, 1#16, 1#16, 0#16, 0#16, 0#16, 0#16, 0#16, 0#16, 0#16, 0#16, 0#16, 0#16, 0#16,
      0#16, 2#16, 3#16, 2#16, 3#16, 0x8000#16, 0x7FFF#16]
    span := 64#32 }

def catalog : Catalog := { first := tp0, rest := [tp1] }

/-- Before CONSTRUCT, with T0's catalog and a rate and a capability bit at the ports. -/
def unbuilt (rate : F64) (caps : Bool) : State :=
  { State.reset with catalog := catalog, ports := { Ports.zero with rate := rate, capsOk := caps } }

/-- The table of vector V-D1. -/
def paramsTP0 : Params :=
  { dAPF1 := 4, dAPF2 := 4, mLSAME := 8, mRSAME := 40, mLCOMB1 := 4, mRCOMB1 := 36, mLCOMB2 := 0
    mRCOMB2 := 32, mLCOMB3 := 0, mRCOMB3 := 0, mLCOMB4 := 0, mRCOMB4 := 0, dLSAME := 4, dRSAME := 36
    mLDIFF := 12, mRDIFF := 44, dLDIFF := 4, dRDIFF := 36, mLAPF1 := 20, mRAPF1 := 52, mLAPF2 := 28
    mRAPF2 := 60, vIIR := 0x3F000000#32, vWALL := 0x3E800000#32, vCOMB1 := 0x3F000000#32
    vCOMB2 := 0x3E800000#32, vCOMB3 := 0#32, vCOMB4 := 0#32, vAPF1 := 0x3F000000#32
    vAPF2 := 0xBF000000#32, vLIN := 0x3F000000#32, vRIN := 0x3F000000#32 }

/-- The state after the CONSTRUCT of vector C-1 (10_state.md R49). -/
def built : State :=
  { unbuilt Config.nativeRate true with
    life := .ready, rate := Config.nativeRate, capsOk := true, cap := 64, raw := tp0.words
    span := 128#32, stretch := 0x3FF0000000000000#64, params := paramsTP0, bufSize := 64
    lin := none, rin := none, lout := none, rout := none }

/-- `built`, with a preset index at the port and disjoint streams, 2^24 words apart. -/
def atPorts (p : BitVec 32) : State :=
  { built with
    ports := { Ports.zero with presetIn := p, inR := 2 ^ 24, outL := 2 ^ 25, outR := 2 ^ 26 } }

/-- `atPorts`, with the outputs in place of the inputs. -/
def inPlace : State :=
  { built with ports := { Ports.zero with inR := 2 ^ 24, outL := 0, outR := 2 ^ 24 } }

/-- A small engine: B = CAP = 64, CURSOR = 0, with parameters, RAM words and working registers. -/
def mini (p : Params) (ram : WordMem) (x : F32) : State :=
  { State.reset with
    cap := 64, bufSize := 64, params := p, ram := ram
    lin := some x, rin := some x, lout := some x, rout := some x }

/-- A block in progress on `built`, one frame of one, at the given codes. -/
def inBlock (bstep ustep : BitVec 4) : State :=
  { built with phase := .block, bstep := bstep, ustep := ustep, k := 0, nblk := 1 }

/-- A command with nothing but its word. -/
def bare (w : BitVec 32) : HostCommand := { word := w, ports := Ports.zero, samplesL := [], samplesR := [] }

-- well-formedness: what it refuses

theorem test_runBlock_of_zero_is_refused : (Instr.runBlock 0#24).wf = false := by decide
theorem test_runBlock_of_one_is_wf : (Instr.runBlock 1#24).wf = true := by decide
theorem test_command_with_a_missing_sample_is_refused :
    HostCommand.wf { bare 0x03000001#32 with samplesL := [0#32] } = false := by decide
theorem test_reset_with_a_sample_is_refused :
    HostCommand.wf { bare 0x02000000#32 with samplesR := [0#32] } = false := by decide
theorem test_line_of_zero_frames_is_refused :
    (AsmLine.silence 0 0 asmZero asmZero asmZero).wf = false := by decide
theorem test_line_past_blockMax_is_refused :
    (AsmLine.impulseL 16777216 asmZero 0 asmZero asmZero asmZero).wf = false ∧
    (AsmLine.impulseR 16777216 asmZero 0 asmZero asmZero asmZero).wf = false := by decide
theorem test_line_with_a_wide_preset_is_refused :
    (AsmLine.silence 1 2147483648 asmZero asmZero asmZero).wf = false ∧
    (AsmLine.silence 1 (-2147483649) asmZero asmZero asmZero).wf = false := by decide
theorem test_line_with_a_missing_sample_is_refused :
    (AsmLine.runBlock 1 0 asmZero asmZero asmZero [] [asmZero]).wf = false ∧
    (AsmLine.runBlock 1 0 asmZero asmZero asmZero [asmZero] []).wf = false := by decide

-- assembly

/-- P3's first two lines (95_test_vectors.md T3), and T2.5's -90.0001, as patterns. -/
theorem test_assemble :
    (assemble (.construct false 220500 1 none)).ports.rate = 0x40D5888000000000#64 ∧
    (assemble (.construct false 220500 1 none)).ports.capsOk = true ∧
    (assemble (.runBlock 1 (-1) asmZero (.dec true 90 0) asmZero [.dec false 25 2] [asmZero])).word =
      0x03000001#32 ∧
    (assemble (.runBlock 1 (-1) asmZero (.dec true 90 0) asmZero [.dec false 25 2] [asmZero])).ports.dryDb =
      0xC2B40000#32 ∧
    (assemble (.runBlock 1 (-1) asmZero (.dec true 90 0) asmZero [.dec false 25 2] [asmZero])).samplesL =
      [0x3E800000#32] ∧
    asmNum (.dec true 900001 4) = 0xC2B4000D#32 := by decide +kernel

-- decoding: words from 30_encoding.md R92, R94, R95 and vectors H-1 to H-11

theorem test_decode_construct :
    decode (.h 0b00000001000000000000000000000000#32) = .ok .construct := by decide
theorem test_decode_reset : decode (.h 0b00000010000000000000000000000000#32) = .ok .reset := by decide
theorem test_decode_runBlock :
    decode (.h 0b00000011000000000000000000000110#32) = .ok (.runBlock 6#24) ∧
    decode (.h 0b00000011111111111111111111111111#32) = .ok (.runBlock 16777215#24) := by decide
theorem test_decode_refused :
    [0x01000001#32, 0x02800000#32, 0x03000000#32, 0x00000000#32, 0x04000000#32, 0xFF123456#32].all
      (fun w => match decode (.h w) with | .ok _ => false | .error _ => true) = true := by decide
theorem test_decode_block_codes :
    [0b0000#4, 0b0001#4, 0b0010#4, 0b0011#4, 0b0100#4].map (fun c => decode (.i c)) =
      [.ok .select, .ok .latch, .ok .frame, .ok .derive, .ok .clear] := by rfl
theorem test_decode_micro_codes_low :
    [0b0000#4, 0b0001#4, 0b0010#4, 0b0011#4, 0b0100#4, 0b0101#4, 0b0110#4].map
      (fun c => decode (.u c)) =
      [.ok .input, .ok .sameL, .ok .sameR, .ok .diffL, .ok .diffR, .ok .combL, .ok .combR] := by rfl
theorem test_decode_micro_codes_high :
    [0b0111#4, 0b1000#4, 0b1001#4, 0b1010#4, 0b1011#4, 0b1100#4, 0b1101#4, 0b1110#4].map
      (fun c => decode (.u c)) =
      [.ok .apf1L, .ok .apf1R, .ok .apf2L, .ok .apf2R, .ok .adv, .ok .smooth, .ok .mixL,
       .ok .mixR] := by rfl
theorem test_decode_reserved_codes :
    decode (.i 0b0101#4) = .error .reservedBlockCode ∧
    decode (.i 0b1111#4) = .error .reservedBlockCode ∧
    decode (.u 0b1111#4) = .error .reservedMicroCode := by decide
theorem test_decode_table_words :
    decodeTableWord 32 0x01000000 = some .construct ∧ decodeTableWord 32 0x03000000 = none ∧
    decodeTableWord 8 0xE = some .mixR ∧ decodeTableWord 8 0xF = none := by decide

-- vectors

/-- C-1, V-D1 and R49: the whole state. -/
theorem test_construct_ready :
    sat (exec .construct (unbuilt Config.nativeRate true)) (fun t =>
      t == built && t.status == 0x00000001#32) = true := by decide +kernel

/-- C-10 and C-8. -/
theorem test_construct_failed :
    sat (exec .construct (unbuilt 0x4270000000000000#64 true)) (fun t => t.status == 0x00000302#32) &&
    sat (exec .construct (unbuilt 0x7FF8000000000000#64 false)) (fun t => t.status == 0x00000102#32)
      = true := by decide +kernel

/-- R121 up to its stop, R228 and R230: RF, set by a refused command before, stays (log 11). -/
theorem test_construct_fails_after_refusal :
    sat (exec .construct { unbuilt 0x3FF0000000000000#64 true with rf := true })
      (fun t => t.status == 0x00000112#32) = true := by decide +kernel

/-- R-1: what RESET clears and what it keeps. -/
theorem test_reset_clears :
    sat (exec .reset { built with ram := [(8, 1#32)], cursor := 6, gWet := 1#32, tWet := 1#32 })
      (fun t => t.ram == [] && t.cursor == 0 && t.gWet == 0#32 && t.tWet == 1#32 &&
        t.status == 0x00000001#32) = true := by decide +kernel

/-- P1's frame 0, as a block of one frame. -/
theorem test_runBlock_impulse :
    sat (exec (.runBlock 1#24) { atPorts 0#32 with samples := [(0, 0x3F800000#32)] }) (fun t =>
      memRead t.samples (2 ^ 25) == 0x350637BE#32 && memRead t.samples (2 ^ 26) == 0#32 &&
      memRead t.ram 8 == 0x3E800000#32 && memRead t.ram 12 == 0x3E800000#32 && t.cursor == 1) = true := by
  decide +kernel

/-- E-4, P3's block 1: DIAG, LASTINV, and the block runs with the old parameters. -/
theorem test_runBlock_invalid_preset :
    sat (exec (.runBlock 1#24) { atPorts 7#32 with samples := [(0, 0x3E800000#32)] }) (fun t =>
      t.diag == 1#32 && t.lastInv == 7#32 && t.active == 0#32 && memRead t.ram 8 == 0x3D800000#32)
      = true := by decide +kernel

/-- S-2: V-D4. -/
theorem test_select_switches :
    sat (exec .select (atPorts 1#32)) (fun t =>
      t.active == 1#32 && t.bufSize == 32 && t.params.mRAPF2 == 12 && t.params.vLIN == 0xBF800000#32)
      = true := by decide +kernel

/-- S-6 and S-7. -/
theorem test_select_invalid :
    sat (exec .select { atPorts 7#32 with diag := 0xFFFFFFFF#32 })
      (fun t => t.diag == 0xFFFFFFFF#32 && t.lastInv == 7#32) &&
    sat (exec .select (atPorts 0x80000000#32))
      (fun t => t.diag == 1#32 && t.lastInv == 0x80000000#32 && t.active == 0#32) = true := by
  decide +kernel

/-- L-3, L-8 and L-5. -/
theorem test_latch :
    sat (exec .latch
      { State.reset with
        ports := { Ports.zero with
          wetDb := 0x40C00000#32, dryDb := 0xC2B40000#32, masterDb := 0xC1A00000#32 } })
      (fun t => t.tWet == 0x3FFF64C2#32 && t.tDry == 0#32 && t.tMaster == 0x3DCCCCCD#32) = true := by
  decide +kernel

/-- L-7 and L-9. -/
theorem test_latch_floor :
    sat (exec .latch
      { State.reset with
        ports := { Ports.zero with
          wetDb := 0xC2B3FAE1#32, dryDb := 0xC2B4000D#32, masterDb := 0x80000000#32 } })
      (fun t => t.tWet == 0x3804C9D4#32 && t.tDry == 0#32 && t.tMaster == 0x3F800000#32) = true := by
  decide +kernel

/-- P2's frame 0: the order of overlapping taps, depth-0 stages, and no working register kept (R199). -/
theorem test_frame_tp1 :
    sat (exec .select (atPorts 1#32)) (fun s =>
      sat (exec .frame
        { s with
          samples := [(2 ^ 24, 0x3F800000#32)]
          gWet := 0x3BC41DFE#32, gDry := 0x3BC41DFE#32, gMaster := 0x3BC41DFE#32
          tWet := 0x3F800000#32, tDry := 0x3F800000#32, tMaster := 0x3F800000#32 }) (fun t =>
        memRead t.samples (2 ^ 25) == 0x3899346B#32 && memRead t.samples (2 ^ 26) == 0x38FF58F5#32 &&
        memRead t.ram 0 == 0x3F7FFC00#32 && memRead t.ram 4 == 0x3F7FFC00#32 &&
        memRead t.ram 8 == 0x3F7FFA00#32 && t.lin == none && t.rout == none)) = true := by
  decide +kernel

/-- E-5: TP0 with span 64 at 22050 Hz breaks the invariant, and is installed. -/
theorem test_derive_sets_fi :
    sat (exec .derive { built with catalog := { first := { tp0 with span := 64#32 }, rest := [] } })
      (fun t => t.fi && !t.fn && t.bufSize == 32 && t.params.mRAPF2 == 60) = true := by decide +kernel

/-- E-6: vIIR = 0x8000 at 11025 Hz. -/
theorem test_derive_sets_fn :
    sat (exec .derive
      { built with
        rate := 0x40C5888000000000#64
        catalog := { first := { tp0 with words := tp0.words.set 2 0x8000#16 }, rest := [] } })
      (fun t => t.fn && t.params.vIIR == 0xFF800000#32) = true := by decide +kernel

theorem test_clear_keeps_gains :
    sat (exec .clear { mini Params.zero [(3, 1#32)] 0#32 with cursor := 5, gWet := 7#32 })
      (fun t => t.ram == [] && t.cursor == 0 && t.gWet == 7#32) = true := by decide +kernel

/-- U-1 and U-2. -/
theorem test_input :
    sat (exec .input
      { mini { Params.zero with vLIN := 0x3F000000#32, vRIN := 0xBF800000#32 } [] 0#32 with
        samples := [(0, 0x3F800000#32)]
        ports := { Ports.zero with inR := 1 } })
      (fun t => t.lin == some 0x3F000000#32 && t.rin == some 0x80000000#32) = true := by decide +kernel

/-- U-3, with the four reflections' far taps at 3 and their write taps at 10. -/
def reflecting (p : Params) (far m : Nat) : State :=
  mini { p with vWALL := 0x3E800000#32, vIIR := 0x3F000000#32 }
    (memWrite [(m - 1, 0x3E000000#32)] far 0x3E800000#32) 0x3F000000#32

theorem test_sameL :
    sat (exec .sameL (reflecting { Params.zero with dLSAME := 3, mLSAME := 10 } 3 10))
      (fun t => memRead t.ram 10 == 0x3EB00000#32) = true := by decide +kernel
theorem test_sameR :
    sat (exec .sameR (reflecting { Params.zero with dRSAME := 3, mRSAME := 10 } 3 10))
      (fun t => memRead t.ram 10 == 0x3EB00000#32) = true := by decide +kernel
theorem test_diffL_reads_the_right_tap :
    sat (exec .diffL (reflecting { Params.zero with dRDIFF := 3, mLDIFF := 10 } 3 10))
      (fun t => memRead t.ram 10 == 0x3EB00000#32) = true := by decide +kernel
theorem test_diffR_reads_the_left_tap :
    sat (exec .diffR (reflecting { Params.zero with dLDIFF := 3, mRDIFF := 10 } 3 10))
      (fun t => memRead t.ram 10 == 0x3EB00000#32) = true := by decide +kernel

/-- U-4 and U-5: ties round to even. -/
theorem test_reflect_rounds_to_even :
    (reflectValue 0 0x3F800000#32 0x33800000#32 0#32 0x3F800000#32 0x3F800000#32,
      reflectValue 0 0x3F800000#32 0x34400000#32 0#32 0x3F800000#32 0x3F800000#32) =
      (0x3F800000#32, 0x3F800002#32) := by decide +kernel

/-- U-7, and its mirror on the right. -/
theorem test_combL :
    sat (exec .combL
      (mini { Params.zero with vCOMB1 := 0x3F000000#32, vCOMB2 := 0x3E800000#32, mLCOMB1 := 4 }
        [(4, 0x3E800000#32)] 0#32)) (fun t => t.lout == some 0x3E000000#32) = true := by decide +kernel
theorem test_combR :
    sat (exec .combR
      (mini { Params.zero with vCOMB1 := 0x3F000000#32, vCOMB2 := 0x3E800000#32, mRCOMB1 := 4 }
        [(4, 0x3E800000#32)] 0#32)) (fun t => t.rout == some 0x3E000000#32) = true := by decide +kernel

/-- U-8. -/
theorem test_apf1L :
    sat (exec .apf1L
      (mini { Params.zero with mLAPF1 := 9, dAPF1 := 4, vAPF1 := 0x3F000000#32 } [(5, 0x3E800000#32)]
        0x3F800000#32))
      (fun t => t.lout == some 0x3F300000#32 && memRead t.ram 9 == 0x3F600000#32) = true := by
  decide +kernel

/-- U-9: the re-read is after the store. -/
theorem test_apf1R_rereads :
    sat (exec .apf1R
      (mini { Params.zero with mRAPF1 := 9, vAPF1 := 0x3F000000#32 } [(9, 0x3E800000#32)]
        0x3F800000#32))
      (fun t => t.rout == some 0x3FA80000#32 && memRead t.ram 9 == 0x3F600000#32) = true := by
  decide +kernel

/-- U-10, on both channels' second stage. -/
theorem test_apf2L :
    sat (exec .apf2L
      (mini { Params.zero with mLAPF2 := 9, dAPF2 := 4, vAPF2 := 0xBF000000#32 } [(5, 0x3F800000#32)]
        0x3F800000#32))
      (fun t => t.lout == some 0x3E800000#32 && memRead t.ram 9 == 0x3FC00000#32) = true := by
  decide +kernel
theorem test_apf2R :
    sat (exec .apf2R
      (mini { Params.zero with mRAPF2 := 9, dAPF2 := 4, vAPF2 := 0xBF000000#32 } [(5, 0x3F800000#32)]
        0x3F800000#32))
      (fun t => t.rout == some 0x3E800000#32 && memRead t.ram 9 == 0x3FC00000#32) = true := by
  decide +kernel

/-- U-11 and U-12. -/
theorem test_adv :
    sat (exec .adv { mini Params.zero [] 0#32 with cursor := 63 }) (fun t => t.cursor == 0) &&
    sat (exec .adv State.reset) (fun t => t.cursor == 0) = true := by decide +kernel

/-- U-13's and U-15's first steps, and U-18. -/
theorem test_smooth :
    sat (exec .smooth
      { State.reset with
        tWet := 0x3F800000#32, gDry := 0x3F800000#32, gMaster := 0x3F000000#32
        tMaster := 0x3F000000#32 })
      (fun t => t.gWet == 0x3A83126F#32 && t.gDry == 0x3F7FBE77#32 && t.gMaster == 0x3F000000#32)
      = true := by decide +kernel

/-- U-16's and U-17's stalls. -/
theorem test_smooth_stalls :
    sat (exec .smooth
      { State.reset with tWet := 0x3F800000#32, gWet := 0x3F7FFE0C#32, gDry := 0x000001F3#32 })
      (fun t => t.gWet == 0x3F7FFE0C#32 && t.gDry == 0x000001F3#32) = true := by decide +kernel

/-- U-19 and, on the right, U-21's values. -/
theorem test_mixL :
    sat (exec .mixL
      { mini Params.zero [] 0x3F000000#32 with
        lin := some 0x3E800000#32, gWet := 0x3F000000#32, gDry := 0x3F800000#32
        gMaster := 0x3F000000#32, k := 2, ports := { Ports.zero with outL := 5 } })
      (fun t => t.samples == [(7, 0x3E800000#32)]) = true := by decide +kernel
theorem test_mixR_signed_zero :
    sat (exec .mixR
      { mini Params.zero [] 0x80000000#32 with
        gWet := 0x3F800000#32, gDry := 0x3F800000#32, gMaster := 0x3F800000#32
        ports := { Ports.zero with outR := 5 } })
      (fun t => t.samples == [(5, 0x80000000#32)]) = true := by decide +kernel

/-- E-7: a reserved word on the READY instance leaves STATUS = 0x00000011. -/
theorem test_step_refuses :
    sat (step { built with pending := [bare 0x04000000#32] }) (fun t => t.status == 0x00000011#32)
      = true := by decide +kernel

/-- The host's placement of a row's word is what the next step runs. -/
theorem test_withFetchWord :
    sat (step (State.reset.withFetchWord 32 0x02000000)) (fun t => t.rf) &&
    sat (step (State.reset.withFetchWord 8 0xB)) (fun t => t.ustep == 0xC#4) = true := by decide +kernel

/-- The stops: a reserved code, a command inside a block, an unwritten register, a tap above CAP, an
index that names no preset. -/
theorem test_stops :
    faults (step (inBlock 5#4 0#4)) .reservedCode && faults (exec .reset (inBlock 0#4 0#4)) .commandDuringBlock &&
    faults (exec .mixL { State.reset with lout := none }) .workingUnwritten &&
    faults (exec .combL
      { State.reset with bufSize := 64, params := { Params.zero with mLCOMB1 := 1 } }) .ramOutOfRange &&
    faults (exec .derive (atPorts 2#32)) .noSuchPreset = true := by decide +kernel

-- witnesses: the hypotheses of the obligations, met together

theorem built_inv : built.Inv where
  ramWf := by decide +kernel
  samplesWf := by decide +kernel
  ramBelowB := by decide +kernel
  pow2 := ⟨6, by decide +kernel⟩
  leCap := by decide +kernel
  cursor := by decide +kernel
  cfgErr := by decide +kernel
  noFault := by decide +kernel
  ready := fun _ =>
    { rate := by decide +kernel
      caps := by decide +kernel
      cap := by decide +kernel
      capMax := by decide +kernel
      entry := ⟨tp0, by decide +kernel⟩
      stretch := by decide +kernel
      params := by decide +kernel
      bufSize := by decide +kernel
      fault := fun _ => by decide +kernel
      numeric := fun _ => by decide +kernel }
  blockReady := by decide +kernel
  blockStep := by decide +kernel
  microStep := by decide +kernel
  frames := by decide +kernel

/-- The invariant does not speak of the ports, the samples' contents or the queue. -/
theorem inv_of_built {t : State} (ht : t = { built with
      ports := t.ports, pending := t.pending, samples := t.samples, ram := t.ram, cursor := t.cursor
      phase := t.phase, bstep := t.bstep, ustep := t.ustep, k := t.k, nblk := t.nblk })
    (hs : memWf t.samples = true) (hr : memWf t.ram = true ∧ ∀ c ∈ t.ram, c.1 < 64)
    (hc : t.cursor < 64)
    (hb : t.phase = .block → t.bstep.toNat ≤ 4 ∧ t.ustep.toNat ≤ 14 ∧ t.k < t.nblk ∧
      t.nblk ≤ Config.blockMax) : t.Inv := by
  have h64 : built.bufSize = 64 := by decide +kernel
  have hl : built.life = .ready := by decide +kernel
  have hd := built_inv.ready hl
  rw [ht]
  exact
    { ramWf := hr.1
      samplesWf := hs
      ramBelowB := fun c hm => h64.symm ▸ hr.2 c hm
      pow2 := built_inv.pow2
      leCap := built_inv.leCap
      cursor := h64.symm ▸ hc
      cfgErr := built_inv.cfgErr
      noFault := built_inv.noFault
      ready := fun _ => ⟨hd.rate, hd.caps, hd.cap, hd.capMax, hd.entry, hd.stretch, hd.params,
        hd.bufSize, hd.fault, hd.numeric⟩
      blockReady := fun _ => hl
      blockStep := fun h => (hb h).1
      microStep := fun h => (hb h).2.1
      frames := fun h => (hb h).2.2 }

theorem built_phase : built.phase = .idle := by decide +kernel
theorem built_ram : memWf built.ram = true ∧ ∀ c ∈ built.ram, c.1 < 64 := by decide +kernel
theorem built_cursor : built.cursor < 64 := by decide +kernel

theorem atPorts_inv (p : BitVec 32) : (atPorts p).Inv :=
  inv_of_built rfl built_inv.samplesWf built_ram built_cursor
    fun h => absurd (built_phase.symm.trans h) (by decide)

theorem inBlock_inv : (inBlock 2#4 0xE#4).Inv :=
  inv_of_built rfl built_inv.samplesWf built_ram built_cursor (by decide)

theorem built_sized : built.Sized := ⟨by decide +kernel, by decide +kernel⟩

theorem mini_sized (p : Params) (ram : WordMem) (x : F32) : (mini p ram x).Sized :=
  ⟨by show 0 < 64; omega, by show 64 ≤ 64; omega⟩

/-- The smallest engine: B = CAP = 1. -/
theorem reset_sized : State.reset.Sized := ⟨by decide, by decide⟩

/-- The fields of each clause at the ends of its range (R107). -/
theorem witness_HostWordDecoding :
    (0x01000000#32).toNat / 2 ^ 24 = 0x01 ∧ (0x01000000#32).toNat % 2 ^ 24 = 0 ∧
    (0x02000000#32).toNat / 2 ^ 24 = 0x02 ∧ (0x02000000#32).toNat % 2 ^ 24 = 0 ∧
    (0x03000001#32).toNat / 2 ^ 24 = 0x03 ∧ (0x03000001#32).toNat % 2 ^ 24 = 1 ∧
    (0x03FFFFFF#32).toNat / 2 ^ 24 = 0x03 ∧ (0x03FFFFFF#32).toNat % 2 ^ 24 = 16777215 ∧
    (0x04000000#32).toNat / 2 ^ 24 = 0x04 := by decide

theorem witness_ReservedHostWordIsRefused :
    ∃ s : State, s.phase = .idle ∧ s.pending = [bare 0x00FFFFFF#32, bare 0x04000000#32] ∧
      (0x00FFFFFF#32).toNat / 2 ^ 24 = 0 ∧ 4 ≤ (0x04000000#32).toNat / 2 ^ 24 ∧
      (0x01000001#32).toNat % 2 ^ 24 ≠ 0 ∧ (0x02FFFFFF#32).toNat % 2 ^ 24 ≠ 0 ∧
      (0x03000000#32).toNat % 2 ^ 24 = 0 :=
  ⟨{ State.reset with pending := [bare 0x00FFFFFF#32, bare 0x04000000#32] }, by decide⟩

theorem witness_AssemblyLinesAssemble :
    (AsmLine.construct false 220500 1 none).wf = true ∧ AsmLine.reset.wf = true ∧
    (AsmLine.runBlock 1 0 asmZero asmZero asmZero [.dec false 10 1] [asmZero]).wf = true ∧
    (AsmLine.silence 16777215 2147483647 asmZero (.inf true) asmZero).wf = true ∧
    (AsmLine.impulseL 1 asmZero (-2147483648) asmZero asmZero asmZero).wf = true ∧
    (AsmLine.impulseR 16777215 asmZero 0 asmZero asmZero asmZero).wf = true := by decide

/-- The last clauses: the first and the last word of each input, and the words just outside them. -/
theorem witness_StepRunsHostCommand :
    (∃ (s : State) (c : HostCommand), s.phase = .idle ∧ s.pending = [c] ∧ decode (.h c.word) = .ok .reset) ∧
    State.reset.phase = .idle ∧ State.reset.pending = [] ∧ memWf State.reset.samples = true ∧
    let c : HostCommand :=
      { bare 0x03000002#32 with
        ports := { Ports.zero with inL := 3, inR := 5 }, samplesL := [1#32, 2#32], samplesR := [3#32, 4#32] }
    c.samplesL[0]? = some 1#32 ∧ c.samplesL[1]? = some 2#32 ∧ c.samplesR[0]? = some 3#32 ∧
    (∀ j, j < c.samplesR.length → 3 ≠ c.ports.inR + j ∧ 4 ≠ c.ports.inR + j) ∧
    (∀ j, j < c.samplesL.length → 2 ≠ c.ports.inL + j ∧ 7 ≠ c.ports.inL + j) ∧
    ∀ j, j < c.samplesR.length → 2 ≠ c.ports.inR + j ∧ 7 ≠ c.ports.inR + j :=
  ⟨⟨{ State.reset with pending := [bare 0x02000000#32] }, bare 0x02000000#32, by decide⟩, by decide⟩

/-- Both ends of USTEP and of BSTEP, a next state and a fault, and the reserved codes. -/
theorem witness_StepRunsInternalOperation :
    (inBlock 2#4 0#4).phase = .block ∧ decode (.u 0#4) = .ok .input ∧
    sat (exec .input (inBlock 2#4 0#4).clearWorking) (fun _ => true) = true ∧
    decode (.u 0xE#4) = .ok .mixR ∧ sat (exec .mixR (mini Params.zero [] 0#32)) (fun _ => true) = true ∧
    faults (exec .mixR (inBlock 2#4 0xE#4)) .workingUnwritten = true ∧
    decode (.i 0#4) = .ok .select ∧ sat (exec .select (inBlock 0#4 0#4)) (fun _ => true) = true ∧
    decode (.i 4#4) = .ok .clear ∧
    faults (exec .derive { inBlock 3#4 0#4 with ports := { Ports.zero with presetIn := 2#32 } })
      .noSuchPreset = true ∧
    5 ≤ (inBlock 5#4 0#4).bstep.toNat ∧ (inBlock 2#4 0xF#4).ustep = 0xF#4 := by decide +kernel

theorem witness_AdmissionRefusals :
    built.phase = .idle ∧ built.life = .ready ∧ State.reset.life = .unconstructed ∧
    State.reset.phase = .idle ∧ ({ State.reset with life := .failed } : State).life = .failed ∧
    (inBlock 0#4 0#4).phase = .block := by decide +kernel

theorem witness_ConstructEstablishesReadyState :
    let s := unbuilt Config.nativeRate true
    s.phase = .idle ∧ s.life = .unconstructed ∧ rateValid s.ports.rate = true ∧
    s.ports.capsOk = true ∧ capacityTooLarge s.catalog (stretchOf s.ports.rate) = false := by
  decide +kernel

/-- One state for each failing check; the rate 1.0 is the boundary of the first. A catalog with finite size
products on either side of CAP_MAX, and one with a product that is not finite. -/
theorem witness_ConstructRecordsFirstFailure :
    rateValid (unbuilt 0x3FF0000000000000#64 true).ports.rate = false ∧
    rateValid (unbuilt Config.nativeRate false).ports.rate = true ∧
    (unbuilt Config.nativeRate false).ports.capsOk = false ∧
    rateValid (unbuilt 0x4270000000000000#64 true).ports.rate = true ∧
    capacityTooLarge catalog (stretchOf 0x4270000000000000#64) = true ∧
    catalog.first.span = 128#32 ∧ (unbuilt 0x4270000000000000#64 true).life = .unconstructed ∧
    (unbuilt 0x4270000000000000#64 true).status = 0#32 ∧
    (∀ e ∈ catalog.first :: catalog.rest, F64.isFinite (sizeProduct e.span 0x4170000000000000#64) = true) ∧
    capacityOf catalog 0x4170000000000000#64 = 2 ^ 30 ∧
    capacityOf catalog 0x4170000000000001#64 = 2 ^ 31 ∧
    F64.isFinite (sizeProduct tp0.span 0x7FEFFFFFFFFFFFFF#64) = false := by
  decide +kernel

/-- Around the boundaries of the valid rates: 1.0 and the number after it, the largest, +inf. -/
theorem witness_ValidRatesAreFiniteAboveOne :
    rateValid 0x3FF0000000000000#64 = false ∧ rateValid 0x3FF0000000000001#64 = true ∧
    rateValid 0x7FEFFFFFFFFFFFFF#64 = true ∧ rateValid 0x7FF0000000000000#64 = false ∧
    rateValid 0x7FF0000000000001#64 = false ∧ rateValid 0xC0D5888000000000#64 = false := by
  decide +kernel

theorem witness_ResetClearsRamCursorGains :
    built.phase = .idle ∧ built.life = .ready ∧ State.reset.life ≠ .ready ∧
    (unbuilt Config.nativeRate true).life = .unconstructed ∧
    ∃ t, exec .construct (unbuilt Config.nativeRate true) = .next t ∧
      (t.phase == .idle && t.life == .ready) = true :=
  ⟨by decide +kernel, by decide +kernel, by decide, by decide, exists_of_sat (by decide +kernel)⟩

/-- Overlapping outputs, and a length of 0; the last shared word, and the first address past it. -/
theorem witness_RunBlockRefusals :
    built.phase = .idle ∧ built.life = .ready ∧ streamsMeetR80 1 built.ports = false ∧
    streamsMeetR80 2 { (atPorts 0#32).ports with outL := 1 } = false ∧
    streamsMeetR80 2 { (atPorts 0#32).ports with outL := 2 } = true := by decide +kernel

/-- The same states meet the hypotheses of RunBlockCompletes and RunBlockIsItsInternalSteps: a block of
one frame and one of the greatest length. -/
theorem witness_RunBlockCompletes :
    (atPorts 0#32).Inv ∧ (atPorts 0#32).phase = .idle ∧ (atPorts 0#32).life = .ready ∧
    streamsMeetR80 (1#24).toNat (atPorts 0#32).ports = true ∧
    streamsMeetR80 (16777215#24).toNat (atPorts 1#32).ports = true :=
  ⟨atPorts_inv 0#32, by decide +kernel⟩

theorem witness_RunBlockIsItsInternalSteps :
    (atPorts 1#32).phase = .idle ∧ (atPorts 1#32).life = .ready ∧ (1#24 : BitVec 24) ≠ 0#24 ∧
    streamsMeetR80 (1#24).toNat (atPorts 1#32).ports = true := by decide +kernel

/-- The first index past the catalog, and -1; the block with the active index completes. -/
theorem witness_InvalidPresetRunsAsActive :
    (atPorts 2#32).life = .ready ∧ (atPorts 2#32).phase = .idle ∧
    streamsMeetR80 (1#24).toNat (atPorts 2#32).ports = true ∧
    (atPorts 2#32).ports.presetIn ≠ (atPorts 2#32).active ∧
    validPreset (atPorts 2#32).catalog 2#32 = false ∧
    validPreset (atPorts 2#32).catalog 0xFFFFFFFF#32 = false ∧
    ∃ t, exec (.runBlock 1#24)
      { atPorts 2#32 with ports := { (atPorts 2#32).ports with presetIn := (atPorts 2#32).active } } =
        .next t ∧ true = true :=
  ⟨by decide +kernel, by decide +kernel, by decide +kernel, by decide +kernel, by decide +kernel,
    by decide +kernel, exists_of_sat (by decide +kernel)⟩

theorem witness_PresetSwitchRunsFromDerivedState :
    (atPorts 1#32).phase = .idle ∧ (atPorts 1#32).life = .ready ∧
    streamsMeetR80 (1#24).toNat (atPorts 1#32).ports = true ∧
    (atPorts 1#32).ports.presetIn ≠ (atPorts 1#32).active ∧
    validPreset (atPorts 1#32).catalog (atPorts 1#32).ports.presetIn = true := by decide +kernel

/-- In place against disjoint. -/
theorem witness_InPlaceEqualsDisjoint :
    inPlace.phase = .idle ∧ inPlace.life = .ready ∧ memWf inPlace.samples = true ∧
    streamsMeetR80 (2#24).toNat inPlace.ports = true ∧
    streamsMeetR80 (2#24).toNat { inPlace.ports with outL := 2 ^ 25, outR := 2 ^ 26 } = true ∧
    ∃ t, exec (.runBlock 1#24) inPlace = .next t ∧ true = true :=
  ⟨by decide +kernel, by decide +kernel, by decide +kernel, by decide +kernel, by decide +kernel,
    exists_of_sat (by decide +kernel)⟩

/-- The shortest split, and the greatest total. -/
theorem witness_BlocksSplit :
    (atPorts 0#32).Inv ∧ (atPorts 0#32).phase = .idle ∧ (atPorts 0#32).life = .ready ∧
    streamsMeetR80 (1 + 1) (atPorts 0#32).ports = true ∧
    (1 : Nat) + (2 ^ 24 - 2) ≤ 2 ^ 24 - 1 ∧
    streamsMeetR80 (1 + (2 ^ 24 - 2)) (atPorts 0#32).ports = true :=
  ⟨atPorts_inv 0#32, by decide +kernel⟩

/-- The active index, the last valid one, the first past it, and -1. -/
theorem witness_SelectCompletes :
    (atPorts 0#32).ports.presetIn = (atPorts 0#32).active ∧
    (atPorts 1#32).ports.presetIn ≠ (atPorts 1#32).active ∧
    (1#32).toInt < ((atPorts 1#32).catalog.rest.length : Int) + 1 ∧
    ((atPorts 2#32).catalog.rest.length : Int) + 1 ≤ (2#32).toInt ∧ (0xFFFFFFFF#32).toInt < 0 := by
  decide +kernel

/-- -90.0 itself, the number above it, and 1.0. -/
theorem witness_DecibelLaws :
    F32.le 0xC2B40000#32 0xC2B40000#32 = true ∧ F32.le 0xFF800000#32 0xC2B40000#32 = true ∧
    F32.le 0xC2B3FFFF#32 0xC2B40000#32 = false ∧ F32.le 0x3F800000#32 0xC2B40000#32 = false ∧
    F32.le 0x7FC00000#32 0xC2B40000#32 = false := by decide +kernel

theorem witness_FrameCompletes : built.Sized ∧ State.reset.Sized := ⟨built_sized, reset_sized⟩

theorem witness_SilentFrameFromZeroedRam :
    let s := inBlock 2#4 0#4
    s.Sized ∧ memWf s.ram = true ∧ (∀ a, memRead s.ram a = 0#32) ∧ allGainsFinite s.params = true ∧
    F32.isZero (readInL s) = true ∧ F32.isZero (readInR s) = true ∧ s.phase = .block ∧
    s.bstep = 0x2#4 ∧ s.ustep = 0x0#4 :=
  ⟨⟨by decide, by decide⟩, by decide, fun _ => rfl, by decide +kernel, by decide +kernel,
    by decide +kernel, by decide, by decide, by decide⟩

theorem witness_DeriveInstallsPreset :
    validPreset (atPorts 1#32).catalog (atPorts 1#32).ports.presetIn = true ∧
    ((atPorts 1#32).catalog.first :: (atPorts 1#32).catalog.rest)[(1#32).toInt.toNat]? = some tp1 ∧
    ((atPorts 0#32).catalog.first :: (atPorts 0#32).catalog.rest)[(0#32).toInt.toNat]? = some tp0 := by
  decide +kernel

/-- Two machines, one after some audio and with another fault history, derive the same preset; FI = 0. -/
theorem witness_DeriveIsIdempotent :
    (∃ t, exec .derive (atPorts 1#32) = .next t ∧ (t.raw == tp1.words && t.span == 64#32 && !t.fi) = true) ∧
    (∃ v, exec .derive { atPorts 1#32 with fn := true, cursor := 9, ram := [(3, 1#32)] } = .next v ∧
      (v.raw == tp1.words && v.span == 64#32) = true) :=
  ⟨exists_of_sat (by decide +kernel), exists_of_sat (by decide +kernel)⟩

/-- The hypotheses of CleanDerivationBoundsOffsets and of GainDecodeIsExact. -/
theorem witness_CleanDerivationBoundsOffsets :
    ∃ t, exec .derive (atPorts 0#32) = .next t ∧ (t.fi == false) = true :=
  exists_of_sat (by decide +kernel)

/-- The hypothesis of IirConvertIsIdentityAtNativeRate and of TapScaling at the two ends of its range, and
a finite product at S = 1.0; the clause on DERIVE is met by witness_CleanDerivationBoundsOffsets. -/
theorem witness_TapScaling :
    rateValid 0x3FF0000000000001#64 = true ∧ rateValid 0x7FEFFFFFFFFFFFFF#64 = true ∧
    Fmt.unpack .b64 (0x3FF0000000000000#64).toNat = .fin false Fmt.b64.one ∧
    Fmt.roundMag .b64 (4 * (65535#16).toNat * Fmt.b64.one) 1 < Fmt.b64.infBits := by decide +kernel

theorem witness_NextPowerOfTwoIsLeast :
    0 ≤ 2 ^ 0 ∧ 1 ≤ 2 ^ 0 ∧ 33 ≤ 2 ^ 6 ∧ 64 ≤ 2 ^ 6 ∧ nextPow2 0 = 1 ∧ nextPow2 1 = 1 ∧
    nextPow2 33 = 64 ∧ nextPow2 64 = 64 := by decide +kernel

theorem witness_CapacityCoversCatalog :
    (unbuilt Config.nativeRate true).life = .unconstructed ∧
    (∃ t, exec .construct (unbuilt Config.nativeRate true) = .next t ∧ (t.life == .ready) = true) ∧
    (atPorts 1#32).Inv ∧ (atPorts 1#32).life = .ready ∧
    ∃ t, exec .derive (atPorts 1#32) = .next t ∧ true = true :=
  ⟨by decide, exists_of_sat (by decide +kernel), atPorts_inv 1#32, by decide +kernel,
    exists_of_sat (by decide +kernel)⟩

/-- The hypotheses of the reflections, the combs, the all-pass stages and the mixes; the depth 0 and the
depth 4 are the two cases of the re-read. -/
theorem witness_AllPassStages :
    let s := mini { Params.zero with mLAPF1 := 9, dAPF2 := 4 } [(5, 0x3E800000#32)] 0x3F800000#32
    s.Sized ∧ memWf s.ram = true ∧ memWf s.samples = true ∧ s.lin = some 0x3F800000#32 ∧
    s.rin = some 0x3F800000#32 ∧ s.lout = some 0x3F800000#32 ∧ s.rout = some 0x3F800000#32 ∧
    s.params.dAPF1 % (s.bufSize : Int) = 0 ∧ s.params.dAPF2 % (s.bufSize : Int) ≠ 0 :=
  ⟨mini_sized _ _ _, by decide⟩

theorem witness_AdvanceMovesCursor :
    (0 < State.reset.bufSize ∧ State.reset.cursor = State.reset.bufSize - 1) ∧
    let s : State := { mini Params.zero [] 0#32 with cursor := 63 }
    0 < s.bufSize ∧ s.cursor = s.bufSize - 1 := by decide

/-- 1.0, the largest, +0.0 and the smallest negative number. -/
theorem witness_SmoothKeepsReachedTarget :
    [0x3F800000#32, 0x7F7FFFFF#32, 0x00000000#32, 0x80000001#32].all
      (fun g => F32.isFinite g && g != 0x80000000#32) = true := by decide +kernel

/-- Every micro-step answers a next state from one state. -/
theorem witness_MicroStepFrames :
    [Instr.input, .sameL, .sameR, .diffL, .diffR, .combL, .combR, .apf1L, .apf1R, .apf2L, .apf2R,
      .adv, .smooth, .mixL, .mixR].all
      (fun i => isMicroStep i && sat (exec i (mini Params.zero [] 0#32)) (fun _ => true)) = true := by
  decide +kernel

/-- B = 64 over CAP = 1: each kind of tap in turn is the one outside the RAM, and the previous tap -1. -/
theorem witness_InternalOperationStops :
    let s : State :=
      { State.reset with
        bufSize := 64, params := { Params.zero with dLSAME := 1, mRCOMB4 := 1, dAPF2 := 1, mRSAME := 1 }
        ports := { Ports.zero with presetIn := 1#32 } }
    s.lin.isSome = true ∧ s.rin.isSome = true ∧ s.lout.isSome = true ∧ s.rout.isSome = true ∧
    s.cap ≤ bufAddr s s.params.dLSAME ∧ s.cap ≤ bufAddr s s.params.mRSAME ∧
    s.cap ≤ bufAddr s (s.params.mLDIFF - 1) ∧ s.cap ≤ bufAddr s s.params.mRCOMB4 ∧
    s.cap ≤ bufAddr s (s.params.mLAPF2 - s.params.dAPF2) ∧
    validPreset s.catalog s.ports.presetIn = false ∧ s.clearWorking.lin = none ∧
    s.clearWorking.rin = none ∧ s.clearWorking.lout = none ∧ s.clearWorking.rout = none := by decide

/-- A quotient that is finite and a tie: 2^24 + 1 units round to the even pattern of 2^24. -/
theorem witness_RoundingIsNearestEven :
    Fmt.roundMag .b32 16777217 1 < Fmt.b32.infBits ∧
    Fmt.roundMag .b32 16777217 1 + 1 < Fmt.b32.infBits ∧
    (16777217 : Int) - (Fmt.unitsOf .b32 (Fmt.roundMag .b32 16777217 1) : Nat) =
      (Fmt.unitsOf .b32 (Fmt.roundMag .b32 16777217 1 + 1) : Nat) - 16777217 ∧
    Fmt.roundMag .b32 16777217 1 % 2 = 0 := by decide +kernel

theorem witness_NonFiniteValuesPropagate :
    F32.isFinite 0x7F800000#32 = false ∧ F32.isFinite 0x7F800001#32 = false ∧
    F32.isNaN 0x7F800001#32 = true ∧ F32.isNaN 0xFFFFFFFF#32 = true := by decide +kernel

/-- The least width for B = 64, CURSOR = 0 and o = -63: 2^7 > 127; and B = 1. -/
theorem witness_AddressEqualsMaskedSum :
    (mini Params.zero [] 0#32).bufSize = 2 ^ 6 ∧
    ((mini Params.zero [] 0#32).bufSize : Int) + |(-63 : Int)| + ((mini Params.zero [] 0#32).cursor : Int)
      < 2 ^ (8 - 1) ∧
    State.reset.bufSize = 2 ^ 0 ∧
    (State.reset.bufSize : Int) + |(0 : Int)| + (State.reset.cursor : Int) < 2 ^ (2 - 1) := by decide

theorem witness_TapsSlideWithCursor : 0 < State.reset.bufSize := by decide

/-- The whole-machine rules: every operation answers a next state somewhere, the fault bits can be 1
there, and a CONSTRUCT can fail after a refusal. SELECT and RUN_BLOCK are met with a valid new index and
with an invalid one. -/
theorem witness_FaultBitsAreSticky :
    sat (exec .construct { unbuilt 0x3FF0000000000000#64 true with rf := true })
      (fun t => t.life == .failed) = true ∧
    sat (exec .construct { unbuilt Config.nativeRate true with rf := true })
      (fun t => t.life == .ready) = true ∧
    sat (exec (.runBlock 1#24) (atPorts 1#32)) (fun t => t.active == 1#32 && t.diag == 0#32) = true ∧
    sat (exec (.runBlock 1#24) (atPorts 2#32)) (fun t => t.active == 0#32 && t.diag == 1#32) = true ∧
    [Instr.reset, .runBlock 1#24, .select, .latch, .frame, .derive, .clear].all
      (fun i => sat (exec i { atPorts 0#32 with fi := true, fn := true, rf := true }) (fun _ => true))
      = true ∧
    sat (exec .construct built) (fun t => t.life == .ready) = true := by decide +kernel

/-- Two states that meet the invariant and from which a step answers: a command of the host, and the last
micro-step of a block. -/
theorem witness_StepKeepsInvariant :
    (∃ s : State, s.Inv ∧ ∃ t, step s = .next t ∧ (t.life == .ready) = true) ∧
    ∃ s : State, s.Inv ∧ s.phase = .block ∧ ∃ t, step s = .next t ∧ (t.phase == .block) = true :=
  ⟨⟨{ atPorts 0#32 with pending := [bare 0x02000000#32] },
      inv_of_built rfl built_inv.samplesWf built_ram built_cursor
        (fun h => absurd (built_phase.symm.trans h) (by decide)),
      exists_of_sat (by decide +kernel)⟩,
    ⟨inBlock 1#4 0#4,
      inv_of_built rfl built_inv.samplesWf built_ram built_cursor (by decide),
      by decide, exists_of_sat (by decide +kernel)⟩⟩

/-- The hypotheses of HostCommandsNeverStop, with commands queued that the block refuses. -/
theorem witness_HostCommandsNeverStop :
    ∃ s : State, s.Inv ∧ s.phase = .idle ∧ s.pending = [bare 0x01000000#32, bare 0x03000001#32] :=
  ⟨{ atPorts 0#32 with pending := [bare 0x01000000#32, bare 0x03000001#32] },
    inv_of_built rfl built_inv.samplesWf built_ram built_cursor
      (fun h => absurd (built_phase.symm.trans h) (by decide)),
    by decide +kernel, rfl⟩

end Sys2Proof.Tests
end

section
/-! The power of two that holds a number (00_scope.md R12, 41_deriver.md R157). -/

namespace Sys2Proof.Machine

/-- The powers of two at or above `nextPow2 x` are the powers of two at or above `x`. -/
theorem nextPow2_le_two_pow_iff (x j : Nat) : nextPow2 x ≤ 2 ^ j ↔ x ≤ 2 ^ j := by
  have hpos : 1 ≤ 2 ^ j := Nat.one_le_two_pow
  by_cases hx : x ≤ 1
  · rw [nextPow2, if_pos hx]
    omega
  · calc nextPow2 x ≤ 2 ^ j
      _ ↔ Nat.log2 (x - 1) + 1 ≤ j := by
        rw [nextPow2, if_neg hx, Nat.pow_le_pow_iff_right Nat.one_lt_two]
      _ ↔ x - 1 < 2 ^ j := Nat.log2_lt (by omega)
      _ ↔ x ≤ 2 ^ j := by omega

/-- Settles O32: `nextPow2 x` is a power of two itself, so the equivalence applies to it. -/
theorem nextPowerOfTwoIsLeast : Obligations.NextPowerOfTwoIsLeast := by
  intro x
  obtain ⟨k, hk⟩ := nextPow2_eq_pow x
  refine ⟨⟨k, hk⟩, ?_, fun j => (nextPow2_le_two_pow_iff x j).mpr⟩
  rw [hk]
  exact (nextPow2_le_two_pow_iff x k).mp hk.le

end Sys2Proof.Machine
end

section
/-! Rounding against its two neighbours (00_scope.md R13). The magnitudes of a format grow strictly with their
patterns, so a quotient lies between the magnitudes of a pattern and of its successor, and `Fmt.roundMag` picks one of
these two by where the quotient lies from their midpoint. -/

namespace Sys2Proof

/-- Rounding goes down when the quotient is below the midpoint of its neighbours, up when it is above, and to the
even one at the midpoint. -/
theorem roundNat_cases (n d : Nat) :
    (roundNat n d = n / d ∧ (2 * n < (n / d + (n / d + 1)) * d ∨
      2 * n = (n / d + (n / d + 1)) * d ∧ n / d % 2 = 0)) ∨
    (roundNat n d = n / d + 1 ∧ ((n / d + (n / d + 1)) * d < 2 * n ∨
      2 * n = (n / d + (n / d + 1)) * d ∧ n / d % 2 = 1)) := by
  have hdm : n / d * d + n % d = n := Nat.div_add_mod' n d
  have hmid : (n / d + (n / d + 1)) * d = 2 * (n / d * d) + d := by ring
  rw [hmid, roundNat]
  split
  · exact .inr ⟨rfl, by omega⟩
  · exact .inl ⟨rfl, by omega⟩

namespace Fmt

variable (f : Fmt)

/-- The magnitude of a normal pattern, by its fraction and its exponent field. -/
theorem unitsOf_normal (e : Nat) {j : Nat} (hj : j < 2 ^ (f.prec - 1)) :
    unitsOf f (j + 2 ^ (f.prec - 1) * (e + 1)) = (2 ^ (f.prec - 1) + j) * 2 ^ e := by
  have hpos : 0 < 2 ^ (f.prec - 1) := by positivity
  simp [unitsOf, Nat.add_mul_div_left _ _ hpos, Nat.div_eq_of_lt hj, Nat.mod_eq_of_lt hj]

/-- The magnitude at `k` steps of `2 ^ e` units in a binade (`e = 0` takes the subnormals in), the first magnitude of
the next binade included. -/
theorem unitsOf_binade {e k : Nat} (hlo : e = 0 ∨ 2 ^ (f.prec - 1) ≤ k) (hhi : k ≤ 2 * 2 ^ (f.prec - 1)) :
    unitsOf f (e * 2 ^ (f.prec - 1) + k) = k * 2 ^ e := by
  rcases lt_or_ge k (2 ^ (f.prec - 1)) with hk | hk
  · obtain rfl : e = 0 := by omega
    simp [unitsOf, Nat.div_eq_of_lt hk, Nat.mod_eq_of_lt hk]
  obtain ⟨j, rfl⟩ := Nat.exists_eq_add_of_le hk
  rcases lt_or_ge j (2 ^ (f.prec - 1)) with hj | hj
  · rw [← unitsOf_normal f e hj]
    congr 1
    ring
  · obtain rfl : j = 2 ^ (f.prec - 1) := by omega
    calc unitsOf f (e * 2 ^ (f.prec - 1) + (2 ^ (f.prec - 1) + 2 ^ (f.prec - 1)))
        = unitsOf f (0 + 2 ^ (f.prec - 1) * (e + 1 + 1)) := by congr 1; ring
      _ = (2 ^ (f.prec - 1) + 0) * 2 ^ (e + 1) := unitsOf_normal f (e + 1) (by positivity)
      _ = (2 ^ (f.prec - 1) + 2 ^ (f.prec - 1)) * 2 ^ e := by ring

/-- Every pattern lies in a binade. -/
theorem exists_binade (m : Nat) : ∃ e k, m = e * 2 ^ (f.prec - 1) + k ∧
    (e = 0 ∨ 2 ^ (f.prec - 1) ≤ k) ∧ k < 2 * 2 ^ (f.prec - 1) := by
  have hpos : 0 < 2 ^ (f.prec - 1) := by positivity
  have hdm := Nat.div_add_mod' m (2 ^ (f.prec - 1))
  have hmod := Nat.mod_lt m hpos
  cases hq : m / 2 ^ (f.prec - 1) with
  | zero => exact ⟨0, m, by omega, .inl rfl, by rw [hq] at hdm; omega⟩
  | succ e =>
    rw [hq, Nat.succ_mul] at hdm
    exact ⟨e, 2 ^ (f.prec - 1) + m % 2 ^ (f.prec - 1), by omega, by omega, by omega⟩

theorem unitsOf_strictMono : StrictMono (unitsOf f) := by
  refine strictMono_nat_of_lt_succ fun m => ?_
  obtain ⟨e, k, rfl, hlo, hhi⟩ := exists_binade f m
  rw [add_assoc, unitsOf_binade f hlo hhi.le, unitsOf_binade f (k := k + 1) (by omega) hhi]
  exact Nat.mul_lt_mul_of_pos_right k.lt_succ_self (by positivity)

/-- The steps of the last place in a quotient fill a binade. -/
theorem div_ulp_binade (q : Nat) :
    (ulpExp f q = 0 ∨ 2 ^ (f.prec - 1) ≤ q / 2 ^ ulpExp f q) ∧
      q / 2 ^ ulpExp f q < 2 * 2 ^ (f.prec - 1) := by
  constructor
  · rcases Nat.eq_zero_or_pos (ulpExp f q) with he | he
    · exact .inl he
    · have hlog : f.prec - 1 + ulpExp f q = Nat.log2 q := by unfold ulpExp at he ⊢; omega
      have hq : q ≠ 0 := by rintro rfl; simp [ulpExp] at he
      refine .inr ((Nat.le_div_iff_mul_le (by positivity)).2 ?_)
      rw [← pow_add, hlog]
      exact Nat.log2_self_le hq
  · rw [Nat.div_lt_iff_lt_mul (by positivity), ← pow_succ', ← pow_add]
    calc q < 2 ^ (Nat.log2 q + 1) := Nat.lt_log2_self
      _ ≤ 2 ^ (f.prec - 1 + 1 + ulpExp f q) :=
        Nat.pow_le_pow_right (by decide) (by unfold ulpExp; omega)

/-- A quotient lies between the magnitudes of a pattern `lo` and its successor, and rounds, below the overflow, to
`lo` or to `lo + 1` by where it lies from their midpoint. -/
theorem roundMag_cases {f : Fmt} (hp : 2 ≤ f.prec) (n : Nat) {d : Nat} (hd : 0 < d) :
    ∃ lo, unitsOf f lo * d ≤ n ∧ n < unitsOf f (lo + 1) * d ∧
      ((roundMag f n d = min f.infBits lo ∧
          (2 * n < (unitsOf f lo + unitsOf f (lo + 1)) * d ∨
            2 * n = (unitsOf f lo + unitsOf f (lo + 1)) * d ∧ lo % 2 = 0)) ∨
        (roundMag f n d = min f.infBits (lo + 1) ∧
          ((unitsOf f lo + unitsOf f (lo + 1)) * d < 2 * n ∨
            2 * n = (unitsOf f lo + unitsOf f (lo + 1)) * d ∧ lo % 2 = 1))) := by
  obtain ⟨hlo, hhi⟩ := div_ulp_binade f (n / d)
  have hround : roundMag f n d = min f.infBits (ulpExp f (n / d) * 2 ^ (f.prec - 1) +
      roundNat n (d * 2 ^ ulpExp f (n / d))) := rfl
  generalize ulpExp f (n / d) = e at hlo hhi hround
  rw [Nat.div_div_eq_div_mul] at hlo hhi
  have hD : 0 < d * 2 ^ e := by positivity
  have hcases := roundNat_cases n (d * 2 ^ e)
  have hle : n / (d * 2 ^ e) * (d * 2 ^ e) ≤ n := Nat.div_mul_le_self n _
  have hlt : n < (n / (d * 2 ^ e) + 1) * (d * 2 ^ e) := by
    rw [mul_comm]
    exact Nat.lt_mul_div_succ n hD
  generalize n / (d * 2 ^ e) = k at hlo hhi hcases hle hlt
  have hU : unitsOf f (e * 2 ^ (f.prec - 1) + k) = k * 2 ^ e := unitsOf_binade f hlo hhi.le
  have hU' : unitsOf f (e * 2 ^ (f.prec - 1) + k + 1) = (k + 1) * 2 ^ e :=
    unitsOf_binade f (k := k + 1) (by omega) hhi
  have hmid : (k * 2 ^ e + (k + 1) * 2 ^ e) * d = (k + (k + 1)) * (d * 2 ^ e) := by ring
  have hparity : (e * 2 ^ (f.prec - 1) + k) % 2 = k % 2 := by
    have : 2 ∣ e * 2 ^ (f.prec - 1) := (dvd_pow_self 2 (by omega)).mul_left e
    omega
  refine ⟨e * 2 ^ (f.prec - 1) + k, ?_⟩
  rw [hround, hU, hU', hmid, hparity, mul_right_comm k, mul_right_comm (k + 1), mul_assoc k,
    mul_assoc (k + 1)]
  refine ⟨hle, hlt, ?_⟩
  rcases hcases with ⟨hr, hside⟩ | ⟨hr, hside⟩
  · exact .inl ⟨by rw [hr], hside⟩
  · exact .inr ⟨by rw [hr, add_assoc], hside⟩

/-- The pattern of infinity is even and not that of zero, so the largest finite number's is odd. -/
theorem infBits_pred_odd {f : Fmt} (hp : 2 ≤ f.prec) (he : 1 ≤ f.expBits) : (f.infBits - 1) % 2 = 1 := by
  have hpos : 0 < f.infBits := by
    have := Nat.one_lt_two_pow (n := f.expBits) (by omega)
    exact Nat.mul_pos (by omega) (by positivity)
  have heven : 2 ∣ f.infBits := (dvd_pow_self 2 (by omega)).mul_left _
  omega

/-- Rounding overflows exactly from the midpoint of the largest finite magnitude and its successor: the tie there goes
up, since the largest finite pattern is odd. -/
theorem roundMag_eq_infBits_iff {f : Fmt} (hp : 2 ≤ f.prec) (he : 1 ≤ f.expBits) (n : Nat) {d : Nat}
    (hd : 0 < d) : roundMag f n d = f.infBits ↔
      (unitsOf f (f.infBits - 1) + unitsOf f f.infBits) * d ≤ 2 * n := by
  have hodd := infBits_pred_odd hp he
  have hmono (a b : Nat) (h : a ≤ b) : unitsOf f a * d ≤ unitsOf f b * d :=
    Nat.mul_le_mul_right d ((unitsOf_strictMono f).monotone h)
  obtain ⟨lo, hle, hlt, hcases⟩ := roundMag_cases hp n hd
  simp only [add_mul] at hcases ⊢
  rcases lt_trichotomy (lo + 1) f.infBits with hfin | hlast | hover
  · have h1 := hmono (lo + 1) (f.infBits - 1) (by omega)
    have h2 := hmono (lo + 1) f.infBits (by omega)
    omega
  · rw [← hlast, Nat.add_sub_cancel] at hodd ⊢
    omega
  · have h1 := hmono (f.infBits - 1) lo (by omega)
    have h2 := hmono f.infBits lo (by omega)
    omega

/-- No finite magnitude is nearer to a quotient than what it rounds to, and where another is as near, the pattern of the
result is even. -/
theorem roundMag_nearest_even {f : Fmt} (hp : 2 ≤ f.prec) (n : Nat) {d : Nat} (hd : 0 < d)
    (hfin : roundMag f n d < f.infBits) (m : Nat) :
    |(n : Int) - (unitsOf f (roundMag f n d) * d : Nat)| ≤ |(n : Int) - (unitsOf f m * d : Nat)| ∧
      (m ≠ roundMag f n d →
        |(n : Int) - (unitsOf f (roundMag f n d) * d : Nat)| = |(n : Int) - (unitsOf f m * d : Nat)| →
        roundMag f n d % 2 = 0) := by
  have hmono : StrictMono fun a => unitsOf f a * d := (unitsOf_strictMono f).mul_const hd
  obtain ⟨lo, hle, hlt, hcases⟩ := roundMag_cases hp n hd
  simp only [add_mul] at hcases
  -- Below `lo` and above `lo + 1` the other magnitude is farther away than the neighbour on its side.
  have hm : m < lo ∧ unitsOf f m * d < unitsOf f lo * d ∨ m = lo ∨ m = lo + 1 ∨
      lo + 1 < m ∧ unitsOf f (lo + 1) * d < unitsOf f m * d := by
    have h1 := @hmono m lo
    have h2 := @hmono (lo + 1) m
    simp only at h1 h2
    omega
  rcases hcases with ⟨hr, hside⟩ | ⟨hr, hside⟩
  · obtain hr : roundMag f n d = lo := by omega
    simp only [hr, Int.abs_eq_natAbs]
    rcases hm with ⟨hne, hm⟩ | rfl | rfl | ⟨hne, hm⟩ <;> omega
  · obtain hr : roundMag f n d = lo + 1 := by omega
    simp only [hr, Int.abs_eq_natAbs]
    rcases hm with ⟨hne, hm⟩ | rfl | rfl | ⟨hne, hm⟩ <;> omega

end Fmt

/-- Settles O46, for the two formats from the facts about every format of two significand bits or more. -/
theorem roundingIsNearestEven : Obligations.RoundingIsNearestEven := by
  intro f hf n d hd
  have hp : 2 ≤ f.prec := by rcases hf with rfl | rfl <;> decide
  have he : 1 ≤ f.expBits := by rcases hf with rfl | rfl <;> decide
  exact ⟨Fmt.roundMag_eq_infBits_iff hp he n hd, fun hfin m _ =>
    Fmt.roundMag_nearest_even hp n hd hfin m⟩

end Sys2Proof
end

section
/-! What an instruction has done where it answers a next state (40_host_commands.md, 42_frame_datapath.md): one inversion
lemma for the micro-steps, one for SELECT and one for each host command. -/

namespace Sys2Proof.Machine

/-- What micro-step `i` can make of `s`: a write of working registers, of one word of the delay RAM, of one sample, of
CURSOR (ADV alone) or of the gains (SMOOTH alone). -/
inductive MicroEffect (s : State) (i : Instr) : State → Prop
  | working (l r lo ro : Option F32) (n : Nat) (hi : i ∉ [Instr.adv, .smooth]) :
      MicroEffect s i (State.drew { s with lin := l, rin := r, lout := lo, rout := ro } n)
  | buffer (o : Int) (v : F32) (lo ro : Option F32) (n : Nat) (hi : i ∉ [Instr.adv, .smooth]) :
      MicroEffect s i { (s.drew n).setBuf o v with lout := lo, rout := ro }
  | output (a : Nat) (v : F32) (n : Nat) (hi : i ∉ [Instr.adv, .smooth]) :
      MicroEffect s i (State.drew { s with samples := memWrite s.samples a v } n)
  | advance (hi : i = .adv) : MicroEffect s i { s with cursor := (s.cursor + 1) % s.bufSize }
  | smoothed (gw gd gm : F32) (n : Nat) (hi : i = .smooth) :
      MicroEffect s i (State.drew { s with gWet := gw, gDry := gd, gMaster := gm } n)

theorem microEffect_of_reflect {i : Instr} (hi : i ∉ [Instr.adv, .smooth]) {s t : State} {x : F32}
    {far m : Int} (h : reflect x far m s = .next t) : MicroEffect s i t := by
  obtain ⟨-, rfl⟩ := reflect_eq_next h
  exact .buffer m _ s.lout s.rout 5 hi

/-- Every micro-step that answers a next state has one of the five effects. -/
theorem microEffect_of_exec {i : Instr} (hi : isMicroStep i = true) {s t : State}
    (h : exec i s = .next t) : MicroEffect s i t := by
  cases i
  case construct | reset | runBlock | select | latch | frame | derive | clear => cases hi
  case input =>
    cases h
    exact .working _ _ s.lout s.rout 2 (by decide)
  case sameL | sameR | diffL | diffR =>
    obtain ⟨x, -, h⟩ := withReg_eq_next.1 h
    exact microEffect_of_reflect (by decide) h
  case combL =>
    simp only [exec, execCombL] at h
    cases comb_eq_next h
    exact .working s.lin s.rin _ s.rout 7 (by decide)
  case combR =>
    simp only [exec, execCombR] at h
    cases comb_eq_next h
    exact .working s.lin s.rin s.lout _ 7 (by decide)
  case apf1L | apf2L =>
    obtain ⟨x, -, h⟩ := withReg_eq_next.1 h
    obtain ⟨-, -, h⟩ := apf_eq_next h
    cases h
    exact .buffer _ _ _ s.rout 4 (by decide)
  case apf1R | apf2R =>
    obtain ⟨x, -, h⟩ := withReg_eq_next.1 h
    obtain ⟨-, -, h⟩ := apf_eq_next h
    cases h
    exact .buffer _ _ s.lout _ 4 (by decide)
  case adv =>
    cases h
    exact .advance rfl
  case smooth =>
    cases h
    exact .smoothed _ _ _ 9 rfl
  case mixL | mixR =>
    obtain ⟨wet, -, h⟩ := withReg_eq_next.1 h
    obtain ⟨dry, -, h⟩ := withReg_eq_next.1 h
    cases h
    exact .output _ _ 4 (by decide)

/-- The micro-steps of `microProgram` by their instructions (30_encoding.md R95). -/
def microInstrs : List (BitVec 4 × Instr) :=
  [(0x0#4, .input), (0x1#4, .sameL), (0x2#4, .sameR), (0x3#4, .diffL), (0x4#4, .diffR), (0x5#4, .combL),
   (0x6#4, .combR), (0x7#4, .apf1L), (0x8#4, .apf1R), (0x9#4, .apf2L), (0xA#4, .apf2R), (0xB#4, .adv),
   (0xC#4, .smooth), (0xD#4, .mixL), (0xE#4, .mixR)]

theorem microProgram_eq_map : microProgram = microInstrs.map fun p => (p.1, exec p.2) := rfl

theorem isMicroStep_of_mem_microInstrs : ∀ p ∈ microInstrs, isMicroStep p.2 = true := by decide

/-- What every effect of a micro-step keeps, a FRAME keeps. -/
theorem execFrame_keeps {P : State → Prop} (hu : ∀ s c, P s → P (s.atUstep c))
    (hw : ∀ s, P s → P s.clearWorking) (hm : ∀ i s t, MicroEffect s i t → P s → P t) {s t : State}
    (hs : P s) (h : execFrame s = .next t) : P t := by
  obtain ⟨u, hrun, rfl⟩ := execFrame_eq_next.1 h
  refine hw u (runMicro_keeps hu (fun p hp a b ha hb => ?_) _ u (hw s hs) hrun)
  rw [microProgram_eq_map] at hp
  obtain ⟨q, hq, rfl⟩ := List.mem_map.1 hp
  exact hm q.2 a b (microEffect_of_exec (isMicroStep_of_mem_microInstrs q hq) hb) ha

/-- A list of micro-steps moves CURSOR once for each ADV in it, and keeps B. -/
theorem runMicro_cursor {l : List (BitVec 4 × Instr)} (hl : ∀ p ∈ l, isMicroStep p.2 = true) {s t : State}
    (h : runMicro (l.map fun p => (p.1, exec p.2)) s = .next t) :
    t.bufSize = s.bufSize ∧
      t.cursor = (fun c => (c + 1) % s.bufSize)^[l.countP (·.2 = .adv)] s.cursor := by
  induction l generalizing s with
  | nil =>
    cases h
    exact ⟨rfl, rfl⟩
  | cons p l ih =>
    obtain ⟨u, hu, h⟩ := andThen_eq_next.1 h
    obtain ⟨hb, hc⟩ := ih (fun q hq => hl q (List.mem_cons_of_mem p hq)) h
    rw [hb, hc, List.countP_cons]
    cases microEffect_of_exec (hl p List.mem_cons_self) hu with
    | working _ _ _ _ _ hi | buffer _ _ _ _ _ hi | output _ _ _ hi | smoothed _ _ _ _ hi =>
      have hp : p.2 ≠ .adv := by rintro he; simp [he] at hi
      simp [hp]
    | advance hi => simp [hi, Function.iterate_succ_apply]

/-- A FRAME advances CURSOR once (42_frame_datapath.md R195). -/
theorem execFrame_cursor {s t : State} (h : execFrame s = .next t) :
    t.cursor = (s.cursor + 1) % s.bufSize := by
  obtain ⟨u, hrun, rfl⟩ := execFrame_eq_next.1 h
  rw [microProgram_eq_map] at hrun
  exact (runMicro_cursor isMicroStep_of_mem_microInstrs hrun).2

/-- SELECT keeps the state, derives a valid new index, or records an invalid one (R124). -/
theorem execSelect_cases {s t : State} (h : execSelect s = .next t) :
    t = s ∨ s.ports.presetIn ≠ s.active ∧
      ((∃ e, catalogEntry? s.catalog s.ports.presetIn = some e ∧ t = s.deriveEntry s.ports.presetIn e) ∨
        (validPreset s.catalog s.ports.presetIn = false ∧
          t = s.raise (.presetInvalid s.ports.presetIn))) := by
  unfold execSelect selectPreset at h
  split at h
  · cases h
    exact .inl rfl
  · rename_i hne
    split at h
    · exact .inr ⟨hne, .inl (derive_eq_next.1 h)⟩
    · rename_i hv
      cases h
      exact .inr ⟨hne, .inr ⟨Bool.eq_false_iff.2 hv, rfl⟩⟩

/-- The state a successful CONSTRUCT leaves (R121). -/
def State.constructed (s : State) : State :=
  { s.configure.deriveEntry 0#32 s.catalog.first with phase := .idle, life := .ready }

theorem derive_zero_configure (s : State) :
    derive 0#32 s.configure = .next (s.configure.deriveEntry 0#32 s.catalog.first) :=
  derive_eq_next.2 ⟨_, catalogEntry?_zero _, rfl⟩

/-- CONSTRUCT succeeds where its three checks do (R121, R229). -/
theorem execConstruct_of_valid {s : State} (hp : s.phase = .idle) (hl : s.life = .unconstructed)
    (hr : rateValid s.ports.rate = true) (hk : s.ports.capsOk = true)
    (hc : capacityTooLarge s.catalog (stretchOf s.ports.rate) = false) :
    execConstruct s = .next s.constructed := by
  simp only [execConstruct, whenLife_of_ready hp hl, hr, hk, hc, derive_zero_configure, andThen_next]
  rfl

/-- CONSTRUCT is refused, fails, or passes its three checks and succeeds (R120, R121). -/
theorem execConstruct_cases {s t : State} (h : execConstruct s = .next t) :
    s.phase = .idle ∧
      ((s.life ≠ .unconstructed ∧ t = s.refuse) ∨
        (s.life = .unconstructed ∧ ∃ e, e ≠ .none ∧ t = s.failConstruct e) ∨
        (s.life = .unconstructed ∧ rateValid s.ports.rate = true ∧
          capacityTooLarge s.catalog (stretchOf s.ports.rate) = false ∧ t = s.constructed)) := by
  obtain ⟨hp, ⟨hl, hk⟩ | ⟨hl, rfl⟩⟩ := whenLife_eq_next.1 h
  · refine ⟨hp, .inr ?_⟩
    split at hk
    · cases hk
      exact .inl ⟨hl, .badRate, by decide, rfl⟩
    split at hk
    · cases hk
      exact .inl ⟨hl, .noCapability, by decide, rfl⟩
    split at hk
    · cases hk
      exact .inl ⟨hl, .capacity, by decide, rfl⟩
    · rename_i hr hcaps hcap
      simp only [Bool.not_eq_true', Bool.not_eq_true, Bool.not_eq_false] at hr hcaps hcap
      rw [execConstruct_of_valid hp hl hr hcaps hcap] at h
      cases h
      exact .inr ⟨hl, hr, hcap, rfl⟩
  · exact ⟨hp, .inl ⟨hl, rfl⟩⟩

/-- RESET takes effect where LIFE is READY and is refused elsewhere (R122). -/
theorem execReset_eq_next {s t : State} :
    execReset s = .next t ↔ s.phase = .idle ∧
      (s.life = .ready ∧ t = { s.clearRam with gWet := 0#32, gDry := 0#32, gMaster := 0#32 } ∨
        s.life ≠ .ready ∧ t = s.refuse) := by
  rw [execReset, whenLife_eq_next, Host.Outcome.next.injEq, eq_comm (b := t)]

/-- RUN_BLOCK is refused, or runs its body where LIFE is READY (R123). -/
theorem execRunBlock_cases {n : BitVec 24} {s t : State} (h : execRunBlock n s = .next t) :
    s.phase = .idle ∧ (t = s.refuse ∨ s.life = .ready ∧ runBlockBody n.toNat s = .next t) := by
  obtain ⟨hp, ⟨hl, hk⟩ | ⟨-, rfl⟩⟩ := whenLife_eq_next.1 h
  · refine ⟨hp, ?_⟩
    split at hk
    · cases hk
      exact .inl rfl
    split at hk
    · cases hk
      exact .inl rfl
    · exact .inr ⟨hl, hk⟩
  · exact ⟨hp, .inl rfl⟩

end Sys2Proof.Machine
end

section
/-! The two sides of an operation's effect: what it does to the registers outside the reach of a block's LATCH and frames
(`State.outsideBlock`), and that it keeps the memories canonical and inside their bounds (`State.KeepsMemory`). -/

namespace Sys2Proof.Machine

/-- The registers that CONSTRUCT and DERIVE set up, the others as at reset. -/
def State.setup (s : State) : State :=
  { State.reset with
    life := s.life, fi := s.fi, fn := s.fn, cfgErr := s.cfgErr, rate := s.rate, capsOk := s.capsOk
    catalog := s.catalog, cap := s.cap, active := s.active, raw := s.raw, span := s.span
    stretch := s.stretch, params := s.params, bufSize := s.bufSize, fns := s.fns }

/-- The registers that no LATCH, no frame and no move of the sequencer writes, the others as at reset. -/
def State.outsideBlock (s : State) : State :=
  { s.setup with rf := s.rf, diag := s.diag, lastInv := s.lastInv, ports := s.ports, pending := s.pending }

/-- The same registers outside a block, one by one. -/
theorem outsideBlock_eq_iff {s t : State} :
    t.outsideBlock = s.outsideBlock ↔
      t.life = s.life ∧ t.fi = s.fi ∧ t.fn = s.fn ∧ t.rf = s.rf ∧ t.cfgErr = s.cfgErr ∧ t.diag = s.diag ∧
        t.lastInv = s.lastInv ∧ t.rate = s.rate ∧ t.capsOk = s.capsOk ∧ t.catalog = s.catalog ∧
        t.cap = s.cap ∧ t.active = s.active ∧ t.raw = s.raw ∧ t.span = s.span ∧ t.stretch = s.stretch ∧
        t.params = s.params ∧ t.bufSize = s.bufSize ∧ t.ports = s.ports ∧ t.pending = s.pending ∧
        t.fns = s.fns := by
  simp [State.outsideBlock, State.setup]

theorem setup_eq_of_outsideBlock_eq {s t : State} (h : t.outsideBlock = s.outsideBlock) :
    t.setup = s.setup :=
  (congrArg State.setup h :)

/-- A derivation reads nothing that a block's start writes. -/
theorem outsideBlock_deriveEntry_startBlock (s : State) (n : Nat) (p : BitVec 32) (e : CatalogEntry) :
    ((s.startBlock n).deriveEntry p e).outsideBlock = (s.deriveEntry p e).outsideBlock := by
  simp only [deriveEntry_eq]
  rfl

theorem bufSizeOf_pos (span : BitVec 32) (s : F64) : 0 < bufSizeOf span s := by
  obtain ⟨k, hk⟩ := bufSizeOf_eq_pow span s
  rw [hk]
  positivity

/-- From `s` to `t` the memories stay canonical, the RAM's words stay below B and CURSOR stays in [0, B). -/
structure State.KeepsMemory (s t : State) : Prop where
  cursor : s.cursor < s.bufSize → t.cursor < t.bufSize
  bufSize : 0 < s.bufSize → 0 < t.bufSize
  ramWf : memWf s.ram = true → memWf t.ram = true
  samplesWf : memWf s.samples = true → memWf t.samples = true
  ramBelowB : 0 < s.bufSize → (∀ c ∈ s.ram, c.1 < s.bufSize) → ∀ c ∈ t.ram, c.1 < t.bufSize

namespace State.KeepsMemory

variable {s t u : State}

theorem refl (s : State) : s.KeepsMemory s := ⟨id, id, id, id, fun _ => id⟩

theorem trans (h : s.KeepsMemory t) (g : t.KeepsMemory u) : s.KeepsMemory u where
  cursor := g.cursor ∘ h.cursor
  bufSize := g.bufSize ∘ h.bufSize
  ramWf := g.ramWf ∘ h.ramWf
  samplesWf := g.samplesWf ∘ h.samplesWf
  ramBelowB := fun hb => g.ramBelowB (h.bufSize hb) ∘ h.ramBelowB hb

/-- An operation that touches neither memory, CURSOR nor B. -/
theorem of_eq (hram : t.ram = s.ram) (hsamples : t.samples = s.samples) (hcursor : t.cursor = s.cursor)
    (hbufSize : t.bufSize = s.bufSize) : s.KeepsMemory t := by
  constructor <;> simp [hram, hsamples, hcursor, hbufSize]

/-- An operation that clears the RAM and CURSOR, whatever B it installs. -/
theorem of_cleared (hram : t.ram = []) (hsamples : t.samples = s.samples) (hcursor : t.cursor = 0)
    (hbufSize : 0 < s.bufSize → 0 < t.bufSize) : s.KeepsMemory t where
  cursor := fun h => hcursor ▸ hbufSize (Nat.zero_lt_of_lt h)
  bufSize := hbufSize
  ramWf := fun _ => hram ▸ rfl
  samplesWf := fun h => hsamples ▸ h
  ramBelowB := by simp [hram]

theorem deriveEntry (s : State) (p : BitVec 32) (e : CatalogEntry) : s.KeepsMemory (s.deriveEntry p e) := by
  rw [deriveEntry_eq]
  exact of_cleared rfl rfl rfl fun _ => bufSizeOf_pos _ _

theorem of_microEffect {i : Instr} (h : MicroEffect s i t) : s.KeepsMemory t := by
  cases h with
  | working | smoothed => exact of_eq rfl rfl rfl rfl
  | buffer o v =>
    refine { refl s with
      ramWf := fun hm => memWf_memWrite hm _ _
      ramBelowB := fun hb hbelow c hc => ?_ }
    rcases fst_mem_memWrite c hc with heq | hmem
    · rw [heq]
      exact bufAddr_lt hb o
    · exact hbelow c hmem
  | output a v => exact { refl s with samplesWf := fun hm => memWf_memWrite hm _ _ }
  | advance => exact { refl s with cursor := fun h => Nat.mod_lt _ (Nat.zero_lt_of_lt h) }

end State.KeepsMemory

/-- What LATCH, the frames and the sequencer's moves may do. -/
structure State.EngineStep (s t : State) : Prop where
  outside : t.outsideBlock = s.outsideBlock
  memory : s.KeepsMemory t

namespace State.EngineStep

variable {s t u : State}

theorem refl (s : State) : s.EngineStep s := ⟨rfl, .refl s⟩

theorem trans (h : s.EngineStep t) (g : t.EngineStep u) : s.EngineStep u :=
  ⟨g.outside.trans h.outside, h.memory.trans g.memory⟩

/-- An operation that touches neither memory nor CURSOR. -/
theorem of_eq (houtside : t.outsideBlock = s.outsideBlock) (hram : t.ram = s.ram)
    (hsamples : t.samples = s.samples) (hcursor : t.cursor = s.cursor) : s.EngineStep t :=
  ⟨houtside, .of_eq hram hsamples hcursor (congrArg State.bufSize houtside :)⟩

/-- The same, before the operation. -/
theorem of_start (h : t.EngineStep u) (houtside : t.outsideBlock = s.outsideBlock) (hram : t.ram = s.ram)
    (hsamples : t.samples = s.samples) (hcursor : t.cursor = s.cursor) : s.EngineStep u :=
  (of_eq houtside hram hsamples hcursor).trans h

theorem of_microEffect {i : Instr} (h : MicroEffect s i t) : s.EngineStep t :=
  ⟨by cases h <;> rfl, .of_microEffect h⟩

theorem clearWorking (s : State) : s.EngineStep s.clearWorking := .of_eq rfl rfl rfl rfl

theorem of_execLatch (h : execLatch s = .next t) : s.EngineStep t := by
  cases h
  exact .of_eq rfl rfl rfl rfl

theorem of_execFrame (h : execFrame s = .next t) : s.EngineStep t :=
  execFrame_keeps (P := s.EngineStep) (fun _ _ ha => ha.trans (.of_eq rfl rfl rfl rfl))
    (fun a ha => ha.trans (.clearWorking a)) (fun _ _ _ hm ha => ha.trans (.of_microEffect hm)) (.refl s) h

theorem of_runFrames {n : Nat} (h : runFrames n s = .next t) : s.EngineStep t :=
  runFrames_keeps (P := s.EngineStep) (fun _ ha => ha.trans (.of_eq rfl rfl rfl rfl))
    (fun _ _ ha hf => ha.trans (.of_execFrame hf)) n s t (.refl s) h

/-- The sequencer's move after an internal operation (R43). -/
theorem advance (s : State) : s.EngineStep s.advance := by
  unfold State.advance
  split
  · split
    · split <;> exact .of_eq rfl rfl rfl rfl
    · exact .of_eq rfl rfl rfl rfl
  · split <;> exact .of_eq rfl rfl rfl rfl

end State.EngineStep

/-- The body of RUN_BLOCK is its SELECT, then LATCH and the frames, and ends in IDLE (R123). -/
theorem runBlockBody_cases {n : Nat} {s t : State} (h : runBlockBody n s = .next t) :
    t.phase = .idle ∧ ∃ u, execSelect (s.startBlock n) = .next u ∧ u.EngineStep t := by
  obtain ⟨u, hselect, h⟩ := andThen_eq_next.1 h
  obtain ⟨v, hlatch, h⟩ := andThen_eq_next.1 h
  obtain ⟨w, hframes, h⟩ := andThen_eq_next.1 h
  cases h
  have hv : u.EngineStep v := (State.EngineStep.of_execLatch hlatch).of_start rfl rfl rfl rfl
  have hw : v.EngineStep w := (State.EngineStep.of_runFrames hframes).of_start rfl rfl rfl rfl
  exact ⟨rfl, u, hselect, (hv.trans hw).trans (.of_eq rfl rfl rfl rfl)⟩

namespace State.KeepsMemory

variable {s t : State}

theorem of_execSelect (h : execSelect s = .next t) : s.KeepsMemory t := by
  rcases execSelect_cases h with rfl | ⟨-, ⟨e, -, rfl⟩ | ⟨-, rfl⟩⟩
  · exact .refl t
  · exact .deriveEntry s _ e
  · exact .of_eq rfl rfl rfl rfl

/-- Every instruction keeps the memories canonical and inside their bounds. -/
theorem of_exec {i : Instr} (h : exec i s = .next t) : s.KeepsMemory t := by
  cases i
  case construct =>
    rcases (execConstruct_cases h).2 with ⟨-, rfl⟩ | ⟨-, e, -, rfl⟩ | ⟨-, -, -, rfl⟩
    · exact .of_eq rfl rfl rfl rfl
    · exact .of_eq rfl rfl rfl rfl
    · rw [State.constructed, deriveEntry_eq]
      exact .of_cleared rfl rfl rfl fun _ => bufSizeOf_pos _ _
  case reset =>
    rcases (execReset_eq_next.1 h).2 with ⟨-, rfl⟩ | ⟨-, rfl⟩
    · exact .of_cleared rfl rfl rfl id
    · exact .of_eq rfl rfl rfl rfl
  case runBlock n =>
    rcases (execRunBlock_cases h).2 with rfl | ⟨-, h⟩
    · exact .of_eq rfl rfl rfl rfl
    · obtain ⟨-, u, hselect, hrun⟩ := runBlockBody_cases h
      have hstart : s.KeepsMemory (s.startBlock n.toNat) := .of_eq rfl rfl rfl rfl
      exact (hstart.trans (.of_execSelect hselect)).trans hrun.memory
  case select => exact .of_execSelect h
  case latch => exact (EngineStep.of_execLatch h).memory
  case frame => exact (EngineStep.of_execFrame h).memory
  case derive =>
    obtain ⟨e, -, rfl⟩ := derive_eq_next.1 h
    exact .deriveEntry s _ e
  case clear =>
    cases h
    exact .of_cleared rfl rfl rfl id
  all_goals exact .of_microEffect (microEffect_of_exec rfl h)

end State.KeepsMemory

/-- What instruction `i` can do to the registers outside a block's reach. -/
inductive SetupEffect (s : State) (i : Instr) (t : State) : Prop
  | engine (hi : i ≠ .construct) (h : t.outsideBlock = s.outsideBlock)
  | refused (hi : isHostCommand i = true) (h : t = s.refuse)
  | derived (e : CatalogEntry)
      (hi : i = .derive ∨ (i = .select ∨ (∃ n, i = .runBlock n) ∧ s.life = .ready) ∧
        s.ports.presetIn ≠ s.active)
      (he : catalogEntry? s.catalog s.ports.presetIn = some e)
      (h : t.outsideBlock = (s.deriveEntry s.ports.presetIn e).outsideBlock)
  | invalid (hi : i = .select ∨ ∃ n, i = .runBlock n) (hne : s.ports.presetIn ≠ s.active)
      (hv : validPreset s.catalog s.ports.presetIn = false)
      (h : t.outsideBlock = (s.raise (.presetInvalid s.ports.presetIn)).outsideBlock)
  | failed (e : CfgErr) (hi : i = .construct) (hl : s.life = .unconstructed) (he : e ≠ .none)
      (h : t = s.failConstruct e)
  | constructed (hi : i = .construct) (hl : s.life = .unconstructed)
      (hr : rateValid s.ports.rate = true)
      (hc : capacityTooLarge s.catalog (stretchOf s.ports.rate) = false) (h : t = s.constructed)

theorem setupEffect_of_execRunBlock {n : BitVec 24} {s t : State} (h : execRunBlock n s = .next t) :
    SetupEffect s (.runBlock n) t := by
  rcases (execRunBlock_cases h).2 with rfl | ⟨hl, h⟩
  · exact .refused rfl rfl
  obtain ⟨-, u, hselect, hrun⟩ := runBlockBody_cases h
  rcases execSelect_cases hselect with rfl | ⟨hne, ⟨e, he, rfl⟩ | ⟨hv, rfl⟩⟩
  · exact .engine nofun hrun.outside
  · exact .derived e (.inr ⟨.inr ⟨⟨n, rfl⟩, hl⟩, hne⟩) he
      (hrun.outside.trans (outsideBlock_deriveEntry_startBlock s _ _ e))
  · exact .invalid (.inr ⟨n, rfl⟩) hne hv hrun.outside

theorem setupEffect_of_exec {i : Instr} {s t : State} (h : exec i s = .next t) : SetupEffect s i t := by
  cases i
  case construct =>
    rcases (execConstruct_cases h).2 with ⟨-, rfl⟩ | ⟨hl, e, he, rfl⟩ | ⟨hl, hr, hc, rfl⟩
    · exact .refused rfl rfl
    · exact .failed e rfl hl he rfl
    · exact .constructed rfl hl hr hc rfl
  case reset =>
    rcases (execReset_eq_next.1 h).2 with ⟨-, rfl⟩ | ⟨-, rfl⟩
    · exact .engine nofun rfl
    · exact .refused rfl rfl
  case runBlock n => exact setupEffect_of_execRunBlock h
  case select =>
    rcases execSelect_cases h with rfl | ⟨hne, ⟨e, he, rfl⟩ | ⟨hv, rfl⟩⟩
    · exact .engine nofun rfl
    · exact .derived e (.inr ⟨.inl rfl, hne⟩) he rfl
    · exact .invalid (.inl rfl) hne hv rfl
  case latch => exact .engine nofun (State.EngineStep.of_execLatch h).outside
  case frame => exact .engine nofun (State.EngineStep.of_execFrame h).outside
  case derive =>
    obtain ⟨e, he, rfl⟩ := derive_eq_next.1 h
    exact .derived e (.inl rfl) he rfl
  case clear =>
    cases h
    exact .engine nofun rfl
  all_goals exact .engine nofun (State.EngineStep.of_microEffect (microEffect_of_exec rfl h)).outside

end Sys2Proof.Machine
end

section
/-! The invariant of the machine (10_state.md R31, R32, R35, R42, R49, R67): the part that the registers of `State.setup` decide,
the memories, and the sequencer's registers, each kept by every step. -/

namespace Sys2Proof.Machine

/-- No size of the catalog exceeds CAP (R158). -/
theorem bufSizeOf_le_capacityOf {c : Catalog} {e : CatalogEntry} (he : e ∈ catalogEntries c) (s : F64) :
    bufSizeOf e.span s ≤ capacityOf c s := by
  unfold capacityOf
  generalize catalogEntries c = l at he
  induction l with
  | nil => cases he
  | cons d l ih =>
    rw [List.foldr_cons]
    rcases List.mem_cons.1 he with rfl | he
    · exact le_max_left _ _
    · exact (ih he).trans (le_max_right _ _)

theorem capacityOf_le_capMax {c : Catalog} {s : F64} (h : capacityTooLarge c s = false) :
    capacityOf c s ≤ Config.capMax := by
  simp only [capacityTooLarge, Bool.or_eq_false_iff, decide_eq_false_iff_not, not_lt] at h
  exact h.2

/-- The part of the invariant that speaks of the registers of `State.setup` alone. -/
structure State.SetupInv (s : State) : Prop where
  pow2 : ∃ k, s.bufSize = 2 ^ k
  leCap : s.bufSize ≤ s.cap
  cfgErr : s.cfgErr = .none ↔ s.life ≠ .failed
  noFault : s.life ≠ .ready → s.fi = false ∧ s.fn = false
  ready : s.life = .ready → s.Derived

theorem derived_setup_iff {s : State} : s.setup.Derived ↔ s.Derived :=
  ⟨fun ⟨hr, hk, hc, hm, he, hs, hp, hb, hi, hn⟩ => ⟨hr, hk, hc, hm, he, hs, hp, hb, hi, hn⟩,
    fun ⟨hr, hk, hc, hm, he, hs, hp, hb, hi, hn⟩ => ⟨hr, hk, hc, hm, he, hs, hp, hb, hi, hn⟩⟩

theorem setupInv_setup_iff {s : State} : s.setup.SetupInv ↔ s.SetupInv :=
  ⟨fun ⟨hp, hc, he, hf, hr⟩ => ⟨hp, hc, he, hf, derived_setup_iff.1 ∘ hr⟩,
    fun ⟨hp, hc, he, hf, hr⟩ => ⟨hp, hc, he, hf, derived_setup_iff.2 ∘ hr⟩⟩

theorem State.SetupInv.congr {s t : State} (hs : s.SetupInv) (h : t.setup = s.setup) : t.SetupInv :=
  setupInv_setup_iff.1 (h ▸ setupInv_setup_iff.2 hs)

/-- A derivation within a valid configuration, from cleared fault bits or not (R150, R159, R160). -/
theorem derived_deriveEntry {s : State} {p : BitVec 32} {e : CatalogEntry} (hr : rateValid s.rate = true)
    (hk : s.capsOk = true) (hc : s.cap = capacityOf s.catalog (stretchOf s.rate))
    (hm : s.cap ≤ Config.capMax) (he : catalogEntry? s.catalog p = some e) :
    (s.deriveEntry p e).Derived := by
  rw [deriveEntry_eq]
  constructor
  case rate => exact hr
  case caps => exact hk
  case cap => exact hc
  case capMax => exact hm
  case entry => exact ⟨e, he, rfl, rfl⟩
  case stretch | params | bufSize => rfl
  case fault | numeric =>
    intro h
    simpa using (Bool.or_eq_false_iff.1 h).2

theorem bufSize_deriveEntry_le_cap {s : State} {p : BitVec 32} {e : CatalogEntry}
    (hc : s.cap = capacityOf s.catalog (stretchOf s.rate)) (he : catalogEntry? s.catalog p = some e) :
    (s.deriveEntry p e).bufSize ≤ (s.deriveEntry p e).cap := by
  rw [deriveEntry_eq]
  exact hc ▸ bufSizeOf_le_capacityOf (mem_of_catalogEntry? he) _

theorem bufSize_deriveEntry_eq_pow (s : State) (p : BitVec 32) (e : CatalogEntry) :
    ∃ k, (s.deriveEntry p e).bufSize = 2 ^ k := by
  rw [deriveEntry_eq]
  exact bufSizeOf_eq_pow _ _

@[simp] theorem deriveEntry_life (s : State) (p : BitVec 32) (e : CatalogEntry) :
    (s.deriveEntry p e).life = s.life := by
  rw [deriveEntry_eq]

@[simp] theorem deriveEntry_cfgErr (s : State) (p : BitVec 32) (e : CatalogEntry) :
    (s.deriveEntry p e).cfgErr = s.cfgErr := by
  rw [deriveEntry_eq]

theorem setupInv_deriveEntry {s : State} (hs : s.SetupInv) (hl : s.life = .ready) {p : BitVec 32}
    {e : CatalogEntry} (he : catalogEntry? s.catalog p = some e) : (s.deriveEntry p e).SetupInv where
  pow2 := bufSize_deriveEntry_eq_pow s p e
  leCap := bufSize_deriveEntry_le_cap (hs.ready hl).cap he
  cfgErr := by simpa using hs.cfgErr
  noFault := by simp [hl]
  ready := fun _ =>
    have hd := hs.ready hl
    derived_deriveEntry hd.rate hd.caps hd.cap hd.capMax he

theorem setupInv_failConstruct {s : State} (hs : s.SetupInv) (hl : s.life = .unconstructed) {e : CfgErr}
    (he : e ≠ .none) : (s.failConstruct e).SetupInv where
  pow2 := hs.pow2
  leCap := hs.leCap
  cfgErr := by simp [he]
  noFault := fun _ => hs.noFault (by simp [hl])
  ready := nofun

theorem setupInv_constructed {s : State} (hr : rateValid s.ports.rate = true)
    (hc : capacityTooLarge s.catalog (stretchOf s.ports.rate) = false) : s.constructed.SetupInv where
  pow2 := bufSize_deriveEntry_eq_pow s.configure 0#32 s.catalog.first
  leCap := bufSize_deriveEntry_le_cap rfl (catalogEntry?_zero _)
  cfgErr := by simp [State.constructed]
  noFault := by simp [State.constructed]
  ready := fun _ =>
    have ⟨hr, hk, hc, hm, he, hs, hp, hb, hi, hn⟩ :=
      derived_deriveEntry (s := s.configure) hr rfl rfl (capacityOf_le_capMax hc) (catalogEntry?_zero _)
    ⟨hr, hk, hc, hm, he, hs, hp, hb, hi, hn⟩

/-- A host command, and an internal operation where LIFE is READY, keeps the part of the invariant on `State.setup`. -/
theorem setupInv_of_exec {i : Instr} {s t : State} (hs : s.SetupInv)
    (hi : isHostCommand i = true ∨ s.life = .ready) (h : exec i s = .next t) : t.SetupInv := by
  cases setupEffect_of_exec h with
  | engine _ h => exact hs.congr (setup_eq_of_outsideBlock_eq h)
  | refused _ h =>
    subst h
    exact hs.congr rfl
  | derived e hop he h =>
    have hl : s.life = .ready := by
      rcases hop with rfl | ⟨rfl | ⟨-, hl⟩, -⟩
      · simpa [isHostCommand] using hi
      · simpa [isHostCommand] using hi
      · exact hl
    exact (setupInv_deriveEntry hs hl he).congr (setup_eq_of_outsideBlock_eq h)
  | invalid _ _ _ h => exact hs.congr ((setup_eq_of_outsideBlock_eq h).trans rfl)
  | failed e _ hl he h =>
    subst h
    exact setupInv_failConstruct hs hl he
  | constructed _ _ hr hc h =>
    subst h
    exact setupInv_constructed hr hc

/-- Only CONSTRUCT writes LIFE. -/
theorem life_of_exec {i : Instr} {s t : State} (hi : i ≠ .construct) (h : exec i s = .next t) :
    t.life = s.life := by
  cases setupEffect_of_exec h with
  | engine _ h | invalid _ _ _ h => exact (congrArg State.life h :)
  | refused _ h => rw [h, refuse_life]
  | derived e _ _ h => exact (congrArg State.life h :).trans (deriveEntry_life s s.ports.presetIn e)
  | failed _ hc | constructed hc => exact absurd hc hi

/-- The registers of the sequencer (R42). -/
def State.sequencer (s : State) : Phase × BitVec 4 × BitVec 4 × Nat × Nat :=
  (s.phase, s.bstep, s.ustep, s.k, s.nblk)

/-- The internal operations that the sequencer issues by themselves leave its registers to its own moves. -/
theorem sequencer_of_exec {i : Instr}
    (hi : isMicroStep i = true ∨ i ∈ [Instr.select, .latch, .derive, .clear]) {s t : State}
    (h : exec i s = .next t) : t.sequencer = s.sequencer := by
  have hderive (p : BitVec 32) (e : CatalogEntry) : (s.deriveEntry p e).sequencer = s.sequencer := by
    rw [deriveEntry_eq]
    rfl
  rcases hi with hi | hi
  · cases microEffect_of_exec hi h <;> rfl
  · simp only [List.mem_cons, List.not_mem_nil, or_false] at hi
    rcases hi with rfl | rfl | rfl | rfl
    · rcases execSelect_cases h with rfl | ⟨-, ⟨e, -, rfl⟩ | ⟨-, rfl⟩⟩
      · rfl
      · exact hderive _ e
      · rfl
    · cases h
      rfl
    · obtain ⟨e, -, rfl⟩ := derive_eq_next.1 h
      exact hderive _ e
    · cases h
      rfl

/-- Legal codes and a frame left (R42, 30_encoding.md R104). -/
structure State.LegalSequencer (s : State) : Prop where
  bstep : s.bstep.toNat ≤ 4
  ustep : s.ustep.toNat ≤ 14
  k : s.k < s.nblk
  nblk : s.nblk ≤ Config.blockMax

theorem State.LegalSequencer.congr {s t : State} (hs : s.LegalSequencer) (h : t.sequencer = s.sequencer) :
    t.LegalSequencer := by
  simp only [State.sequencer, Prod.mk.injEq] at h
  obtain ⟨-, hb, hu, hk, hn⟩ := h
  constructor
  · exact hb ▸ hs.bstep
  · exact hu ▸ hs.ustep
  · exact hk ▸ hn ▸ hs.k
  · exact hn ▸ hs.nblk

/-- The sequencer's moves keep the codes legal while the block goes on (R43). -/
theorem legalSequencer_advance {s : State} (hs : s.LegalSequencer) (hp : s.advance.phase = .block) :
    s.advance.LegalSequencer := by
  obtain ⟨hb, hu, hk, hn⟩ := hs
  unfold State.advance at hp ⊢
  split_ifs at hp ⊢ with hframe hlast hmore hlatch
  · exact ⟨hb, by simp, by simpa, hn⟩
  · cases hp
  · have hne : s.ustep.toNat ≠ 14 := fun h => hlast (BitVec.eq_of_toNat_eq h)
    refine ⟨hb, ?_, hk, hn⟩
    simp only [atUstep_ustep, BitVec.toNat_add, BitVec.toNat_ofNat]
    omega
  · exact ⟨by simp, by simp, Nat.zero_lt_of_lt hk, hn⟩
  · exact ⟨by simp, hu, hk, hn⟩

theorem isHostCommand_of_decode {w : BitVec 32} {i : Instr} (h : decode (.h w) = .ok i) :
    isHostCommand i = true := by
  simp only [decode, decodeH] at h
  split_ifs at h <;> cases h <;> rfl

theorem isMicroStep_of_decode {c : BitVec 4} {i : Instr} (h : decode (.u c) = .ok i) :
    isMicroStep i = true := by
  simp only [decode, decodeU] at h
  split at h <;> cases h <;> rfl

theorem mem_of_decode_block {c : BitVec 4} (hc : c ≠ 0x2#4) {i : Instr} (h : decode (.i c) = .ok i) :
    i ∈ [Instr.select, .latch, .derive, .clear] := by
  simp only [decode, decodeI] at h
  split at h
  case h_3 heq => exact absurd (BitVec.eq_of_toNat_eq heq) hc
  all_goals cases h <;> simp

theorem State.Inv.setupInv {s : State} (h : s.Inv) : s.SetupInv :=
  ⟨h.pow2, h.leCap, h.cfgErr, h.noFault, h.ready⟩

theorem State.Inv.legalSequencer {s : State} (h : s.Inv) (hp : s.phase = .block) : s.LegalSequencer :=
  ⟨h.blockStep hp, h.microStep hp, (h.frames hp).1, (h.frames hp).2⟩

/-- The invariant after an operation, from its three parts. -/
theorem inv_of_parts {s t : State} (hs : s.Inv) (hsetup : t.SetupInv) (hmem : s.KeepsMemory t)
    (hlife : t.phase = .block → t.life = .ready) (hseq : t.phase = .block → t.LegalSequencer) : t.Inv where
  ramWf := hmem.ramWf hs.ramWf
  samplesWf := hmem.samplesWf hs.samplesWf
  ramBelowB := hmem.ramBelowB (Nat.zero_lt_of_lt hs.cursor) hs.ramBelowB
  pow2 := hsetup.pow2
  leCap := hsetup.leCap
  cursor := hmem.cursor hs.cursor
  cfgErr := hsetup.cfgErr
  noFault := hsetup.noFault
  ready := hsetup.ready
  blockReady := hlife
  blockStep := fun hp => (hseq hp).bstep
  microStep := fun hp => (hseq hp).ustep
  frames := fun hp => ⟨(hseq hp).k, (hseq hp).nblk⟩

/-- What the host presents keeps the invariant in IDLE (R93). -/
theorem inv_present {s : State} (hs : s.Inv) (hp : s.phase = .idle) (c : HostCommand)
    (rest : List HostCommand) : (s.present c rest).Inv :=
  inv_of_parts hs (hs.setupInv.congr rfl)
    { State.KeepsMemory.refl s with
      samplesWf := fun h => memWf_memWriteList (memWf_memWriteList h _ _) _ _ }
    (by simp [hp]) (by simp [hp])

/-- A host command ends in IDLE (R83). -/
theorem phase_of_exec_hostCommand {i : Instr} (hi : isHostCommand i = true) {s t : State}
    (h : exec i s = .next t) : t.phase = .idle := by
  cases i
  case construct =>
    obtain ⟨hp, ⟨-, rfl⟩ | ⟨-, e, -, rfl⟩ | ⟨-, -, -, rfl⟩⟩ := execConstruct_cases h
    · exact hp
    · exact hp
    · rfl
  case reset =>
    obtain ⟨hp, ⟨-, rfl⟩ | ⟨-, rfl⟩⟩ := execReset_eq_next.1 h <;> exact hp
  case runBlock n =>
    obtain ⟨hp, rfl | ⟨-, h⟩⟩ := execRunBlock_cases h
    · exact hp
    · exact (runBlockBody_cases h).1
  all_goals cases hi

/-- A host command keeps the invariant. -/
theorem inv_of_exec_hostCommand {i : Instr} (hi : isHostCommand i = true) {s t : State} (hs : s.Inv)
    (h : exec i s = .next t) : t.Inv := by
  have hp := phase_of_exec_hostCommand hi h
  exact inv_of_parts hs (setupInv_of_exec hs.setupInv (.inl hi) h) (.of_exec h) (by simp [hp])
    (by simp [hp])

/-- An internal operation of the sequencer, and its move after it, keep the invariant. -/
theorem inv_of_exec_internal {i : Instr}
    (hi : isMicroStep i = true ∨ i ∈ [Instr.select, .latch, .derive, .clear]) {s t : State} (hs : s.Inv)
    (hp : s.phase = .block) (h : exec i s = .next t) : t.advance.Inv := by
  have hl := hs.blockReady hp
  have hmove := State.EngineStep.advance t
  have hlife : t.life = .ready := by
    rw [life_of_exec ?_ h, hl]
    rintro rfl
    revert hi
    decide
  refine inv_of_parts hs ?_ ((State.KeepsMemory.of_exec h).trans hmove.memory) (fun _ => ?_) ?_
  · exact (setupInv_of_exec hs.setupInv (.inr hl) h).congr (setup_eq_of_outsideBlock_eq hmove.outside)
  · exact (congrArg State.life hmove.outside).trans hlife
  · exact legalSequencer_advance ((hs.legalSequencer hp).congr (sequencer_of_exec hi h))

/-- Settles O58: the host presents a command and runs it or refuses its word, or the sequencer runs an internal operation
and moves; each keeps the invariant. -/
theorem stepKeepsInvariant : Obligations.StepKeepsInvariant := by
  intro s t hs h
  rcases step_eq_next h with ⟨-, -, rfl⟩ | ⟨hp, c, rest, -, ⟨i, hd, hx⟩ | ⟨e, -, rfl⟩⟩ |
    ⟨hp, i, s1, s2, hf, hx, rfl⟩
  · exact hs
  · exact inv_of_exec_hostCommand (isHostCommand_of_decode hd) (inv_present hs hp c rest) hx
  · have hpresent := inv_present hs hp c rest
    exact inv_of_parts hpresent (hpresent.setupInv.congr rfl) (.of_eq rfl rfl rfl rfl) (by simp [hp])
      (by simp [hp])
  · rcases fetch_block hp hf with ⟨-, hd, rfl⟩ | ⟨hb, hd, rfl⟩
    · have hi := isMicroStep_of_decode hd
      split at hx
      · have hclear : s.clearWorking.Inv :=
          inv_of_parts hs (hs.setupInv.congr rfl) (.of_eq rfl rfl rfl rfl) hs.blockReady
            fun hp => (hs.legalSequencer hp).congr rfl
        exact inv_of_exec_internal (.inl hi) hclear hp hx
      · exact inv_of_exec_internal (.inl hi) hs hp hx
    · exact inv_of_exec_internal (.inr (mem_of_decode_block hb hd)) hs hp hx

/-- Settles O57: B = CAP = 1 with an empty RAM, and neither READY nor in a block. -/
theorem invariantAtReset : Obligations.InvariantAtReset where
  ramWf := rfl
  samplesWf := rfl
  ramBelowB := nofun
  pow2 := ⟨0, rfl⟩
  leCap := le_refl 1
  cursor := Nat.zero_lt_one
  cfgErr := by decide
  noFault := fun _ => ⟨rfl, rfl⟩
  ready := nofun
  blockReady := nofun
  blockStep := nofun
  microStep := nofun
  frames := nofun

end Sys2Proof.Machine
end

section
/-! Which instruction writes which register (10_state.md R21 to R38). -/

namespace Sys2Proof.Machine

/-- Settles O50, by what each kind of instruction does to the registers outside a block. -/
theorem onlyConstructConfigures : Obligations.OnlyConstructConfigures := by
  intro i s t hx
  cases setupEffect_of_exec hx with
  | engine _ h | invalid _ _ _ h =>
    rw [outsideBlock_eq_iff] at h
    simp [h, State.raise]
  | derived e _ _ h =>
    rw [outsideBlock_eq_iff, deriveEntry_eq] at h
    simp [h]
  | refused _ h => simp [h]
  | failed e hi hl _ h => simp [h, hi, hl]
  | constructed hi hl _ _ h => simp [h, hi, hl, State.constructed, deriveEntry_eq]

theorem samePreset_of_outsideBlock_eq {s t : State} (h : t.outsideBlock = s.outsideBlock) :
    Claims.SamePreset s t := by
  rw [outsideBlock_eq_iff] at h
  simp [Claims.SamePreset, h]

/-- The preset's registers, FI and FN stay, become those that DERIVE leaves, or are those that CONSTRUCT leaves. -/
theorem samePreset_cases {i : Instr} {s t : State} (hx : exec i s = .next t) :
    Claims.SamePreset s t ∨
      ((i = .derive ∨ (i = .select ∨ ∃ n, i = .runBlock n) ∧ s.ports.presetIn ≠ s.active) ∧
        validPreset s.catalog s.ports.presetIn = true ∧
        ∃ d, exec .derive s = .next d ∧ Claims.SamePreset d t) ∨
      (i = .construct ∧ s.life = .unconstructed ∧ t.life = .ready ∧ t.active = 0#32 ∧
        t.raw = s.catalog.first.words) := by
  cases setupEffect_of_exec hx with
  | engine _ h => exact .inl (samePreset_of_outsideBlock_eq h)
  | invalid _ _ _ h => exact .inl (samePreset_of_outsideBlock_eq (s := s.raise _) h)
  | refused _ h =>
    subst h
    exact .inl ⟨rfl, rfl, rfl, rfl, rfl, rfl, rfl, rfl⟩
  | failed e _ _ _ h =>
    subst h
    exact .inl ⟨rfl, rfl, rfl, rfl, rfl, rfl, rfl, rfl⟩
  | derived e hi he h =>
    refine .inr (.inl ⟨?_, catalogEntry?_isSome.1 ⟨e, he⟩, _, derive_eq_next.2 ⟨e, he, rfl⟩,
      samePreset_of_outsideBlock_eq h⟩)
    exact hi.imp_right fun ⟨ho, hne⟩ => ⟨ho.imp_right And.left, hne⟩
  | constructed hi hl _ _ h =>
    exact .inr (.inr ⟨hi, hl, by simp [h, State.constructed, deriveEntry_eq]⟩)

/-- A counter that saturates at 2^32 - 1 counts one more or stays there (R22). -/
theorem satIncr_eq_ofNat_min (d : BitVec 32) :
    satIncr d = BitVec.ofNat 32 (min (d.toNat + 1) (2 ^ 32 - 1)) := by
  apply BitVec.eq_of_toNat_eq
  have hlt := d.isLt
  unfold satIncr
  split
  · rename_i hmax
    simp [hmax]
  · rename_i hne
    have hne : d.toNat ≠ 2 ^ 32 - 1 := fun h => hne (BitVec.eq_of_toNat_eq h)
    simp only [BitVec.toNat_add, BitVec.toNat_ofNat]
    omega

/-- DIAG and LASTINV stay, record an invalid index, or are cleared by a successful CONSTRUCT. -/
theorem diag_cases {i : Instr} {s t : State} (hx : exec i s = .next t) :
    (t.diag = s.diag ∧ t.lastInv = s.lastInv) ∨
      ((i = .select ∨ ∃ n, i = .runBlock n) ∧ s.ports.presetIn ≠ s.active ∧
        validPreset s.catalog s.ports.presetIn = false ∧
        t.diag = BitVec.ofNat 32 (min (s.diag.toNat + 1) (2 ^ 32 - 1)) ∧ t.lastInv = s.ports.presetIn) ∨
      (i = .construct ∧ s.life = .unconstructed ∧ t.life = .ready ∧ t.diag = 0#32 ∧ t.lastInv = 0#32) := by
  cases setupEffect_of_exec hx with
  | engine _ h =>
    rw [outsideBlock_eq_iff] at h
    simp [h]
  | derived e _ _ h =>
    rw [outsideBlock_eq_iff, deriveEntry_eq] at h
    simp [h]
  | refused _ h => simp [h]
  | failed e _ _ _ h => simp [h]
  | invalid hi hne hv h =>
    rw [outsideBlock_eq_iff] at h
    exact .inr (.inl ⟨hi, hne, hv, by simp [h, State.raise, satIncr_eq_ofNat_min]⟩)
  | constructed hi hl _ _ h =>
    exact .inr (.inr ⟨hi, hl, by simp [h, State.constructed, deriveEntry_eq]⟩)

/-- Settles O51: which instruction stands in each case of `samePreset_cases` and of `diag_cases`. -/
theorem presetAndDiagnosticWriters : Obligations.PresetAndDiagnosticWriters := by
  intro i s t hx
  refine ⟨?_, ?_, ?_, ?_, ?_, ?_⟩
  · intro hi hn
    rcases samePreset_cases hx with h | ⟨rfl | ⟨rfl | ⟨n, rfl⟩, -⟩, -⟩ | ⟨rfl, -⟩
    · exact h
    · simp at hi
    · simp at hi
    · exact absurd rfl (hn n)
    · simp at hi
  · intro hi
    rcases samePreset_cases hx with h | ⟨rfl | ⟨-, hne⟩, hv, hd⟩ | ⟨rfl, -⟩
    · exact .inl h
    · simp at hi
    · exact .inr ⟨hne, hv, hd⟩
    · simp at hi
  · rintro rfl
    rcases samePreset_cases hx with h | ⟨hi, -⟩ | ⟨-, h⟩
    · exact .inl h
    · simp at hi
    · exact .inr h
  · intro hi hn
    rcases diag_cases hx with h | ⟨rfl | ⟨n, rfl⟩, -⟩ | ⟨rfl, -⟩
    · exact h
    · simp at hi
    · exact absurd rfl (hn n)
    · simp at hi
  · intro hi
    rcases diag_cases hx with h | ⟨-, h⟩ | ⟨rfl, -⟩
    · exact .inl h
    · exact .inr h
    · simp at hi
  · rintro rfl
    rcases diag_cases hx with h | ⟨hi, -⟩ | ⟨-, h⟩
    · exact .inl h
    · simp at hi
    · exact .inr h

/-- The fault bits that a successful CONSTRUCT leaves are its derivation's. -/
theorem constructed_faultBits (s : State) :
    s.constructed.fi = (!invariantHolds s.constructed.params s.constructed.bufSize) ∧
      s.constructed.fn = (!allGainsFinite s.constructed.params) ∧ s.constructed.rf = false := by
  simp [State.constructed, deriveEntry_eq]

/-- Settles O52: the only writes that can clear a fault bit are those of a successful CONSTRUCT. -/
theorem faultBitsAreSticky : Obligations.FaultBitsAreSticky := by
  intro i s t hx
  cases setupEffect_of_exec hx with
  | engine hi h =>
    rw [outsideBlock_eq_iff] at h
    simp [h, hi]
  | invalid hi _ _ h =>
    rw [outsideBlock_eq_iff] at h
    refine ⟨by simp [h, State.raise], ?_⟩
    rintro rfl
    simp at hi
  | derived e hi _ h =>
    rw [outsideBlock_eq_iff, deriveEntry_eq] at h
    refine ⟨by simp +contextual [h], ?_⟩
    rintro rfl
    simp at hi
  | refused _ h => simp +contextual [h]
  | failed e _ _ _ h => simp [h]
  | constructed hi hl _ _ h =>
    subst h
    exact ⟨by simp [hi, hl, State.constructed], fun _ _ _ => constructed_faultBits s⟩

theorem execSelect_cursor {s t : State} (h : execSelect s = .next t) :
    t.cursor = s.cursor ∨ t.cursor = 0 := by
  rcases execSelect_cases h with rfl | ⟨-, ⟨e, -, rfl⟩ | ⟨-, rfl⟩⟩
  · exact .inl rfl
  · exact .inr (by rw [deriveEntry_eq])
  · exact .inl rfl

theorem execConstruct_cursor {s t : State} (h : execConstruct s = .next t) :
    t.cursor = s.cursor ∨ t.cursor = 0 := by
  rcases (execConstruct_cases h).2 with ⟨-, rfl⟩ | ⟨-, e, -, rfl⟩ | ⟨-, -, -, rfl⟩
  · exact .inl rfl
  · exact .inl rfl
  · exact .inr (by rw [State.constructed, deriveEntry_eq])

theorem MicroEffect.cursor {s t : State} {i : Instr} (h : MicroEffect s i t) (hi : i ≠ .adv) :
    t.cursor = s.cursor := by
  cases h with
  | advance h => exact absurd h hi
  | working | buffer | output | smoothed => rfl

/-- Settles O55. The bound is `State.KeepsMemory`'s; the writers are found instruction by instruction. -/
theorem cursorWriters : Obligations.CursorWriters := by
  intro i s t hx
  refine ⟨fun _ => (State.KeepsMemory.of_exec hx).cursor, ?_, ?_, ?_, ?_, ?_, ?_⟩
  · rintro rfl
    cases hx
    rfl
  · rintro (rfl | rfl)
    · obtain ⟨e, -, rfl⟩ := derive_eq_next.1 hx
      rw [deriveEntry_eq]
    · cases hx
      rfl
  · rintro rfl hl
    rcases (execReset_eq_next.1 hx).2 with ⟨-, rfl⟩ | ⟨hne, -⟩
    · rfl
    · exact absurd hl hne
  · rintro rfl
    exact execFrame_cursor hx
  · rintro (rfl | rfl)
    · exact execSelect_cursor hx
    · exact execConstruct_cursor hx
  · intro hi hn
    cases i
    case adv | derive | clear | reset | select | construct | frame => simp at hi
    case runBlock n => exact absurd rfl (hn n)
    case latch =>
      cases hx
      rfl
    all_goals exact (microEffect_of_exec rfl hx).cursor nofun

/-- The smoothed gains (R37). -/
def State.gains (s : State) : F32 × F32 × F32 := (s.gWet, s.gDry, s.gMaster)

/-- The targets (R38). -/
def State.targets (s : State) : F32 × F32 × F32 := (s.tWet, s.tDry, s.tMaster)

theorem MicroEffect.gains {s t : State} {i : Instr} (h : MicroEffect s i t) (hi : i ≠ .smooth) :
    t.gains = s.gains := by
  cases h with
  | smoothed _ _ _ _ h => exact absurd h hi
  | working | buffer | output | advance => rfl

theorem MicroEffect.targets {s t : State} {i : Instr} (h : MicroEffect s i t) : t.targets = s.targets := by
  cases h <;> rfl

theorem execFrame_targets {s t : State} (h : execFrame s = .next t) : t.targets = s.targets :=
  execFrame_keeps (P := fun u => u.targets = s.targets) (fun _ _ hu => hu) (fun _ hu => hu)
    (fun _ _ _ hm hu => hm.targets.trans hu) rfl h

theorem deriveEntry_gains (s : State) (p : BitVec 32) (e : CatalogEntry) :
    (s.deriveEntry p e).gains = s.gains := by
  rw [deriveEntry_eq]
  rfl

theorem deriveEntry_targets (s : State) (p : BitVec 32) (e : CatalogEntry) :
    (s.deriveEntry p e).targets = s.targets := by
  rw [deriveEntry_eq]
  rfl

/-- Outside SMOOTH and what contains it, the gains stay or are cleared by CONSTRUCT or RESET. -/
theorem gains_of_exec {i : Instr} {s t : State} (hsmooth : i ≠ .smooth) (hframe : i ≠ .frame)
    (hblock : ∀ n, i ≠ .runBlock n) (hx : exec i s = .next t) :
    t.gains = s.gains ∨ (i = .construct ∨ i = .reset) ∧ t.gains = (0#32, 0#32, 0#32) := by
  cases i
  case smooth => exact absurd rfl hsmooth
  case frame => exact absurd rfl hframe
  case runBlock n => exact absurd rfl (hblock n)
  case construct =>
    rcases (execConstruct_cases hx).2 with ⟨-, rfl⟩ | ⟨-, e, -, rfl⟩ | ⟨-, -, -, rfl⟩
    · exact .inl rfl
    · exact .inl rfl
    · exact .inr ⟨.inl rfl, deriveEntry_gains s.configure 0#32 s.catalog.first⟩
  case reset =>
    rcases (execReset_eq_next.1 hx).2 with ⟨-, rfl⟩ | ⟨-, rfl⟩
    · exact .inr ⟨.inr rfl, rfl⟩
    · exact .inl rfl
  case select =>
    rcases execSelect_cases hx with rfl | ⟨-, ⟨e, -, rfl⟩ | ⟨-, rfl⟩⟩
    · exact .inl rfl
    · exact .inl (deriveEntry_gains s _ e)
    · exact .inl rfl
  case derive =>
    obtain ⟨e, -, rfl⟩ := derive_eq_next.1 hx
    exact .inl (deriveEntry_gains s _ e)
  case latch | clear =>
    cases hx
    exact .inl rfl
  all_goals exact .inl ((microEffect_of_exec rfl hx).gains nofun)

/-- Outside LATCH and what contains it, the targets stay or are cleared by CONSTRUCT. -/
theorem targets_of_exec {i : Instr} {s t : State} (hlatch : i ≠ .latch) (hblock : ∀ n, i ≠ .runBlock n)
    (hx : exec i s = .next t) :
    t.targets = s.targets ∨ i = .construct ∧ t.targets = (0#32, 0#32, 0#32) := by
  cases i
  case latch => exact absurd rfl hlatch
  case runBlock n => exact absurd rfl (hblock n)
  case frame => exact .inl (execFrame_targets hx)
  case construct =>
    rcases (execConstruct_cases hx).2 with ⟨-, rfl⟩ | ⟨-, e, -, rfl⟩ | ⟨-, -, -, rfl⟩
    · exact .inl rfl
    · exact .inl rfl
    · exact .inr ⟨rfl, deriveEntry_targets s.configure 0#32 s.catalog.first⟩
  case reset =>
    rcases (execReset_eq_next.1 hx).2 with ⟨-, rfl⟩ | ⟨-, rfl⟩ <;> exact .inl rfl
  case select =>
    rcases execSelect_cases hx with rfl | ⟨-, ⟨e, -, rfl⟩ | ⟨-, rfl⟩⟩
    · exact .inl rfl
    · exact .inl (deriveEntry_targets s _ e)
    · exact .inl rfl
  case derive =>
    obtain ⟨e, -, rfl⟩ := derive_eq_next.1 hx
    exact .inl (deriveEntry_targets s _ e)
  case clear =>
    cases hx
    exact .inl rfl
  all_goals exact .inl (microEffect_of_exec rfl hx).targets

/-- Settles O56, register by register from `gains_of_exec` and `targets_of_exec`. -/
theorem gainAndTargetWriters : Obligations.GainAndTargetWriters := by
  intro i s t hx
  constructor
  · intro hsmooth hframe hblock
    simpa [State.gains] using gains_of_exec hsmooth hframe hblock hx
  · intro hlatch hblock
    simpa [State.targets] using targets_of_exec hlatch hblock hx

/-- Settles O9: CONSTRUCT's three checks pass, and what it leaves is `State.constructed`. -/
theorem constructEstablishesReadyState : Obligations.ConstructEstablishesReadyState := by
  intro s hp hl hr hk hc
  refine ⟨s.constructed, execConstruct_of_valid hp hl hr hk hc, ?_⟩
  simp [State.constructed, deriveEntry_eq, memRead]

end Sys2Proof.Machine
end

section
/-! The words of STATUS, a step inside a block, and where an internal operation stops (10_state.md R21, R40, R43; 20_memory.md R69). -/

namespace Sys2Proof.Machine

theorem toNat_append_eq_add {m n : Nat} (x : BitVec m) (y : BitVec n) :
    (x ++ y).toNat = x.toNat * 2 ^ n + y.toNat := by
  rw [BitVec.toNat_append, ← Nat.shiftLeft_add_eq_or_of_lt y.isLt, Nat.shiftLeft_eq]

theorem toNat_lifeCode (l : Life) :
    (lifeCode l).toNat = match l with | .unconstructed => 0 | .ready => 1 | .failed => 2 := by
  cases l <;> rfl

theorem toNat_cfgErrCode (e : CfgErr) :
    (cfgErrCode e).toNat =
      match e with | .none => 0 | .badRate => 1 | .noCapability => 2 | .capacity => 3 := by
  cases e <;> rfl

/-- A status bit at bit `n` of the word. -/
theorem toNat_ofBool_mul (b : Bool) (n : Nat) : b.toNat * n = if b then n else 0 := by
  cases b <;> simp

/-- Settles O44: the word is its fields side by side, so its number is the sum of their weighted numbers. -/
theorem statusLayout : Obligations.StatusLayout := by
  intro s
  have hword : s.status.toNat =
      (lifeCode s.life).toNat + s.fi.toNat * 2 ^ 2 + s.fn.toNat * 2 ^ 3 + s.rf.toNat * 2 ^ 4 +
        (cfgErrCode s.cfgErr).toNat * 2 ^ 8 := by
    simp only [State.status, toNat_append_eq_add, BitVec.toNat_ofBool, BitVec.toNat_ofNat]
    ring
  simp only [toNat_lifeCode, toNat_cfgErrCode, toNat_ofBool_mul] at hword
  exact hword

/-- Where the sequencer finds an operation, a step runs it and moves (R43). -/
theorem step_of_fetch_internal {s s1 : State} {i : Instr} (h : s.fetch = .internal i s1) :
    step s = andThen (exec i s1) fun s2 => .next s2.advance := by
  simp only [step, h]

theorem fetch_microStep {s : State} (hp : s.phase = .block) (hb : s.bstep = 0x2#4) {i : Instr}
    (h : decode (.u s.ustep) = .ok i) :
    s.fetch = .internal i (if s.ustep = 0x0#4 then s.clearWorking else s) := by
  simp only [State.fetch, hp, hb, h, if_true]

theorem fetch_blockStep {s : State} (hp : s.phase = .block) (hb : s.bstep ≠ 0x2#4) {i : Instr}
    (h : decode (.i s.bstep) = .ok i) : s.fetch = .internal i s := by
  simp only [State.fetch, hp, hb, h, if_false]

theorem decode_reservedBlockCode {c : BitVec 4} (h : 5 ≤ c.toNat) :
    decode (.i c) = .error .reservedBlockCode := by
  simp only [decode, decodeI]
  split
  case h_6 => rfl
  all_goals omega

/-- A reserved code at BSTEP, or at USTEP within a frame, is the sequencer's own defect (30_encoding.md R104). -/
theorem fetch_reserved {s : State} (hp : s.phase = .block)
    (h : 5 ≤ s.bstep.toNat ∨ s.bstep = 0x2#4 ∧ s.ustep = 0xF#4) : s.fetch = .reserved := by
  rcases h with h | ⟨hb, hu⟩
  · have hb : s.bstep ≠ 0x2#4 := by
      intro hb
      simp [hb] at h
    simp only [State.fetch, hp, hb, decode_reservedBlockCode h, if_false]
  · simp only [State.fetch, hp, hb, hu, if_true]
    rfl

/-- Settles O7, by what the sequencer fetches in each case. -/
theorem stepRunsInternalOperation : Obligations.StepRunsInternalOperation := by
  intro s hp
  refine ⟨fun i hb hd => ?_, fun i hb hd => ?_, fun h => ?_⟩
  · have hstep := step_of_fetch_internal (fetch_microStep hp hb hd)
    exact ⟨fun t hx => by rw [hstep, hx, andThen_next], fun r hx => by rw [hstep, hx]; rfl⟩
  · have hstep := step_of_fetch_internal (fetch_blockStep hp hb hd)
    exact ⟨fun t hx => by rw [hstep, hx, andThen_next], fun r hx => by rw [hstep, hx]; rfl⟩
  · simp only [step, fetch_reserved hp h]

theorem withBuf_of_outside {s : State} {o : Int} (h : s.cap ≤ bufAddr s o) (k : F32 → Out) :
    withBuf s o k = .fault .ramOutOfRange :=
  if_neg h.not_gt

theorem writeBuf_of_outside {s : State} {o : Int} (h : s.cap ≤ bufAddr s o) (v : F32) :
    writeBuf s o v = .fault .ramOutOfRange :=
  if_neg h.not_gt

/-- A read either faults or goes on, so it faults where what follows faults. -/
theorem withBuf_of_fault {s : State} {k : F32 → Out} (h : ∀ v, k v = .fault .ramOutOfRange) (o : Int) :
    withBuf s o k = .fault .ramOutOfRange := by
  unfold withBuf
  split
  · exact h _
  · rfl

theorem withReg_of_isSome {r : Option F32} {k : F32 → Out} {o : Out} (hr : r.isSome = true)
    (h : ∀ x, k x = o) : withReg r k = o := by
  obtain ⟨x, rfl⟩ := Option.isSome_iff_exists.1 hr
  exact h x

theorem withReg_of_none {r : Option F32} (hr : r = none) (k : F32 → Out) :
    withReg r k = .fault .workingUnwritten := by
  rw [hr]
  rfl

/-- A read of a working register either faults or goes on, so it faults where what follows faults. -/
theorem withReg_of_fault {k : F32 → Out} (h : ∀ x, k x = .fault .workingUnwritten) (r : Option F32) :
    withReg r k = .fault .workingUnwritten := by
  cases r with
  | none => rfl
  | some x => exact h x

/-- REFLECT faults where a tap it reads or writes lies outside the RAM. -/
theorem reflect_of_outside {s : State} {far m : Int}
    (h : ∃ o ∈ [far, m - 1, m], s.cap ≤ bufAddr s o) (x : F32) :
    reflect x far m s = .fault .ramOutOfRange := by
  simp only [List.mem_cons, List.not_mem_nil, or_false, exists_eq_or_imp, exists_eq_left] at h
  unfold reflect
  rcases h with h | h | h
  · exact withBuf_of_outside h _
  · exact withBuf_of_fault (fun _ => withBuf_of_outside h _) _
  · exact withBuf_of_fault (fun _ => withBuf_of_fault (fun _ => writeBuf_of_outside (s := s.drew 5) h _) _) _

/-- COMB faults where one of its four taps lies outside the RAM. -/
theorem comb_of_outside {s : State} {o1 o2 o3 o4 : Int}
    (h : ∃ o ∈ [o1, o2, o3, o4], s.cap ≤ bufAddr s o) (k : F32 → Out) :
    comb o1 o2 o3 o4 s k = .fault .ramOutOfRange := by
  simp only [List.mem_cons, List.not_mem_nil, or_false, exists_eq_or_imp, exists_eq_left] at h
  unfold comb
  rcases h with h | h | h | h
  · exact withBuf_of_outside h _
  · exact withBuf_of_fault (fun _ => withBuf_of_outside h _) _
  · exact withBuf_of_fault (fun _ => withBuf_of_fault (fun _ => withBuf_of_outside h _) _) _
  · exact withBuf_of_fault
      (fun _ => withBuf_of_fault (fun _ => withBuf_of_fault (fun _ => withBuf_of_outside h _) _) _) _

/-- APF faults where its delayed tap or the tap it writes lies outside the RAM. -/
theorem apf_of_outside {s : State} {m d : Int} (h : ∃ o ∈ [m - d, m], s.cap ≤ bufAddr s o) (x g : F32)
    (k : F32 → State → Out) : apf x m d g s k = .fault .ramOutOfRange := by
  simp only [List.mem_cons, List.not_mem_nil, or_false, exists_eq_or_imp, exists_eq_left] at h
  unfold apf
  rcases h with h | h
  · exact withBuf_of_outside h _
  · refine withBuf_of_fault (fun d1 => ?_) _
    have hw : writeBuf (s.drew 4) m (apfStored s.draws x g d1) = .fault .ramOutOfRange :=
      writeBuf_of_outside (s := s.drew 4) h _
    simp only [hw, andThen]

theorem derive_of_invalid {s : State} {p : BitVec 32} (h : validPreset s.catalog p = false) :
    derive p s = .fault .noSuchPreset := by
  simp [derive, catalogEntry?, h]

/-- Settles O43: each micro-step is one of the shared parts behind the working registers it reads. -/
theorem internalOperationStops : Obligations.InternalOperationStops := by
  intro s
  simp only [List.forall_mem_cons, List.not_mem_nil, false_imp_iff, implies_true, and_true]
  have hnone {r : Option F32} {k : F32 → Out} (hr : r = none) :
      withReg r k = .fault .workingUnwritten := withReg_of_none hr k
  refine ⟨⟨hnone, hnone, hnone, hnone, hnone, hnone, hnone, hnone, hnone, fun hr => ?_, hnone, fun hr => ?_⟩,
    ⟨fun hr ho => ?_, fun hr ho => ?_, fun hr ho => ?_, fun hr ho => ?_⟩, fun ho => ?_,
    fun ho => ?_, ⟨fun hr ho => ?_, fun hr ho => ?_, fun hr ho => ?_, fun hr ho => ?_⟩,
    derive_of_invalid⟩
  · exact withReg_of_fault (fun _ => hnone hr) s.lout
  · exact withReg_of_fault (fun _ => hnone hr) s.rout
  iterate 4 exact withReg_of_isSome hr (reflect_of_outside ho)
  · exact (show execCombL s = _ by rw [execCombL, comb_of_outside ho])
  · exact (show execCombR s = _ by rw [execCombR, comb_of_outside ho])
  iterate 4 exact withReg_of_isSome hr fun x => apf_of_outside ho x _ _

end Sys2Proof.Machine
end

section
/-! binary64 on finite operands (00_scope.md R13): what a pattern unpacks to, products and quotients, whole numbers, and
truncation. -/

namespace Sys2Proof

namespace Fmt

theorem unpack_eq_fin_iff {f : Fmt} {bits u : Nat} {neg : Bool} :
    unpack f bits = .fin neg u ↔
      bits % f.signBit < f.infBits ∧ decide (f.signBit ≤ bits) = neg ∧ unitsOf f (bits % f.signBit) = u := by
  unfold unpack
  dsimp only
  split
  · simp [*]
  · split <;> simp [*]

/-- A quotient rounds the same in other units. -/
theorem roundNat_mul_mul (n d : Nat) {c : Nat} (hc : 0 < c) : roundNat (n * c) (d * c) = roundNat n d := by
  have hmod : 2 * (n * c % (d * c)) = 2 * (n % d) * c := by rw [Nat.mul_mod_mul_right, mul_assoc]
  simp only [roundNat, hmod, Nat.mul_div_mul_right n d hc, Nat.mul_lt_mul_right hc, Nat.mul_left_inj hc.ne']

theorem roundMag_mul_mul (f : Fmt) (n d : Nat) {c : Nat} (hc : 0 < c) :
    roundMag f (n * c) (d * c) = roundMag f n d := by
  simp only [roundMag, Nat.mul_div_mul_right n d hc, mul_right_comm d c, roundNat_mul_mul _ _ hc]

theorem pack_false (f : Fmt) (n d : Nat) : pack f false n d = roundMag f n d := rfl

theorem pack_mul_mul (f : Fmt) (neg : Bool) (n d : Nat) {c : Nat} (hc : 0 < c) :
    pack f neg (n * c) (d * c) = pack f neg n d := by
  rw [pack, pack, roundMag_mul_mul f n d hc]

theorem b64_one_pos : 0 < b64.one := by
  rw [b64_one]
  positivity

theorem toNat_ofNat_pack_b64 (n d : Nat) : (BitVec.ofNat 64 (pack b64 false n d)).toNat = roundMag b64 n d := by
  have hinf : b64.infBits < 2 ^ 64 := by decide
  rw [BitVec.toNat_ofNat, pack_false, Nat.mod_eq_of_lt ((roundMag_le b64 n d).trans_lt hinf)]

theorem unpack_ofNat_pack_b64 (n d : Nat) :
    unpack b64 (BitVec.ofNat 64 (pack b64 false n d)).toNat =
      if roundMag b64 n d < b64.infBits then .fin false (unitsOf b64 (roundMag b64 n d)) else .inf false := by
  rw [toNat_ofNat_pack_b64, ← pack_false, unpack_pack b64_proper, pack_false]

/-- A whole number below 2^53 is the value of a finite pattern. -/
theorem exists_unitsOf_eq_mul_one {k : Nat} (hk : k < 2 ^ 53) :
    ∃ mag < b64.infBits, unitsOf b64 mag = k * b64.one := by
  rcases Nat.eq_zero_or_pos k with rfl | hpos
  · exact ⟨0, by decide, by decide +kernel⟩
  have hlog : Nat.log2 k < 53 := (Nat.log2_lt hpos.ne').2 hk
  have hlow : 2 ^ Nat.log2 k ≤ k := Nat.log2_self_le hpos.ne'
  have hhigh : k < 2 ^ (Nat.log2 k + 1) := Nat.lt_log2_self
  generalize Nat.log2 k = l at hlog hlow hhigh
  have hq : 2 ^ 52 ≤ k * 2 ^ (52 - l) ∧ k * 2 ^ (52 - l) < 2 * 2 ^ 52 := by
    constructor
    · calc 2 ^ 52 = 2 ^ l * 2 ^ (52 - l) := by rw [← pow_add]; congr 1; omega
        _ ≤ k * 2 ^ (52 - l) := Nat.mul_le_mul_right _ hlow
    · calc k * 2 ^ (52 - l) < 2 ^ (l + 1) * 2 ^ (52 - l) := Nat.mul_lt_mul_of_pos_right hhigh (by positivity)
        _ = 2 * 2 ^ 52 := by rw [← pow_add, ← pow_succ']; congr 1; omega
  refine ⟨(1022 + l) * 2 ^ 52 + k * 2 ^ (52 - l), ?_, ?_⟩
  · have hinf : b64.infBits = 2047 * 2 ^ 52 := by decide
    omega
  · calc unitsOf b64 ((1022 + l) * 2 ^ 52 + k * 2 ^ (52 - l))
        = k * 2 ^ (52 - l) * 2 ^ (1022 + l) := unitsOf_binade b64 (.inr hq.1) hq.2.le
      _ = k * 2 ^ 1074 := by rw [mul_assoc, ← pow_add]; congr 2; omega
      _ = k * b64.one := by rw [b64_one]

end Fmt

namespace F64

theorem unpack_ofNat {k : Nat} (hk : k < 2 ^ 53) :
    Fmt.unpack .b64 (ofNat k).toNat = .fin false (k * Fmt.b64.one) := by
  obtain ⟨mag, hmag, hunits⟩ := Fmt.exists_unitsOf_eq_mul_one hk
  have hround : Fmt.roundMag .b64 (k * Fmt.b64.one) 1 = mag := by
    rw [← hunits, ← Nat.mul_one (Fmt.unitsOf _ _)]
    exact Fmt.roundMag_unitsOf Fmt.b64_proper hmag.le Nat.one_pos
  rw [ofNat, Fmt.unpack_ofNat_pack_b64, hround, if_pos hmag, hunits]

theorem mul_of_fin {a b nan : F64} {x y : Bool} {m n : Nat} (ha : Fmt.unpack .b64 a.toNat = .fin x m)
    (hb : Fmt.unpack .b64 b.toNat = .fin y n) :
    mul nan a b = BitVec.ofNat 64 (Fmt.pack .b64 (x != y) (m * n) Fmt.b64.one) := by
  simp only [mul, Fmt.mul, ha, hb]

theorem div_of_fin {a b nan : F64} {x y : Bool} {m n : Nat} (ha : Fmt.unpack .b64 a.toNat = .fin x m)
    (hb : Fmt.unpack .b64 b.toNat = .fin y n) (hn : n ≠ 0) :
    div nan a b = BitVec.ofNat 64 (Fmt.pack .b64 (x != y) (m * Fmt.b64.one) n) := by
  simp only [div, Fmt.div, ha, hb, if_neg hn]

theorem trunc_of_fin {a : F64} {m : Nat} (h : Fmt.unpack .b64 a.toNat = .fin false m) :
    trunc a = ((m / Fmt.b64.one : Nat) : Int) := by
  simp [trunc, h]

theorem trunc_of_inf {a : F64} {x : Bool} (h : Fmt.unpack .b64 a.toNat = .inf x) :
    trunc a = (Config.roundNonFinite a : Int) := by
  simp only [trunc, h]

theorem trunc_ofNat {k : Nat} (hk : k < 2 ^ 53) : trunc (ofNat k) = k := by
  rw [trunc_of_fin (unpack_ofNat hk), Nat.mul_div_cancel _ Fmt.b64_one_pos]

theorem trunc_ofNat_pack {n d : Nat} (h : Fmt.roundMag .b64 n d < Fmt.b64.infBits) :
    trunc (BitVec.ofNat 64 (Fmt.pack .b64 false n d)) =
      ((Fmt.unitsOf .b64 (Fmt.roundMag .b64 n d) / Fmt.b64.one : Nat) : Int) :=
  trunc_of_fin ((Fmt.unpack_ofNat_pack_b64 n d).trans (if_pos h))

theorem trunc_ofNat_pack_nonneg (n d : Nat) : 0 ≤ trunc (BitVec.ofNat 64 (Fmt.pack .b64 false n d)) := by
  by_cases h : Fmt.roundMag .b64 n d < Fmt.b64.infBits
  · rw [trunc_ofNat_pack h]
    positivity
  · rw [trunc_of_inf ((Fmt.unpack_ofNat_pack_b64 n d).trans (if_neg h))]
    positivity

end F64

end Sys2Proof
end

section
/-! Valid rates, the stretch and the taps (10_state.md R25; 41_deriver.md R151 to R153). -/

namespace Sys2Proof.Machine

/-- In patterns: the sign bit is clear and the magnitude is that of a finite number above 1.0. -/
theorem rateValid_iff (r : F64) :
    rateValid r = true ↔ r.toNat % Fmt.b64.signBit < Fmt.b64.infBits ∧ ¬ Fmt.b64.signBit ≤ r.toNat ∧
      0x3FF0000000000000 < r.toNat % Fmt.b64.signBit := by
  have hnan : Fmt.isNaN .b64 Config.rateMin.toNat = false := by decide
  have hkey : Fmt.key .b64 Config.rateMin.toNat = ((0x3FF0000000000000 : Nat) : Int) := by decide
  simp only [rateValid, F64.isFinite, F64.lt, Fmt.isFinite, Fmt.lt, hnan, hkey]
  simp only [Fmt.isNaN, Fmt.key, Bool.and_eq_true, Bool.not_eq_true', decide_eq_false_iff_not,
    Bool.not_false, true_and]
  split <;> simp only [decide_eq_true_eq] <;> omega

/-- Settles O11: magnitudes are ordered as their patterns, and 0x3FF0000000000000 is 1.0's. -/
theorem validRatesAreFiniteAboveOne : Obligations.ValidRatesAreFiniteAboveOne := by
  intro r
  have hone : Fmt.unitsOf .b64 0x3FF0000000000000 = Fmt.b64.one := by decide +kernel
  have hlt (mag : Nat) : Fmt.b64.one < Fmt.unitsOf .b64 mag ↔ 0x3FF0000000000000 < mag := by
    rw [← hone]
    exact (Fmt.unitsOf_strictMono .b64).lt_iff_lt
  rw [rateValid_iff]
  simp only [Fmt.unpack_eq_fin_iff, decide_eq_false_iff_not]
  constructor
  · rintro ⟨hfin, hsign, hmag⟩
    exact ⟨_, ⟨hfin, hsign, rfl⟩, (hlt _).2 hmag⟩
  · rintro ⟨_, ⟨hfin, hsign, rfl⟩, hmag⟩
    exact ⟨hfin, hsign, (hlt _).1 hmag⟩

theorem stretchOf_of_fin {r : F64} {m : Nat} (h : Fmt.unpack .b64 r.toNat = .fin false m) :
    stretchOf r = BitVec.ofNat 64 (Fmt.pack .b64 false m 22050) := by
  have hnative : Fmt.unpack .b64 Config.nativeRate.toNat = .fin false (22050 * Fmt.b64.one) := by
    decide +kernel
  have hpos := Fmt.b64_one_pos
  rw [stretchOf, F64.div_of_fin h hnative (by positivity)]
  exact congrArg (BitVec.ofNat 64) (Fmt.pack_mul_mul .b64 false m 22050 hpos)

/-- The product of a tap, exact before its one rounding (R152). -/
theorem tapScale_of_fin {s : F64} {m : Nat} (h : Fmt.unpack .b64 s.toNat = .fin false m) (u : Word16) :
    tapScale u s = F64.trunc (BitVec.ofNat 64 (Fmt.pack .b64 false (4 * u.toNat * m) 1)) := by
  have hu : 4 * u.toNat < 2 ^ 53 := by omega
  have hscale : Fmt.pack .b64 false (4 * u.toNat * Fmt.b64.one * m) Fmt.b64.one =
      Fmt.pack .b64 false (4 * u.toNat * m) 1 := by
    rw [← Fmt.pack_mul_mul .b64 false (4 * u.toNat * m) 1 Fmt.b64_one_pos, one_mul, mul_right_comm]
  rw [tapScale, Config.tapUnit, F64.mul_of_fin (F64.unpack_ofNat hu) h]
  exact congrArg (fun b => F64.trunc (BitVec.ofNat 64 b)) hscale

/-- At a whole stretch below 2^16 a tap is exact. -/
theorem tapScale_of_whole {s : F64} {c : Nat} (hc : c < 2 ^ 16)
    (h : Fmt.unpack .b64 s.toNat = .fin false (c * Fmt.b64.one)) (u : Word16) :
    tapScale u s = ((4 * u.toNat * c : Nat) : Int) := by
  have hk : 4 * u.toNat * c < 2 ^ 53 := by nlinarith [u.isLt]
  rw [tapScale_of_fin h, ← mul_assoc]
  exact F64.trunc_ofNat hk

/-- No valid rate overflows the stretch. -/
theorem unpack_stretchOf_of_rateValid {r : F64} (h : rateValid r = true) :
    ∃ m, Fmt.unpack .b64 (stretchOf r).toNat = .fin false m := by
  obtain ⟨u, hu, -⟩ := (validRatesAreFiniteAboveOne r).1 h
  rw [stretchOf_of_fin hu, Fmt.unpack_ofNat_pack_b64, if_pos]
  · exact ⟨_, rfl⟩
  obtain ⟨hfin, -, rfl⟩ := Fmt.unpack_eq_fin_iff.1 hu
  have hmono := (Fmt.unitsOf_strictMono .b64).monotone
  have hover := Fmt.roundMag_eq_infBits_iff (f := .b64) (by decide) (by decide)
    (Fmt.unitsOf .b64 (r.toNat % Fmt.b64.signBit)) (d := 22050) (by omega)
  have hle := hmono (Nat.le_pred_of_lt hfin)
  have hlast := Fmt.unitsOf_strictMono .b64 hfin
  refine lt_of_le_of_ne (Fmt.roundMag_le _ _ _) fun heq => ?_
  have := hover.1 heq
  simp only [Nat.pred_eq_sub_one] at hle
  omega

theorem tapScale_nonneg {r : F64} (h : rateValid r = true) (u : Word16) : 0 ≤ tapScale u (stretchOf r) := by
  obtain ⟨m, hm⟩ := unpack_stretchOf_of_rateValid h
  rw [tapScale_of_fin hm]
  exact F64.trunc_ofNat_pack_nonneg _ _

/-- Settles O31, from the exact product of a tap; DERIVE installs each tap of its own record word. -/
theorem tapScaling : Obligations.TapScaling := by
  refine ⟨fun r m h => ?_, fun u s m h hfin => ?_, fun u r h => tapScale_nonneg h u, fun u => ?_, fun u => ?_,
    by decide +kernel, fun s t h => ?_⟩
  · rw [stretchOf_of_fin h, Fmt.toNat_ofNat_pack_b64]
  · rw [tapScale_of_fin h, F64.trunc_ofNat_pack hfin, Fmt.b64_one]
  · rw [tapScale_of_whole (c := 1) (by decide) (by decide +kernel)]
    push_cast
    ring
  · rw [tapScale_of_whole (c := 2) (by decide) (by decide +kernel)]
    push_cast
    ring
  · obtain ⟨e, -, rfl⟩ := derive_eq_next.1 h
    rw [deriveEntry_eq]
    exact ⟨rfl, rfl, rfl, rfl, rfl, rfl, rfl, rfl, rfl, rfl, rfl, rfl, rfl, rfl, rfl, rfl, rfl, rfl, rfl, rfl,
      rfl, rfl, rfl⟩

end Sys2Proof.Machine
end

section
/-! The delay RAM's addresses and the host's command (20_memory.md R64, R66, R68, R83; 30_encoding.md R93). -/

namespace Sys2Proof.Machine

/-- CURSOR may be left unreduced in an address: the address is reduced itself (R64). -/
theorem bufAddr_cursor_mod (s : State) (c : Nat) (o : Int) :
    bufAddr { s with cursor := c % s.bufSize } o = (((c : Int) + o) % (s.bufSize : Int)).toNat := by
  simp only [bufAddr, Int.natCast_mod, Int.emod_add_emod]

/-- Settles O49: CURSOR's advance and the offset add up to CURSOR + m modulo B. -/
theorem tapsSlideWithCursor : Obligations.TapsSlideWithCursor := by
  intro s m d hb
  have hnonneg : 0 ≤ (m - d) % (s.bufSize : Int) := Int.emod_nonneg _ (by omega)
  rw [bufAddr_cursor_mod, bufAddr_cursor_mod, bufAddr]
  constructor
  · have hsum : (s.cursor : Int) + (m - d) % (s.bufSize : Int) + d =
        (m - d) % (s.bufSize : Int) + (s.cursor + d) := by ring
    rw [Nat.cast_add, Int.toNat_of_nonneg hnonneg, hsum, Int.emod_add_emod]
    congr 2
    ring
  · congr 2
    push_cast
    ring

/-- A mask of `k` ones on a two's-complement word leaves the remainder by `2 ^ k`. -/
theorem toNat_ofInt_and_mask {k w : Nat} (hk : k ≤ w) (x : Int) :
    (BitVec.ofInt w x &&& BitVec.ofNat w (2 ^ k - 1)).toNat = (x % (2 ^ k : Nat)).toNat := by
  have hmask : 2 ^ k - 1 < 2 ^ w :=
    (Nat.sub_lt (Nat.two_pow_pos k) Nat.one_pos).trans_le (Nat.pow_le_pow_right Nat.two_pos hk)
  have hdvd : ((2 ^ k : Nat) : Int) ∣ (2 ^ w : Nat) := by exact_mod_cast Nat.pow_dvd_pow 2 hk
  have hpos : (0 : Int) ≤ x % (2 ^ w : Nat) := Int.emod_nonneg _ (by positivity)
  rw [BitVec.toNat_and, BitVec.toNat_ofNat, Nat.mod_eq_of_lt hmask, Nat.and_two_pow_sub_one_eq_mod,
    BitVec.toNat_ofInt, ← Int.emod_emod_of_dvd x hdvd, Int.toNat_emod hpos (by positivity), Int.toNat_natCast]

/-- Settles O48: the width holds B, so the mask takes the remainder of the sum by B. -/
theorem addressEqualsMaskedSum : Obligations.AddressEqualsMaskedSum := by
  intro s o k w hb hw
  have hlt : 2 ^ k < 2 ^ (w - 1) := by
    have hle : (s.bufSize : Int) ≤ s.bufSize + |o| + s.cursor := by
      have := abs_nonneg o
      omega
    rw [← hb]
    exact_mod_cast hle.trans_lt hw
  have hk : k ≤ w := ((Nat.pow_lt_pow_iff_right Nat.one_lt_two).1 hlt).le.trans (Nat.sub_le w 1)
  rw [bufAddr, hb, toNat_ofInt_and_mask hk]

/-- In IDLE the host's next command is taken (R83). -/
theorem fetch_command {s : State} (hp : s.phase = .idle) {c : HostCommand} {rest : List HostCommand} {i : Instr}
    (hq : s.pending = c :: rest) (hd : decode (.h c.word) = .ok i) : s.fetch = .command i (s.present c rest) := by
  simp only [State.fetch, hp, hq, hd]

/-- In IDLE with nothing issued there is nothing to do (R236). -/
theorem fetch_nothing {s : State} (hp : s.phase = .idle) (hq : s.pending = []) : s.fetch = .nothing := by
  simp only [State.fetch, hp, hq]

/-- A list write leaves the words that are none of its own. -/
theorem memRead_memWriteList_of_forall_ne {m : WordMem} {b a : Nat} {vs : List F32}
    (h : ∀ j, j < vs.length → a ≠ b + j) : memRead (memWriteList m b vs) a = memRead m a := by
  refine memRead_memWriteList_of_outside ?_
  by_contra hinside
  exact h (a - b) (by omega) (by omega)

theorem memRead_memWriteList_of_getElem? {m : WordMem} (hm : memWf m = true) {b k : Nat} {vs : List F32} {v : F32}
    (h : vs[k]? = some v) : memRead (memWriteList m b vs) (b + k) = v := by
  obtain ⟨hk, rfl⟩ := List.getElem?_eq_some_iff.1 h
  exact memRead_memWriteList_of_inside hm hk

/-- Settles O6, by what is fetched in IDLE and by the two list writes that present the samples, the right stream's last. -/
theorem stepRunsHostCommand : Obligations.StepRunsHostCommand := by
  intro s
  refine ⟨fun hp => ⟨fun c rest i hq hd => ?_, fun hq => ?_⟩, fun c rest => ⟨rfl, fun hm a => ⟨?_, ?_, ?_⟩⟩⟩
  · simp only [step, fetch_command hp hq hd]
  · simp only [step, fetch_nothing hp hq]
  · rintro k v hv rfl
    exact memRead_memWriteList_of_getElem? (memWf_memWriteList hm _ _) hv
  · rintro k v hv rfl hright
    exact (memRead_memWriteList_of_forall_ne hright).trans (memRead_memWriteList_of_getElem? hm hv)
  · intro hleft hright
    exact (memRead_memWriteList_of_forall_ne hright).trans (memRead_memWriteList_of_forall_ne hleft)

end Sys2Proof.Machine
end

section
/-! Where the output streams lie makes no difference to a block (20_memory.md R80, R81). Every operation but IN, MIX_L
and MIX_R commutes with another placement of the streams (`CommutesWith`); a frame's two outputs depend only on what
IN reads; and no output overwrites an input that a later frame reads, nor an output of an earlier one. -/

namespace Sys2Proof.Machine

/-- `f` answers on `g s` what it answers on `s`, changed by `g`. -/
def CommutesWith (g : State → State) (f : State → Out) : Prop :=
  ∀ s, f (g s) = andThen (f s) fun t => .next (g t)

theorem CommutesWith.next {g : State → State} {f : State → Out} (hf : CommutesWith g f) {s t : State}
    (h : f s = .next t) : f (g s) = .next (g t) := by
  rw [hf, h, andThen_next]

/-- A list of micro-steps commutes with what USTEP and each of them commute with. -/
theorem commutesWith_runMicro {g : State → State} (hu : ∀ s c, (g s).atUstep c = g (s.atUstep c))
    {l : List (BitVec 4 × (State → Out))} (hl : ∀ p ∈ l, CommutesWith g p.2) : CommutesWith g (runMicro l) := by
  induction l with
  | nil => exact fun _ => rfl
  | cons p l ih =>
    obtain ⟨c, f⟩ := p
    intro s
    have hf : CommutesWith g f := hl (c, f) List.mem_cons_self
    have hrest : runMicro l ∘ g = fun t => andThen (runMicro l t) fun u => .next (g u) :=
      funext (ih fun q hq => hl q (List.mem_cons_of_mem _ hq))
    rw [runMicro_cons, runMicro_cons, hu, hf, andThen_assoc, andThen_assoc]
    exact congrArg (andThen (f (s.atUstep c))) hrest

theorem andThen_ite (c : Prop) [Decidable c] (a b : Out) (g : State → Out) :
    andThen (if c then a else b) g = if c then andThen a g else andThen b g :=
  apply_ite (andThen · g) c a b

theorem andThen_withBuf (s : State) (o : Int) (k : F32 → Out) (g : State → Out) :
    andThen (withBuf s o k) g = withBuf s o fun v => andThen (k v) g := by
  unfold withBuf
  split <;> rfl

theorem andThen_withReg (r : Option F32) (k : F32 → Out) (g : State → Out) :
    andThen (withReg r k) g = withReg r fun x => andThen (k x) g := by
  cases r <;> rfl

theorem andThen_comb (o1 o2 o3 o4 : Int) (s : State) (k : F32 → Out) (g : State → Out) :
    andThen (comb o1 o2 o3 o4 s k) g = comb o1 o2 o3 o4 s fun v => andThen (k v) g := by
  simp only [comb, andThen_withBuf]

/-- The state with its output streams at `l` and `r` and the sample memory `m`. -/
def State.placed (l r : Nat) (m : WordMem) (s : State) : State :=
  { s with ports := { s.ports with outL := l, outR := r }, samples := m }

section Placed

variable (l r : Nat) (m : WordMem)

theorem withBuf_placed (s : State) (o : Int) (k : F32 → Out) : withBuf (s.placed l r m) o k = withBuf s o k := rfl

theorem writeBuf_placed (s : State) (o : Int) (v : F32) :
    writeBuf (s.placed l r m) o v = andThen (writeBuf s o v) fun t => .next (t.placed l r m) := by
  simp only [writeBuf, andThen_ite]
  rfl

theorem commutesWith_reflect (x : F32) (far o : Int) : CommutesWith (State.placed l r m) (reflect x far o) := by
  intro s
  simp only [reflect, andThen_withBuf, ← writeBuf_placed]
  rfl

theorem commutesWith_apf {x g : F32} {o d : Int} {k : F32 → State → Out}
    (hk : ∀ y, CommutesWith (State.placed l r m) (k y)) :
    CommutesWith (State.placed l r m) fun s => apf x o d g s k := by
  intro s
  have hread (y : F32 → F32) (u : State) :
      withBuf (u.placed l r m) (o - d) (fun d2 => k (y d2) (u.placed l r m)) =
        andThen (withBuf u (o - d) fun d2 => k (y d2) u) fun t => .next (t.placed l r m) := by
    simp only [withBuf_placed, andThen_withBuf, hk _ u]
  have hstore (v : F32) : writeBuf ((s.placed l r m).drew 4) o v =
      andThen (writeBuf (s.drew 4) o v) fun t => .next (t.placed l r m) := writeBuf_placed l r m (s.drew 4) o v
  simp only [apf, withBuf_placed, andThen_withBuf, hstore, andThen_assoc, andThen_next]
  simp only [← andThen_withBuf, ← hread]
  rfl

theorem withReg_placed {f : F32 → State → Out} (hf : ∀ x, CommutesWith (State.placed l r m) (f x))
    (reg : Option F32) (s : State) :
    withReg reg (f · (s.placed l r m)) = andThen (withReg reg (f · s)) fun t => .next (t.placed l r m) := by
  simp only [andThen_withReg, hf _ s]

theorem commutesWith_exec_placed {i : Instr} (hi : isMicroStep i = true) (hs : i ∉ [Instr.input, .mixL, .mixR]) :
    CommutesWith (State.placed l r m) (exec i) := by
  intro s
  cases i
  case construct | reset | runBlock | select | latch | frame | derive | clear => cases hi
  case input | mixL | mixR => simp at hs
  case adv | smooth => rfl
  case sameL | sameR | diffL | diffR => exact withReg_placed l r m (commutesWith_reflect l r m · _ _) _ s
  case combL | combR =>
    simp only [exec, execCombL, execCombR, andThen_comb]
    rfl
  case apf1L | apf1R | apf2L | apf2R =>
    exact withReg_placed l r m (fun _ => commutesWith_apf l r m fun _ _ => rfl) _ s

theorem commutesWith_derive_placed (p : BitVec 32) : CommutesWith (State.placed l r m) (derive p) := by
  intro s
  have hentry (e : CatalogEntry) : (s.placed l r m).deriveEntry p e = (s.deriveEntry p e).placed l r m := by
    simp only [deriveEntry_eq]
    rfl
  have hcatalog : (s.placed l r m).catalog = s.catalog := rfl
  simp only [derive, hcatalog, hentry]
  cases catalogEntry? s.catalog p <;> rfl

theorem commutesWith_execSelect_placed : CommutesWith (State.placed l r m) execSelect := by
  intro s
  simp only [execSelect, selectPreset, andThen_ite, ← commutesWith_derive_placed l r m _ s]
  rfl

theorem commutesWith_execLatch_placed : CommutesWith (State.placed l r m) execLatch := fun _ => rfl

end Placed

/-- The micro-steps between IN and MIX_L. -/
def microBody : List (BitVec 4 × (State → Out)) := ((microInstrs.drop 1).take 12).map fun p => (p.1, exec p.2)

theorem microProgram_eq_body :
    microProgram = (0x0#4, exec .input) :: (microBody ++ [(0xD#4, exec .mixL), (0xE#4, exec .mixR)]) := rfl

theorem commutesWith_microBody_placed (l r : Nat) (m : WordMem) :
    CommutesWith (State.placed l r m) (runMicro microBody) := by
  refine commutesWith_runMicro (fun _ _ => rfl) fun p hp => ?_
  obtain ⟨q, hq, rfl⟩ := List.mem_map.1 hp
  have hplain : ∀ q ∈ (microInstrs.drop 1).take 12,
      isMicroStep q.2 = true ∧ q.2 ∉ [Instr.input, .mixL, .mixR] := by decide
  exact commutesWith_exec_placed l r m (hplain q hq).1 (hplain q hq).2

/-- A FRAME is IN, the micro-steps of the body, MIX_L and MIX_R (R126, R180). -/
theorem execFrame_eq_next_body {s t : State} :
    execFrame s = .next t ↔
      ∃ a b c d, exec .input (s.clearWorking.atUstep 0x0#4) = .next a ∧ runMicro microBody a = .next b ∧
        exec .mixL (b.atUstep 0xD#4) = .next c ∧ exec .mixR (c.atUstep 0xE#4) = .next d ∧ t = d.clearWorking := by
  rw [execFrame_eq_next, microProgram_eq_body]
  constructor
  · rintro ⟨u, hrun, rfl⟩
    obtain ⟨a, hin, hrun⟩ := andThen_eq_next.1 hrun
    rw [runMicro_append] at hrun
    obtain ⟨b, hbody, hrun⟩ := andThen_eq_next.1 hrun
    obtain ⟨c, hmixL, hrun⟩ := andThen_eq_next.1 hrun
    obtain ⟨d, hmixR, hrun⟩ := andThen_eq_next.1 hrun
    cases hrun
    exact ⟨a, b, c, u, hin, hbody, hmixL, hmixR, rfl⟩
  · rintro ⟨a, b, c, d, hin, hbody, hmixL, hmixR, rfl⟩
    refine ⟨d, andThen_eq_next.2 ⟨a, hin, ?_⟩, rfl⟩
    rw [runMicro_append, hbody, andThen_next]
    exact andThen_eq_next.2 ⟨c, hmixL, andThen_eq_next.2 ⟨d, hmixR, rfl⟩⟩

theorem k_of_microStep {i : Instr} (hi : isMicroStep i = true) {s t : State} (h : exec i s = .next t) : t.k = s.k :=
  congrArg (fun q => q.2.2.2.1) (sequencer_of_exec (.inl hi) h)

theorem runMicro_microBody_k {s t : State} (h : runMicro microBody s = .next t) : t.k = s.k := by
  refine runMicro_keeps (P := fun u => u.k = s.k) (fun _ _ hu => hu) (fun p hp u v hu hv => ?_) s t rfl h
  obtain ⟨q, hq, rfl⟩ := List.mem_map.1 hp
  have hmicro : isMicroStep q.2 = true :=
    isMicroStep_of_mem_microInstrs q (List.drop_subset _ _ (List.take_subset _ _ hq))
  exact (k_of_microStep hmicro hv).trans hu

/-- No frame writes K (R43). -/
theorem execFrame_k {s t : State} (h : execFrame s = .next t) : t.k = s.k :=
  execFrame_keeps (P := fun u => u.k = s.k) (fun _ _ hu => hu) (fun _ hu => hu)
    (fun _ _ _ hm hu => by cases hm <;> exact hu) rfl h

/-- An operation on two working registers answers a next state where both hold a value. -/
theorem withReg_withReg_eq_next {r₁ r₂ : Option F32} {f : F32 → F32 → State} {t : State} :
    (withReg r₁ fun x => withReg r₂ fun y => .next (f x y)) = .next t ↔
      ∃ x y, r₁ = some x ∧ r₂ = some y ∧ f x y = t := by
  simp [withReg_eq_next]

/-- MIX_L answers one value, and the placement decides only the address it is stored at. -/
theorem mixL_placed {s t : State} (h : exec .mixL s = .next t) :
    ∃ y, ∀ l r m, exec .mixL (s.placed l r m) = .next (t.placed l r (memWrite m (l + s.k) y)) := by
  obtain ⟨wet, dry, hwet, hdry, rfl⟩ := withReg_withReg_eq_next.1 h
  exact ⟨mixValue s.draws wet dry s.gWet s.gDry s.gMaster, fun l r m =>
    withReg_withReg_eq_next.2 ⟨wet, dry, hwet, hdry, rfl⟩⟩

/-- MIX_R likewise. -/
theorem mixR_placed {s t : State} (h : exec .mixR s = .next t) :
    ∃ y, ∀ l r m, exec .mixR (s.placed l r m) = .next (t.placed l r (memWrite m (r + s.k) y)) := by
  obtain ⟨wet, dry, hwet, hdry, rfl⟩ := withReg_withReg_eq_next.1 h
  exact ⟨mixValue s.draws wet dry s.gWet s.gDry s.gMaster, fun l r m =>
    withReg_withReg_eq_next.2 ⟨wet, dry, hwet, hdry, rfl⟩⟩

/-- IN reads two samples and nothing else of the streams. -/
theorem input_placed {s t : State} (h : exec .input s = .next t) {l r : Nat} {m : WordMem}
    (hinL : memRead m (s.ports.inL + s.k) = memRead s.samples (s.ports.inL + s.k))
    (hinR : memRead m (s.ports.inR + s.k) = memRead s.samples (s.ports.inR + s.k)) :
    exec .input (s.placed l r m) = .next (t.placed l r m) := by
  cases h
  have hL : readInL (s.placed l r m) = readInL s := hinL
  have hR : readInR (s.placed l r m) = readInR s := hinR
  simp only [exec, execInput, hL, hR]
  rfl

/-- A FRAME answers two output values; the placement of the streams decides where they are stored and nothing else, as
long as IN reads the same two samples. -/
theorem execFrame_placed {s t : State} (h : execFrame s = .next t) :
    ∃ yL yR, ∀ l r m, memRead m (s.ports.inL + s.k) = memRead s.samples (s.ports.inL + s.k) →
      memRead m (s.ports.inR + s.k) = memRead s.samples (s.ports.inR + s.k) →
      execFrame (s.placed l r m) =
        .next (t.placed l r (memWrite (memWrite m (l + s.k) yL) (r + s.k) yR)) := by
  obtain ⟨a, b, c, d, hin, hbody, hmixL, hmixR, rfl⟩ := execFrame_eq_next_body.1 h
  have ha : a.k = s.k := k_of_microStep (s := s.clearWorking.atUstep 0x0#4) rfl hin
  have hb : b.k = s.k := (runMicro_microBody_k hbody).trans ha
  have hc : c.k = s.k := (k_of_microStep (s := b.atUstep 0xD#4) rfl hmixL).trans hb
  obtain ⟨yL, hL⟩ := mixL_placed hmixL
  obtain ⟨yR, hR⟩ := mixR_placed hmixR
  refine ⟨yL, yR, fun l r m hinL hinR => execFrame_eq_next_body.2 ⟨_, _, _, _, input_placed hin hinL hinR,
    (commutesWith_microBody_placed l r m).next hbody, hL l r m, hR l r _, ?_⟩⟩
  simp only [State.atUstep, hb, hc]
  rfl

/-- From frame `k` on, two placements of the streams of one block of `n` frames agree: on the input samples still to be
read and on the output samples written. -/
structure StreamsAgree (n k : Nat) (p : Ports) (l r : Nat) (m m' : WordMem) : Prop where
  wf : memWf m = true
  wf' : memWf m' = true
  inL : ∀ j, k ≤ j → j < n → memRead m' (p.inL + j) = memRead m (p.inL + j)
  inR : ∀ j, k ≤ j → j < n → memRead m' (p.inR + j) = memRead m (p.inR + j)
  outL : ∀ j, j < k → memRead m' (l + j) = memRead m (p.outL + j)
  outR : ∀ j, j < k → memRead m' (r + j) = memRead m (p.outR + j)

/-- R80 in addresses: two outputs never meet, an output meets the other channel's input nowhere and its own input only
in the same element. -/
theorem ne_of_streamsMeetR80 {n : Nat} {p : Ports} (h : streamsMeetR80 n p = true) {i j : Nat} (hi : i < n)
    (hj : j < n) :
    p.outL + i ≠ p.outR + j ∧ p.outL + i ≠ p.inR + j ∧ p.outR + i ≠ p.inL + j ∧
      (i ≠ j → p.outL + i ≠ p.inL + j ∧ p.outR + i ≠ p.inR + j) := by
  simp only [streamsMeetR80, overlaps, Bool.and_eq_true, Bool.or_eq_true, Bool.not_eq_true', Bool.and_eq_false_iff,
    decide_eq_false_iff_not, beq_iff_eq] at h
  omega

/-- What frame `k` stores is read back at its two output elements; the inputs of the later frames and the outputs of the
earlier ones are what they were. -/
theorem memRead_frame_outputs {n k : Nat} {p : Ports} (h : streamsMeetR80 n p = true) (hk : k < n) {m : WordMem}
    (hm : memWf m = true) (yL yR : F32) :
    let m' := memWrite (memWrite m (p.outL + k) yL) (p.outR + k) yR
    (∀ j, k < j → j < n → memRead m' (p.inL + j) = memRead m (p.inL + j) ∧
      memRead m' (p.inR + j) = memRead m (p.inR + j)) ∧
    (∀ j, j < k → memRead m' (p.outL + j) = memRead m (p.outL + j) ∧
      memRead m' (p.outR + j) = memRead m (p.outR + j)) ∧
    memRead m' (p.outL + k) = yL ∧ memRead m' (p.outR + k) = yR := by
  have hother {a : Nat} (hL : p.outL + k ≠ a) (hR : p.outR + k ≠ a) :
      memRead (memWrite (memWrite m (p.outL + k) yL) (p.outR + k) yR) a = memRead m a :=
    (memRead_memWrite_ne hR.symm).trans (memRead_memWrite_ne hL.symm)
  refine ⟨fun j hkj hj => ?_, fun j hj => ?_, ?_, ?_⟩
  · obtain ⟨-, hLR, hRL, hown⟩ := ne_of_streamsMeetR80 h hk hj
    exact ⟨hother (hown hkj.ne).1 hRL, hother hLR (hown hkj.ne).2⟩
  · exact ⟨hother (by omega) (ne_of_streamsMeetR80 h (hj.trans hk) hk).1.symm,
      hother (ne_of_streamsMeetR80 h hk (hj.trans hk)).1 (by omega)⟩
  · rw [memRead_memWrite_ne (ne_of_streamsMeetR80 h hk hk).1, memRead_memWrite_same hm]
  · exact memRead_memWrite_same (memWf_memWrite hm _ _)

/-- One frame more: its two outputs are written in both placements, and the streams still agree. -/
theorem StreamsAgree.frame {n k : Nat} {p : Ports} {l r : Nat} {m m' : WordMem} (h : StreamsAgree n k p l r m m')
    (hp : streamsMeetR80 n p = true) (hq : streamsMeetR80 n { p with outL := l, outR := r } = true) (hk : k < n)
    (yL yR : F32) :
    StreamsAgree n (k + 1) p l r (memWrite (memWrite m (p.outL + k) yL) (p.outR + k) yR)
      (memWrite (memWrite m' (l + k) yL) (r + k) yR) := by
  obtain ⟨hin, hout, hL, hR⟩ := memRead_frame_outputs hp hk h.wf yL yR
  obtain ⟨hin', hout', hL', hR'⟩ := memRead_frame_outputs hq hk h.wf' yL yR
  refine ⟨memWf_memWrite (memWf_memWrite h.wf _ _) _ _, memWf_memWrite (memWf_memWrite h.wf' _ _) _ _,
    fun j hkj hj => ?_, fun j hkj hj => ?_, fun j hj => ?_, fun j hj => ?_⟩
  · exact (hin' j hkj hj).1.trans ((h.inL j (by omega) hj).trans (hin j hkj hj).1.symm)
  · exact (hin' j hkj hj).2.trans ((h.inR j (by omega) hj).trans (hin j hkj hj).2.symm)
  · rcases Nat.lt_succ_iff_lt_or_eq.1 hj with hj | rfl
    · exact (hout' j hj).1.trans ((h.outL j hj).trans (hout j hj).1.symm)
    · exact hL'.trans hL.symm
  · rcases Nat.lt_succ_iff_lt_or_eq.1 hj with hj | rfl
    · exact (hout' j hj).2.trans ((h.outR j hj).trans (hout j hj).2.symm)
    · exact hR'.trans hR.symm

/-- The frames of a block on another placement of its streams. -/
theorem runFrames_placed {n c : Nat} {s t : State} (h : runFrames c s = .next t) {p : Ports} {l r : Nat}
    (hp : streamsMeetR80 n p = true) (hq : streamsMeetR80 n { p with outL := l, outR := r } = true)
    (hports : s.ports = p) (hcount : s.k + c = n) {m : WordMem} (hagree : StreamsAgree n s.k p l r s.samples m) :
    ∃ m', runFrames c (s.placed l r m) = .next (t.placed l r m') ∧ StreamsAgree n n p l r t.samples m' := by
  induction c generalizing s m with
  | zero =>
    cases h
    exact ⟨m, rfl, by simpa [← hcount] using hagree⟩
  | succ c ih =>
    obtain ⟨u, hframe, h⟩ := andThen_eq_next.1 h
    have hk : s.k < n := by omega
    obtain ⟨yL, yR, hplaced⟩ := execFrame_placed hframe
    subst hports
    have hself := Host.Outcome.next.inj (hframe.symm.trans (hplaced s.ports.outL s.ports.outR s.samples rfl rfl))
    have hother := hplaced l r m (hagree.inL _ le_rfl hk) (hagree.inR _ le_rfl hk)
    have hports : u.ports = s.ports := (congrArg State.ports (State.EngineStep.of_execFrame hframe).outside :)
    have hcounted : u.frameDone.k = s.k + 1 := congrArg (· + 1) (execFrame_k hframe)
    have hsamples : u.samples = _ := congrArg State.samples hself
    obtain ⟨m', hrun, hlast⟩ := ih h hports (by omega)
      (by rw [hcounted, frameDone_samples, hsamples]; exact hagree.frame hp hq hk yL yR)
    exact ⟨m', andThen_eq_next.2 ⟨_, hother, hrun⟩, hlast⟩

theorem execRunBlock_of_admitted {s : State} {n : BitVec 24} (hp : s.phase = .idle) (hl : s.life = .ready)
    (hn : n ≠ 0#24) (hstreams : streamsMeetR80 n.toNat s.ports = true) :
    exec (.runBlock n) s = runBlockBody n.toNat s := by
  have hpos : n.toNat ≠ 0 := fun h => hn (BitVec.eq_of_toNat_eq h)
  simp [exec, execRunBlock, whenLife_of_ready hp hl, hpos, hstreams]

/-- A block's body on another placement of its streams. -/
theorem runBlockBody_placed {n : Nat} {s t : State} {l r : Nat} (hm : memWf s.samples = true)
    (hp : streamsMeetR80 n s.ports = true) (hq : streamsMeetR80 n { s.ports with outL := l, outR := r } = true)
    (h : runBlockBody n s = .next t) :
    ∃ m', runBlockBody n (s.placed l r s.samples) = .next (t.placed l r m') ∧
      StreamsAgree n n s.ports l r t.samples m' := by
  obtain ⟨u, hselect, h⟩ := andThen_eq_next.1 h
  obtain ⟨v, hlatch, h⟩ := andThen_eq_next.1 h
  obtain ⟨w, hframes, h⟩ := andThen_eq_next.1 h
  cases h
  obtain ⟨hports, hsamples⟩ : u.ports = s.ports ∧ u.samples = s.samples := by
    rcases execSelect_cases hselect with rfl | ⟨-, ⟨e, -, rfl⟩ | ⟨-, rfl⟩⟩
    · exact ⟨rfl, rfl⟩
    · rw [deriveEntry_eq]
      exact ⟨rfl, rfl⟩
    · exact ⟨rfl, rfl⟩
  have hselect' := (commutesWith_execSelect_placed l r s.samples).next hselect
  have hlatch' := (commutesWith_execLatch_placed l r s.samples).next hlatch
  cases hlatch
  have hagree : StreamsAgree n 0 s.ports l r u.samples s.samples := by
    rw [hsamples]
    exact ⟨hm, hm, fun _ _ _ => rfl, fun _ _ _ => rfl, nofun, nofun⟩
  obtain ⟨m', hrun, hlast⟩ := runFrames_placed hframes hp hq hports (Nat.zero_add n) hagree
  exact ⟨m', andThen_eq_next.2 ⟨_, hselect', andThen_eq_next.2 ⟨_, hlatch', andThen_eq_next.2 ⟨_, hrun, rfl⟩⟩⟩,
    hlast⟩

/-- Settles O18, by the block's body on the other placement: the two placements agree on all `n` output elements. -/
theorem inPlaceEqualsDisjoint : Obligations.InPlaceEqualsDisjoint := by
  intro s n outL outR hp hl hn hm hstreams hstreams' t h
  rw [execRunBlock_of_admitted hp hl hn hstreams] at h
  obtain ⟨m', hrun, hagree⟩ := runBlockBody_placed hm hstreams hstreams' h
  refine ⟨t.placed outL outR m', ?_, fun j hj => ⟨hagree.outL j hj, hagree.outR j hj⟩, rfl⟩
  exact (execRunBlock_of_admitted (s := s.placed outL outR s.samples) hp hl hn hstreams').trans hrun

end Sys2Proof.Machine
end

section
/-! Decoding and encoding of code words, the refusal of host words and of streams, and assembly (30_encoding.md R91 to
R109; 20_memory.md R80). -/

namespace Sys2Proof.Machine

@[simp] theorem opcField_append (opc : BitVec 8) (imm : BitVec 24) : opcField (opc ++ imm) = opc :=
  BitVec.extractLsb'_append_eq_left

@[simp] theorem immField_append (opc : BitVec 8) (imm : BitVec 24) : immField (opc ++ imm) = imm :=
  BitVec.extractLsb'_append_eq_right

/-- A format H word is its two fields (R91). -/
theorem opcField_append_immField (w : BitVec 32) : opcField w ++ immField w = w := by
  rw [opcField, immField, BitVec.extractLsb'_append_extractLsb'_eq_extractLsb' (by decide)]
  simp

theorem toNat_opcField (w : BitVec 32) : (opcField w).toNat = w.toNat / 2 ^ 24 := by
  rw [opcField, BitVec.extractLsb'_toNat, Nat.shiftRight_eq_div_pow]
  omega

theorem toNat_immField (w : BitVec 32) : (immField w).toNat = w.toNat % 2 ^ 24 := by
  rw [immField, BitVec.extractLsb'_toNat, Nat.shiftRight_zero]

theorem opcField_eq_iff {w : BitVec 32} {opc : BitVec 8} : opcField w = opc ↔ w.toNat / 2 ^ 24 = opc.toNat := by
  rw [← BitVec.toNat_inj, toNat_opcField]

theorem immField_eq_iff {w : BitVec 32} {imm : BitVec 24} : immField w = imm ↔ w.toNat % 2 ^ 24 = imm.toNat := by
  rw [← BitVec.toNat_inj, toNat_immField]

/-- A well-formed instruction's word decodes to it. -/
theorem decode_encode {i : Instr} (h : i.wf = true) : decode (encode i) = .ok i := by
  cases i
  case runBlock n =>
    have hn : n ≠ 0#24 := by simpa [Instr.wf] using h
    simp [encode, decode, decodeH, hn]
  all_goals rfl

theorem encode_of_decodeH {w : BitVec 32} {i : Instr} (h : decodeH w = .ok i) :
    i.wf = true ∧ encode i = .h w := by
  have hfields := opcField_append_immField w
  simp only [decodeH] at h
  split_ifs at h with hopc himm hopc himm hopc himm <;> cases h
  · exact ⟨rfl, by rw [encode, ← hopc, ← himm, hfields]⟩
  · exact ⟨rfl, by rw [encode, ← hopc, ← himm, hfields]⟩
  · exact ⟨by simpa [Instr.wf] using himm, by rw [encode, ← hopc, hfields]⟩

/-- A word that decodes is the encoding of what it decodes to. -/
theorem encode_of_decode {w : CodeWord} {i : Instr} (h : decode w = .ok i) : i.wf = true ∧ encode i = w := by
  cases w with
  | h w => exact encode_of_decodeH h
  | i c | u c =>
    simp only [decode, decodeI, decodeU] at h
    split at h <;> cases h
    all_goals
      rename_i hc
      exact ⟨rfl, (congrArg _ (BitVec.eq_of_toNat_eq hc)).symm⟩

/-- Settles O2: the encoder undoes the decoder, and the decoder undoes the encoder on well-formed instructions. -/
theorem decodeInvertsEncode : Obligations.DecodeInvertsEncode :=
  fun _ _ => ⟨encode_of_decode, fun ⟨hwf, hw⟩ => hw ▸ decode_encode hwf⟩

/-- Settles O1, by evaluating the decoder on each word. -/
theorem specWordsDecode : Obligations.SpecWordsDecode := by
  unfold Obligations.SpecWordsDecode
  decide

/-- Settles O3, by the fields read as numbers. -/
theorem hostWordDecoding : Obligations.HostWordDecoding := by
  intro w opc imm
  have hopc (v : BitVec 8) : opcField w = v ↔ opc = v.toNat := opcField_eq_iff
  have himm (v : BitVec 24) : immField w = v ↔ imm = v.toNat := immField_eq_iff
  have hself : immField w = BitVec.ofNat 24 imm := (himm _).2 (by simp [imm])
  simp only [decode, decodeH, hopc, himm]
  refine ⟨fun ⟨ho, hi⟩ => ?_, fun ⟨ho, hi⟩ => ?_, fun ⟨ho, hi⟩ => ?_, fun hc hr hb => ?_⟩
  · simp [ho, hi]
  · simp [ho, hi]
  · simp [ho, hi, hself]
  · split_ifs with ho hi ho hi ho hi
    exacts [absurd ⟨ho, hi⟩ hc, ⟨_, rfl⟩, absurd ⟨ho, hi⟩ hr, ⟨_, rfl⟩, ⟨_, rfl⟩, absurd ⟨ho, hi⟩ hb, ⟨_, rfl⟩]

/-- A word that decodes to no command is taken off the queue and refused (R102, R103). -/
theorem step_of_undecodable {s : State} (hp : s.phase = .idle) {c : HostCommand} {rest : List HostCommand}
    {e : DecodeError} (hq : s.pending = c :: rest) (hd : decode (.h c.word) = .error e) :
    step s = .next (s.present c rest).refuse := by
  simp only [step, State.fetch, hp, hq, hd]

/-- Settles O4: the word's fields are those of no command, so it does not decode. -/
theorem reservedHostWordIsRefused : Obligations.ReservedHostWordIsRefused := by
  intro s c rest hp hq hreserved
  obtain ⟨-, -, -, herror⟩ := hostWordDecoding c.word
  obtain ⟨e, he⟩ := herror (by omega) (by omega) (by omega)
  exact step_of_undecodable hp hq he

/-- Two streams overlap exactly where they share a word. -/
theorem overlaps_iff_shareWord {n a b : Nat} : overlaps n a b = true ↔ Claims.ShareWord n a b := by
  simp only [overlaps, Claims.ShareWord, Bool.and_eq_true, decide_eq_true_iff]
  constructor
  · rintro ⟨hab, hba⟩
    exact ⟨b - a, a - b, by omega, by omega, by omega⟩
  · rintro ⟨i, j, hi, hj, h⟩
    omega

/-- RUN_BLOCK's two checks on a READY instance: the length, then the streams (R229). -/
theorem exec_runBlock_of_refused {s : State} {n : BitVec 24} (hp : s.phase = .idle) (hl : s.life = .ready)
    (h : n = 0#24 ∨ streamsMeetR80 n.toNat s.ports = false) : exec (.runBlock n) s = .next s.refuse := by
  simp only [exec, execRunBlock, whenLife_of_ready hp hl]
  rcases h with rfl | h
  · rfl
  · simp [h]

/-- Settles O13, by RUN_BLOCK's checks and by what `overlaps` says in addresses. -/
theorem runBlockRefusals : Obligations.RunBlockRefusals := by
  refine ⟨fun s n hp hl h => exec_runBlock_of_refused hp hl h, fun n p => ?_⟩
  simp only [streamsMeetR80, Bool.and_eq_true, Bool.or_eq_true, Bool.not_eq_true', beq_iff_eq,
    ← Bool.not_eq_true, overlaps_iff_shareWord]
  tauto

-- assembly (R108, R109)

theorem asmNum_dec (neg : Bool) (digits scale : Nat) :
    asmNum (.dec neg digits scale) =
      BitVec.ofNat 32 (Fmt.withSign .b32 neg (Fmt.roundMag .b32 (digits * 2 ^ 149) (10 ^ scale))) := rfl

/-- A RUN_BLOCK command carries IMM24 samples per channel (R108). -/
theorem hostCommand_wf_of_runBlock {c : HostCommand} (h : opcField c.word = 0x03#8)
    (hl : c.samplesL.length = (immField c.word).toNat) (hr : c.samplesR.length = (immField c.word).toNat) :
    c.wf = true := by
  rw [opcField] at h
  rw [immField] at hl hr
  simp only [HostCommand.wf, h, hl, hr, beq_self_eq_true, if_true, Bool.and_self]

/-- Another command carries none (R108). -/
theorem hostCommand_wf_of_opcField_ne {c : HostCommand} (h : opcField c.word ≠ 0x03#8) (hl : c.samplesL = [])
    (hr : c.samplesR = []) : c.wf = true := by
  rw [opcField] at h
  simp [HostCommand.wf, h, hl, hr]

theorem wf_assembleRun {n : Nat} (hn : n < 2 ^ 24) (p : Int) (wet dry master : AsmNum) {l r : List AsmNum}
    (hl : l.length = n) (hr : r.length = n) : (assembleRun n p wet dry master l r).wf = true := by
  have himm : (immField (assembleRun n p wet dry master l r).word).toNat = n := by
    rw [assembleRun, immField_append, BitVec.toNat_ofNat, Nat.mod_eq_of_lt hn]
  refine hostCommand_wf_of_runBlock (opcField_append _ _) ?_ ?_
  · rw [himm, assembleRun, List.length_map, hl]
  · rw [himm, assembleRun, List.length_map, hr]

theorem decode_assembleRun {n : Nat} (hpos : 0 < n) (hn : n < 2 ^ 24) (p : Int) (wet dry master : AsmNum)
    (l r : List AsmNum) :
    decode (.h (assembleRun n p wet dry master l r).word) = .ok (.runBlock (BitVec.ofNat 24 n)) := by
  have hne : BitVec.ofNat 24 n ≠ 0#24 := by bv_omega
  exact decode_encode (i := .runBlock (BitVec.ofNat 24 n)) (bne_iff_ne.2 hne)

/-- The four streams laid one after the other are disjoint. -/
theorem streamsMeetR80_assembleRun (n : Nat) (p : Int) (wet dry master : AsmNum) (l r : List AsmNum) :
    streamsMeetR80 n (assembleRun n p wet dry master l r).ports = true := by
  simp only [streamsMeetR80, overlaps, Bool.and_eq_true, Bool.or_eq_true, Bool.not_eq_true',
    Bool.and_eq_false_iff, decide_eq_false_iff_not]
  simp only [assembleRun]
  omega

theorem toInt_presetIn_assembleRun {p : Int} (hlo : -(2 ^ 31) ≤ p) (hhi : p < 2 ^ 31) (n : Nat)
    (wet dry master : AsmNum) (l r : List AsmNum) :
    (assembleRun n p wet dry master l r).ports.presetIn.toInt = p :=
  BitVec.toInt_ofInt_eq_self (by decide) hlo hhi

theorem blockOperandsWf_iff {n : Nat} {p : Int} :
    blockOperandsWf n p = true ↔ 0 < n ∧ n < 2 ^ 24 ∧ -(2 ^ 31) ≤ p ∧ p < 2 ^ 31 := by
  simp only [blockOperandsWf, Bool.and_eq_true, decide_eq_true_iff]
  rw [Config.blockMax]
  omega

/-- An impulse and the silence after it fill a block (R109). -/
theorem length_cons_replicate_pred {n : Nat} (hn : 0 < n) (a : AsmNum) :
    (a :: List.replicate (n - 1) asmZero).length = n := by
  rw [List.length_cons, List.length_replicate]
  omega

theorem wf_assemble {l : AsmLine} (h : l.wf = true) : (assemble l).wf = true := by
  cases l with
  | construct | reset => exact hostCommand_wf_of_opcField_ne (by simp [assemble, opcField]) rfl rfl
  | runBlock n p wet dry master inL inR =>
    simp only [AsmLine.wf, Bool.and_eq_true, beq_iff_eq, blockOperandsWf_iff] at h
    obtain ⟨⟨-, hn, -⟩, hl, hr⟩ := h
    exact wf_assembleRun hn p wet dry master hl hr
  | silence n p wet dry master =>
    obtain ⟨-, hn, -⟩ := blockOperandsWf_iff.1 h
    exact wf_assembleRun hn p wet dry master List.length_replicate List.length_replicate
  | impulseL n a p wet dry master =>
    obtain ⟨hpos, hn, -⟩ := blockOperandsWf_iff.1 h
    exact wf_assembleRun hn p wet dry master (length_cons_replicate_pred hpos a) List.length_replicate
  | impulseR n a p wet dry master =>
    obtain ⟨hpos, hn, -⟩ := blockOperandsWf_iff.1 h
    exact wf_assembleRun hn p wet dry master List.length_replicate (length_cons_replicate_pred hpos a)

/-- Settles O5, by what `assembleRun` lays out; a pseudo-instruction is its expansion by definition. -/
theorem assemblyLinesAssemble : Obligations.AssemblyLinesAssemble := by
  refine ⟨fun l h => ⟨wf_assemble h, ?_⟩, asmNum_dec, by decide, rfl, rfl, fun _ => rfl⟩
  cases l with
  | construct neg digits scale caps =>
    refine ⟨decode_encode (i := .construct) rfl, rfl, ?_⟩
    rcases caps with _ | _ | _ <;> rfl
  | reset => exact decode_encode (i := .reset) rfl
  | runBlock n p wet dry master inL inR =>
    simp only [AsmLine.wf, Bool.and_eq_true, blockOperandsWf_iff] at h
    obtain ⟨⟨hpos, hn, hlo, hhi⟩, -⟩ := h
    exact ⟨decode_assembleRun hpos hn _ _ _ _ _ _, streamsMeetR80_assembleRun _ _ _ _ _ _ _,
      toInt_presetIn_assembleRun hlo hhi _ _ _ _ _ _, rfl, rfl, rfl, rfl, rfl⟩
  | silence | impulseL | impulseR => rfl

end Sys2Proof.Machine
end

section
/-! A FRAME completes and what it writes (40_host_commands.md R126, 42_frame_datapath.md R180, R199). No micro-step of
the program reads a working register before another has written it, so while 1 <= B <= CAP none of them stops. -/

namespace Sys2Proof.Machine

/-- Which of Lin, Rin, Lout and Rout hold a value (R40). -/
def State.held (s : State) : Bool × Bool × Bool × Bool :=
  (s.lin.isSome, s.rin.isSome, s.lout.isSome, s.rout.isSome)

/-- Which working registers hold a value after a micro-step; none where it reads one that holds no value. -/
def heldAfter : Instr → Bool × Bool × Bool × Bool → Option (Bool × Bool × Bool × Bool)
  | .input, (_, _, lo, ro) => some (true, true, lo, ro)
  | .combL, (l, r, _, ro) => some (l, r, true, ro)
  | .combR, (l, r, lo, _) => some (l, r, lo, true)
  | .sameL, h | .diffL, h => if h.1 then some h else none
  | .sameR, h | .diffR, h => if h.2.1 then some h else none
  | .apf1L, h | .apf2L, h => if h.2.2.1 then some h else none
  | .apf1R, h | .apf2R, h => if h.2.2.2 then some h else none
  | .mixL, h => if h.2.2.1 && h.1 then some h else none
  | .mixR, h => if h.2.2.2 && h.2.1 then some h else none
  | .adv, h | .smooth, h => some h
  | .construct, _ | .reset, _ | .runBlock _, _ | .select, _ | .latch, _ | .frame, _ | .derive, _
  | .clear, _ => none

theorem withReg_of_eq_some {r : Option F32} {x : F32} {k : F32 → Out} {t : State} (hr : r = some x)
    (h : k x = .next t) : withReg r k = .next t :=
  withReg_eq_next.2 ⟨x, hr, h⟩

/-- A micro-step whose working registers hold values completes while 1 <= B <= CAP. -/
theorem exec_of_heldAfter {i : Instr} {s : State} (hs : s.Sized) {h : Bool × Bool × Bool × Bool}
    (hh : heldAfter i s.held = some h) : ∃ t, exec i s = .next t ∧ t.Sized ∧ t.held = h := by
  cases i
  case construct | reset | runBlock | select | latch | frame | derive | clear => cases hh
  case input | adv | smooth =>
    cases hh
    exact ⟨_, rfl, ⟨hs.pos, hs.leCap⟩, rfl⟩
  case combL =>
    cases hh
    exact ⟨_, comb_of_sized hs _ _ _ _ fun v => .next (State.drew { s with lout := some v } 7),
      ⟨hs.pos, hs.leCap⟩, rfl⟩
  case combR =>
    cases hh
    exact ⟨_, comb_of_sized hs _ _ _ _ fun v => .next (State.drew { s with rout := some v } 7),
      ⟨hs.pos, hs.leCap⟩, rfl⟩
  case sameL | sameR | diffL | diffR =>
    obtain ⟨hreg, hkeep⟩ := Option.ite_none_right_eq_some.1 hh
    obtain ⟨x, hx⟩ := Option.isSome_iff_exists.1 hreg
    cases hkeep
    exact ⟨_, withReg_of_eq_some hx (reflect_of_sized hs x _ _), ⟨hs.pos, hs.leCap⟩, rfl⟩
  case apf1L | apf1R | apf2L | apf2R =>
    obtain ⟨hreg, hkeep⟩ := Option.ite_none_right_eq_some.1 hh
    obtain ⟨x, hx⟩ := Option.isSome_iff_exists.1 hreg
    cases hkeep
    exact ⟨_, withReg_of_eq_some hx (apf_of_sized hs x _ _ _ _), ⟨hs.pos, hs.leCap⟩,
      by simp [State.held, hx]⟩
  case mixL | mixR =>
    obtain ⟨hregs, hkeep⟩ := Option.ite_none_right_eq_some.1 hh
    obtain ⟨hwet, hdry⟩ := Bool.and_eq_true_iff.1 hregs
    obtain ⟨wet, hwet⟩ := Option.isSome_iff_exists.1 hwet
    obtain ⟨dry, hdry⟩ := Option.isSome_iff_exists.1 hdry
    cases hkeep
    exact ⟨_, withReg_withReg_eq_next.2 ⟨wet, dry, hwet, hdry, rfl⟩, ⟨hs.pos, hs.leCap⟩, rfl⟩

/-- A list of micro-steps that reads no register before its first write completes. -/
theorem runMicro_of_heldAfter {l : List (BitVec 4 × Instr)} {s : State} (hs : s.Sized)
    {h : Bool × Bool × Bool × Bool} (hh : l.foldlM (fun h p => heldAfter p.2 h) s.held = some h) :
    ∃ t, runMicro (l.map fun p => (p.1, exec p.2)) s = .next t := by
  induction l generalizing s with
  | nil => exact ⟨s, rfl⟩
  | cons p l ih =>
    rw [List.foldlM_cons] at hh
    obtain ⟨h1, hp, hl⟩ := Option.bind_eq_some_iff.1 hh
    obtain ⟨u, hu, hsized, rfl⟩ := exec_of_heldAfter (s := s.atUstep p.1) ⟨hs.pos, hs.leCap⟩ hp
    obtain ⟨t, ht⟩ := ih hsized hl
    exact ⟨t, andThen_eq_next.2 ⟨u, hu, ht⟩⟩

theorem execFrame_completes {s : State} (hs : s.Sized) : ∃ t, execFrame s = .next t := by
  obtain ⟨u, hu⟩ := runMicro_of_heldAfter (l := microInstrs) (s := s.clearWorking) ⟨hs.pos, hs.leCap⟩ rfl
  exact ⟨u.clearWorking, execFrame_eq_next.2 ⟨u, hu, rfl⟩⟩

namespace State.sameOutsideFrame

variable {s t u : State}

theorem trans (h : s.sameOutsideFrame t) (g : t.sameOutsideFrame u) : s.sameOutsideFrame u :=
  Eq.trans g (congrArg (fun v : State => { v with
    cursor := u.cursor, ram := u.ram, gWet := u.gWet, gDry := u.gDry, gMaster := u.gMaster
    lin := u.lin, rin := u.rin, lout := u.lout, rout := u.rout, ustep := u.ustep
    samples := u.samples, draws := u.draws }) h)

theorem of_microEffect {i : Instr} (h : MicroEffect s i t) : s.sameOutsideFrame t := by
  cases h <;> rfl

theorem of_execFrame (h : execFrame s = .next t) : s.sameOutsideFrame t :=
  execFrame_keeps (P := s.sameOutsideFrame) (fun _ _ ha => ha.trans (Eq.refl _))
    (fun _ ha => ha.trans (Eq.refl _)) (fun _ _ _ hm ha => ha.trans (of_microEffect hm)) (Eq.refl s) h

end State.sameOutsideFrame

/-- The eight taps that a FRAME writes: those of the reflections and of the all-pass stages (R182, R190). -/
def writeTaps (p : Params) : List Int :=
  [p.mLSAME, p.mRSAME, p.mLDIFF, p.mRDIFF, p.mLAPF1, p.mRAPF1, p.mLAPF2, p.mRAPF2]

/-- A micro-step leaves the RAM, or comes before ADV and writes one word of it at a write tap. -/
theorem ram_of_microStep {i : Instr} (hi : isMicroStep i = true) {s t : State} (h : exec i s = .next t) :
    t.ram = s.ram ∨ i ∉ [Instr.adv, .smooth, .mixL, .mixR] ∧
      ∃ o ∈ writeTaps s.params, ∃ v, t.ram = memWrite s.ram (bufAddr s o) v := by
  cases i
  case construct | reset | runBlock | select | latch | frame | derive | clear => cases hi
  case input | adv | smooth =>
    cases h
    exact .inl rfl
  case combL | combR =>
    simp only [exec, execCombL, execCombR] at h
    cases comb_eq_next h
    exact .inl rfl
  case mixL | mixR =>
    obtain ⟨wet, dry, -, -, rfl⟩ := withReg_withReg_eq_next.1 h
    exact .inl rfl
  case sameL | sameR | diffL | diffR =>
    obtain ⟨x, -, h⟩ := withReg_eq_next.1 h
    obtain ⟨-, rfl⟩ := reflect_eq_next h
    exact .inr ⟨by decide, _, by simp [writeTaps], _, rfl⟩
  case apf1L | apf1R | apf2L | apf2R =>
    obtain ⟨x, -, h⟩ := withReg_eq_next.1 h
    obtain ⟨-, -, h⟩ := apf_eq_next h
    cases h
    exact .inr ⟨by decide, _, by simp [writeTaps], _, rfl⟩

/-- Before ADV the write taps are addressed from one CURSOR. -/
theorem memRead_runMicro_of_beforeAdv {l : List (BitVec 4 × Instr)}
    (hl : ∀ p ∈ l, isMicroStep p.2 = true ∧ p.2 ≠ .adv) {s t : State}
    (h : runMicro (l.map fun p => (p.1, exec p.2)) s = .next t) {a : Nat}
    (ha : a ∉ (writeTaps s.params).map (bufAddr s)) : memRead t.ram a = memRead s.ram a := by
  suffices hkeep : s.sameOutsideFrame t ∧ t.cursor = s.cursor ∧ memRead t.ram a = memRead s.ram a from hkeep.2.2
  refine runMicro_keeps (P := fun u => s.sameOutsideFrame u ∧ u.cursor = s.cursor ∧ memRead u.ram a = memRead s.ram a)
    (fun u c ⟨hsame, hrest⟩ => ⟨hsame.trans (Eq.refl _), hrest⟩) (fun p hp u v ⟨hsame, hcursor, hram⟩ hv => ?_) s t
    ⟨Eq.refl s, rfl, rfl⟩ h
  obtain ⟨q, hq, rfl⟩ := List.mem_map.1 hp
  obtain ⟨hmicro, hadv⟩ := hl q hq
  have heffect := microEffect_of_exec hmicro hv
  refine ⟨hsame.trans (.of_microEffect heffect), (heffect.cursor hadv).trans hcursor, ?_⟩
  rcases ram_of_microStep hmicro hv with hkept | ⟨-, o, ho, x, hwrite⟩
  · rw [hkept, hram]
  · have hparams : u.params = s.params := (congrArg State.params hsame :)
    have haddr : bufAddr u o = bufAddr s o := bufAddr_congr hcursor (congrArg State.bufSize hsame :) o
    rw [hwrite, haddr, memRead_memWrite_ne ?_, hram]
    rintro rfl
    exact ha (List.mem_map_of_mem (hparams ▸ ho))

/-- From ADV on the RAM stays. -/
theorem ram_runMicro_of_fromAdv {l : List (BitVec 4 × Instr)}
    (hl : ∀ p ∈ l, p.2 ∈ [Instr.adv, .smooth, .mixL, .mixR]) {s t : State}
    (h : runMicro (l.map fun p => (p.1, exec p.2)) s = .next t) : t.ram = s.ram := by
  refine runMicro_keeps (P := fun u => u.ram = s.ram) (fun _ _ hu => hu) (fun p hp u v hu hv => ?_) s t rfl h
  obtain ⟨q, hq, rfl⟩ := List.mem_map.1 hp
  have hmicro : ∀ i ∈ [Instr.adv, .smooth, .mixL, .mixR], isMicroStep i = true := by decide
  rcases ram_of_microStep (hmicro q.2 (hl q hq)) hv with hkept | ⟨hbefore, -⟩
  · exact hkept.trans hu
  · exact absurd (hl q hq) hbefore

/-- A FRAME writes the RAM at its eight write taps and nowhere else. -/
theorem memRead_ram_execFrame {s t : State} (h : execFrame s = .next t) {a : Nat}
    (ha : a ∉ (writeTaps s.params).map (bufAddr s)) : memRead t.ram a = memRead s.ram a := by
  obtain ⟨u, hrun, rfl⟩ := execFrame_eq_next.1 h
  have hsplit : microProgram = (microInstrs.take 11).map (fun p => (p.1, exec p.2)) ++
      (microInstrs.drop 11).map fun p => (p.1, exec p.2) := rfl
  rw [hsplit, runMicro_append] at hrun
  obtain ⟨v, hbefore, hfrom⟩ := andThen_eq_next.1 hrun
  have hram : u.ram = v.ram := ram_runMicro_of_fromAdv (by decide) hfrom
  exact (congrArg (memRead · a) hram).trans (memRead_runMicro_of_beforeAdv (by decide) hbefore ha)

/-- A FRAME stores its two outputs and writes no other sample (R199). -/
theorem samples_execFrame {s t : State} (h : execFrame s = .next t) :
    ∃ yL yR, t.samples = memWrite (memWrite s.samples (s.ports.outL + s.k) yL) (s.ports.outR + s.k) yR := by
  obtain ⟨yL, yR, hplaced⟩ := execFrame_placed h
  have hself := h.symm.trans (hplaced s.ports.outL s.ports.outR s.samples rfl rfl)
  exact ⟨yL, yR, congrArg State.samples (Host.Outcome.next.inj hself)⟩

theorem memRead_samples_execFrame {s t : State} (h : execFrame s = .next t) {a : Nat}
    (hL : a ≠ s.ports.outL + s.k) (hR : a ≠ s.ports.outR + s.k) : memRead t.samples a = memRead s.samples a := by
  obtain ⟨yL, yR, hsamples⟩ := samples_execFrame h
  rw [hsamples, memRead_memWrite_ne hR, memRead_memWrite_ne hL]

/-- The last micro-step of a FRAME is MIX_R. -/
theorem ustep_execFrame {s t : State} (h : execFrame s = .next t) : t.ustep = 0xE#4 := by
  obtain ⟨-, -, c, d, -, -, -, hmixR, rfl⟩ := execFrame_eq_next_body.1 h
  exact congrArg (·.2.2.1) (sequencer_of_exec (.inl rfl) hmixR)

/-- No working register is retained after a FRAME (R199). -/
theorem clearWorking_execFrame {s t : State} (h : execFrame s = .next t) : t.clearWorking = t := by
  obtain ⟨u, -, rfl⟩ := execFrame_eq_next.1 h
  rfl

/-- Settles O23: no micro-step stops, and what the 15 of them can write. -/
theorem frameCompletes : Obligations.FrameCompletes := by
  intro s hs
  obtain ⟨t, h⟩ := execFrame_completes hs
  have hclear := clearWorking_execFrame h
  exact ⟨t, h, .of_execFrame h, execFrame_cursor h, ustep_execFrame h, hclear ▸ rfl, hclear ▸ rfl, hclear ▸ rfl,
    hclear ▸ rfl, fun _ ha => memRead_ram_execFrame h ha, fun _ hL hR => memRead_samples_execFrame h hL hR⟩

end Sys2Proof.Machine
end

section
/-! Admission, RESET, LATCH with the decibel mapping, and SELECT, each as a function of the state (40_host_commands.md R120,
R122, R124, R125, R128). -/

namespace Sys2Proof.Machine

/-- Settles O8, by the two tests of admission. -/
theorem admissionRefusals : Obligations.AdmissionRefusals := by
  intro s n
  have hrefused (need : Life) (k : Out) (hp : s.phase = .idle) (hl : s.life ≠ need) :
      whenLife need s k = .next s.refuse := whenLife_eq_next.2 ⟨hp, .inr ⟨hl, rfl⟩⟩
  have hblock (need : Life) (k : Out) (hp : s.phase = .block) : whenLife need s k = .fault .commandDuringBlock := by
    simp only [whenLife, hp]
  exact ⟨fun hp => ⟨hrefused _ _ hp, fun hl => ⟨hrefused _ _ hp hl, hrefused _ _ hp hl⟩⟩,
    fun hp => ⟨hblock _ _ hp, hblock _ _ hp, hblock _ _ hp⟩⟩

/-- What a RESET clears is +0.0 and 0 after a CONSTRUCT. -/
theorem clearRam_constructed (s : State) :
    { s.constructed.clearRam with gWet := 0#32, gDry := 0#32, gMaster := 0#32 } = s.constructed := by
  rw [State.constructed, deriveEntry_eq]
  rfl

/-- Settles O12: RESET writes constants, and CONSTRUCT has written the same ones. -/
theorem resetClearsRamCursorGains : Obligations.ResetClearsRamCursorGains := by
  intro s hp
  refine ⟨fun hl => execReset_eq_next.2 ⟨hp, .inr ⟨hl, rfl⟩⟩, fun hl => ⟨?_, fun u hu hconstruct => ?_⟩⟩
  · exact ⟨{ s.clearRam with gWet := 0#32, gDry := 0#32, gMaster := 0#32 },
      execReset_eq_next.2 ⟨hp, .inl ⟨hl, rfl⟩⟩, fun _ => rfl, rfl, rfl, rfl, rfl, rfl,
      execReset_eq_next.2 ⟨hp, .inl ⟨hl, rfl⟩⟩⟩
  · refine execReset_eq_next.2 ⟨hp, .inl ⟨hl, ?_⟩⟩
    rcases (execConstruct_cases hconstruct).2 with ⟨hne, -⟩ | ⟨-, e, -, rfl⟩ | ⟨-, -, -, rfl⟩
    · exact absurd hu hne
    · cases hl
    · exact (clearRam_constructed u).symm

/-- Settles O22: dbToLin tests for -90.0 first and for the zeros, which lie above it, second. -/
theorem decibelLaws : Obligations.DecibelLaws := by
  intro f d x
  refine ⟨fun h => if_pos h, if_pos (by decide), ?_, fun hfloor hpos hneg => ?_⟩
  · rintro (rfl | rfl)
    · exact (if_neg (by decide)).trans (if_pos rfl)
    · exact (if_neg (by decide)).trans (if_pos rfl)
  · have hzero : F32.isZero x = false := by simp [F32.isZero, hpos, hneg]
    have hfloor : ¬F32.le x Config.dbFloor = true := Bool.eq_false_iff.1 hfloor
    exact (if_neg hfloor).trans (if_neg (Bool.eq_false_iff.1 hzero))

/-- The state LATCH leaves (R125). -/
def State.latched (s : State) : State :=
  { s with
    tWet := dbToLin s.fns.dbToLinCore s.draws s.ports.wetDb
    tDry := dbToLin s.fns.dbToLinCore (s.draws + 1) s.ports.dryDb
    tMaster := dbToLin s.fns.dbToLinCore (s.draws + 2) s.ports.masterDb
    draws := s.draws + 3 }

theorem execLatch_eq (s : State) : execLatch s = .next s.latched := rfl

/-- Settles O21. -/
theorem latchWritesTargets : Obligations.LatchWritesTargets := execLatch_eq

/-- The state SELECT leaves (R124). -/
def State.selected (s : State) : State :=
  if s.ports.presetIn = s.active then s
  else match catalogEntry? s.catalog s.ports.presetIn with
    | some e => s.deriveEntry s.ports.presetIn e
    | none => s.raise (.presetInvalid s.ports.presetIn)

/-- SELECT's three cases. -/
theorem selected_cases (s : State) :
    (s.ports.presetIn = s.active ∧ s.selected = s) ∨
    (s.ports.presetIn ≠ s.active ∧ validPreset s.catalog s.ports.presetIn = true ∧
      ∃ e, catalogEntry? s.catalog s.ports.presetIn = some e ∧ s.selected = s.deriveEntry s.ports.presetIn e) ∨
    (s.ports.presetIn ≠ s.active ∧ validPreset s.catalog s.ports.presetIn = false ∧
      s.selected = s.raise (.presetInvalid s.ports.presetIn)) := by
  unfold State.selected
  by_cases hactive : s.ports.presetIn = s.active
  · exact .inl ⟨hactive, if_pos hactive⟩
  · cases hentry : catalogEntry? s.catalog s.ports.presetIn with
    | some e => exact .inr (.inl ⟨hactive, catalogEntry?_isSome.1 ⟨e, hentry⟩, e, rfl, if_neg hactive⟩)
    | none =>
      refine .inr (.inr ⟨hactive, ?_, if_neg hactive⟩)
      rw [← Bool.not_eq_true, ← catalogEntry?_isSome, hentry]
      exact nofun

theorem execSelect_eq (s : State) : execSelect s = .next s.selected := by
  unfold execSelect selectPreset
  rcases selected_cases s with ⟨hactive, hs⟩ | ⟨hactive, hv, e, he, hs⟩ | ⟨hactive, hv, hs⟩
  · rw [if_pos hactive, hs]
  · rw [if_neg hactive, if_pos hv, hs]
    exact derive_eq_next.2 ⟨e, he, rfl⟩
  · rw [if_neg hactive, if_neg (by simp [hv]), hs]

theorem validPreset_iff {c : Catalog} {p : BitVec 32} :
    validPreset c p = true ↔ 0 ≤ p.toInt ∧ p.toInt < c.rest.length + 1 := by
  simp [validPreset, nPresets]

/-- Settles O20, by SELECT's three cases. -/
theorem selectCompletes : Obligations.SelectCompletes := by
  intro s
  have hselect : exec .select s = .next s.selected := execSelect_eq s
  rw [hselect]
  rcases selected_cases s with ⟨hactive, hs⟩ | ⟨hactive, hv, e, he, hs⟩ | ⟨hactive, hv, hs⟩
  · exact ⟨fun _ => by rw [hs], fun hne => absurd hactive hne, fun hne => absurd hactive hne⟩
  · refine ⟨fun h => absurd h hactive, fun _ _ _ => ⟨_, derive_eq_next.2 ⟨e, he, rfl⟩, by rw [hs]⟩, fun _ hout => ?_⟩
    have := validPreset_iff.1 hv
    omega
  · refine ⟨fun h => absurd h hactive, fun _ hlo hhi => ?_, fun _ _ => ?_⟩
    · exact absurd (validPreset_iff.2 ⟨hlo, hhi⟩) (by simp [hv])
    · rw [hs, State.raise, satIncr_eq_ofNat_min]

/-- What SELECT can write: the preset's registers, FI, FN, DIAG, LASTINV, RAM and CURSOR. -/
theorem selected_eq (s : State) :
    s.selected = { s with
      fi := s.selected.fi, fn := s.selected.fn, diag := s.selected.diag, lastInv := s.selected.lastInv
      active := s.selected.active, raw := s.selected.raw, span := s.selected.span
      stretch := s.selected.stretch, params := s.selected.params, bufSize := s.selected.bufSize
      cursor := s.selected.cursor, ram := s.selected.ram } := by
  rcases selected_cases s with ⟨-, hs⟩ | ⟨-, -, e, -, hs⟩ | ⟨-, -, hs⟩
  · rw [hs]
  · rw [hs, deriveEntry_eq]
  · rw [hs]
    rfl

theorem selected_active (s : State) :
    s.selected.active = if validPreset s.catalog s.ports.presetIn then s.ports.presetIn else s.active := by
  rcases selected_cases s with ⟨hactive, hs⟩ | ⟨-, hv, e, -, hs⟩ | ⟨-, hv, hs⟩
  · rw [hs, hactive, ite_self]
  · rw [hs, deriveEntry_eq, if_pos hv]
  · rw [hs, hv]
    rfl

theorem selected_cursor (s : State) :
    s.selected.cursor = if s.selected.active = s.active then s.cursor else 0 := by
  rcases selected_cases s with ⟨-, hs⟩ | ⟨hactive, -, e, -, hs⟩ | ⟨-, -, hs⟩
  · rw [hs, if_pos rfl]
  · rw [hs, deriveEntry_eq, if_neg hactive]
  · rw [hs]
    exact (if_pos rfl).symm

end Sys2Proof.Machine
end

section
/-! RUN_BLOCK as SELECT, LATCH and its frames (40_host_commands.md R123): that the frames complete, and what a block writes. -/

namespace Sys2Proof.Machine

/-- A block's start writes nothing that SELECT reads. -/
theorem selected_startBlock (s : State) (n : Nat) : (s.startBlock n).selected = s.selected.startBlock n := by
  have hderive (p : BitVec 32) (e : CatalogEntry) :
      (s.startBlock n).deriveEntry p e = (s.deriveEntry p e).startBlock n := by
    simp only [deriveEntry_eq]
    rfl
  unfold State.selected
  simp only [startBlock_ports, startBlock_active, startBlock_catalog, hderive]
  split
  · rfl
  · cases catalogEntry? s.catalog s.ports.presetIn <;> rfl

/-- The state in which the first of a block's `n` frames starts. -/
def State.blockStart (s : State) (n : Nat) : State :=
  { s.selected.latched with phase := .block, bstep := 0x2#4, ustep := 0x0#4, k := 0, nblk := n }

theorem blockStart_eq (s : State) (n : Nat) :
    s.blockStart n = { s.latched with
      fi := s.selected.fi, fn := s.selected.fn, diag := s.selected.diag, lastInv := s.selected.lastInv
      active := s.selected.active, raw := s.selected.raw, span := s.selected.span
      stretch := s.selected.stretch, params := s.selected.params, bufSize := s.selected.bufSize
      cursor := s.selected.cursor, ram := s.selected.ram
      phase := .block, bstep := 0x2#4, ustep := 0x0#4, k := 0, nblk := n } :=
  (congrArg (fun v => { v.latched with phase := .block, bstep := 0x2#4, ustep := 0x0#4, k := 0, nblk := n })
    (selected_eq s) :)

/-- The body of RUN_BLOCK is its frames from `State.blockStart` (R123). -/
theorem runBlockBody_eq (n : Nat) (s : State) :
    runBlockBody n s = andThen (runFrames n (s.blockStart n)) fun t => .next t.toIdle := by
  rw [runBlockBody, execSelect_eq, andThen_next, selected_startBlock]
  rfl

theorem runBlockBody_eq_next {n : Nat} {s t : State} :
    runBlockBody n s = .next t ↔ ∃ u, runFrames n (s.blockStart n) = .next u ∧ u.toIdle = t := by
  simp only [runBlockBody_eq, andThen_eq_next, Host.Outcome.next.injEq]

theorem runFrames_completes (n : Nat) {s : State} (hs : s.Sized) : ∃ t, runFrames n s = .next t := by
  induction n generalizing s with
  | zero => exact ⟨s, rfl⟩
  | succ n ih =>
    obtain ⟨u, hu⟩ := execFrame_completes hs
    have hsame := State.sameOutsideFrame.of_execFrame hu
    have hb : u.bufSize = s.bufSize := (congrArg State.bufSize hsame :)
    have hc : u.cap = s.cap := (congrArg State.cap hsame :)
    obtain ⟨t, ht⟩ := ih (s := u.frameDone) ⟨hb ▸ hs.pos, hb ▸ hc ▸ hs.leCap⟩
    exact ⟨t, andThen_eq_next.2 ⟨u, hu, ht⟩⟩

/-- Frames count in K and write otherwise what one frame can write. -/
theorem sameOutsideFrame_of_runFrames {n : Nat} {s t : State} (h : runFrames n s = .next t) :
    State.sameOutsideFrame { s with k := s.k + n } t := by
  induction n generalizing s with
  | zero =>
    cases h
    exact Eq.refl t
  | succ n ih =>
    obtain ⟨u, hu, h⟩ := andThen_eq_next.1 h
    have hsame : State.sameOutsideFrame { s with k := s.k + 1 + n } { u.frameDone with k := u.frameDone.k + n } := by
      have hframe : s.sameOutsideFrame u := .of_execFrame hu
      exact (congrArg (fun v : State => { v.frameDone with k := v.frameDone.k + n }) hframe).trans rfl
    rw [← Nat.add_assoc, Nat.add_right_comm]
    exact hsame.trans (ih h)

/-- Each frame moves CURSOR by one modulo B. -/
theorem runFrames_cursor {n : Nat} {s t : State} (hs : s.cursor < s.bufSize) (h : runFrames n s = .next t) :
    t.cursor = (s.cursor + n) % s.bufSize := by
  induction n generalizing s with
  | zero =>
    cases h
    exact (Nat.mod_eq_of_lt hs).symm
  | succ n ih =>
    obtain ⟨u, hu, h⟩ := andThen_eq_next.1 h
    have hb : u.bufSize = s.bufSize := (congrArg State.bufSize (State.sameOutsideFrame.of_execFrame hu) :)
    have hc : u.cursor = (s.cursor + 1) % s.bufSize := execFrame_cursor hu
    have hlt : u.cursor < u.bufSize := by
      rw [hb, hc]
      exact Nat.mod_lt _ (Nat.zero_lt_of_lt hs)
    have hrest : t.cursor = (u.cursor + n) % u.bufSize := ih (s := u.frameDone) hlt h
    rw [hrest, hb, hc, Nat.mod_add_mod, Nat.add_right_comm, Nat.add_assoc]

/-- After the last frame no working register holds a value (R199). -/
theorem clearWorking_runFrames {n : Nat} (hn : 0 < n) {s t : State} (h : runFrames n s = .next t) :
    t.clearWorking = t := by
  obtain ⟨n, rfl⟩ := Nat.exists_eq_succ_of_ne_zero hn.ne'
  obtain ⟨u, -, h⟩ := andThen_eq_next.1 h
  exact runFrames_keeps (P := fun v => v.clearWorking = v) (fun v hv => congrArg State.frameDone hv)
    (fun _ _ _ hf => clearWorking_execFrame hf) n _ t rfl h

/-- `n` frames store at the `n` elements of each output stream and nowhere else (R199). -/
theorem memRead_samples_runFrames {n a : Nat} {s t : State} (h : runFrames n s = .next t)
    (ha : ∀ j, j < n → a ≠ s.ports.outL + (s.k + j) ∧ a ≠ s.ports.outR + (s.k + j)) :
    memRead t.samples a = memRead s.samples a := by
  induction n generalizing s with
  | zero =>
    cases h
    rfl
  | succ n ih =>
    obtain ⟨u, hu, h⟩ := andThen_eq_next.1 h
    obtain ⟨hL, hR⟩ := ha 0 (Nat.succ_pos n)
    have hsame := State.sameOutsideFrame.of_execFrame hu
    have hports : u.ports = s.ports := (congrArg State.ports hsame :)
    have hk : u.k = s.k := (congrArg State.k hsame :)
    have hrest : memRead t.samples a = memRead u.samples a := ih (s := u.frameDone) h fun j hj => by
      have hj := ha (j + 1) (Nat.succ_lt_succ hj)
      rwa [frameDone_ports, frameDone_k, hports, hk, Nat.add_right_comm, Nat.add_assoc]
    rw [hrest, memRead_samples_execFrame hu hL hR]

section ReadyBlock

variable {s : State} (hs : s.Inv) (hl : s.life = .ready)

include hs hl

/-- SELECT where LIFE is READY leaves a size for the RAM and a CURSOR inside it. -/
theorem sized_selected_of_ready : s.selected.Sized ∧ s.selected.cursor < s.selected.bufSize := by
  have hselect : exec .select s = .next s.selected := execSelect_eq s
  have hsetup : s.selected.SetupInv := setupInv_of_exec hs.setupInv (.inr hl) hselect
  have hcursor := (State.KeepsMemory.of_exec hselect).cursor hs.cursor
  exact ⟨⟨Nat.zero_lt_of_lt hcursor, hsetup.leCap⟩, hcursor⟩

theorem runBlockBody_completes (n : Nat) : ∃ t, runBlockBody n s = .next t := by
  have hsized := (sized_selected_of_ready hs hl).1
  obtain ⟨u, hu⟩ := runFrames_completes n (s := s.blockStart n) ⟨hsized.pos, hsized.leCap⟩
  exact ⟨u.toIdle, runBlockBody_eq_next.2 ⟨u, hu, rfl⟩⟩

end ReadyBlock

/-- The registers that SELECT and the frames leave alone, while the frames of a block run. -/
theorem runFrames_blockStart {c n : Nat} {s u : State} (h : runFrames c (s.blockStart n) = .next u) :
    u.life = s.life ∧ u.rf = s.rf ∧ u.catalog = s.catalog ∧ u.fns = s.fns ∧ u.ports = s.ports ∧
      u.tWet = s.latched.tWet ∧ u.tDry = s.latched.tDry ∧ u.tMaster = s.latched.tMaster ∧
      u.active = s.selected.active ∧ u.bufSize = s.selected.bufSize ∧ u.k = c ∧ u.nblk = n := by
  have hsame := sameOutsideFrame_of_runFrames h
  rw [blockStart_eq] at hsame
  exact ⟨(congrArg State.life hsame :), (congrArg State.rf hsame :), (congrArg State.catalog hsame :),
    (congrArg State.fns hsame :), (congrArg State.ports hsame :), (congrArg State.tWet hsame :),
    (congrArg State.tDry hsame :), (congrArg State.tMaster hsame :), (congrArg State.active hsame :),
    (congrArg State.bufSize hsame :), (congrArg State.k hsame :).trans (Nat.zero_add c), (congrArg State.nblk hsame :)⟩

/-- A block's frames move CURSOR on from where SELECT has left it. -/
theorem cursor_runFrames_blockStart {n : Nat} {s u : State} (hs : s.Inv) (hl : s.life = .ready)
    (h : runFrames n (s.blockStart n) = .next u) :
    u.cursor = ((if u.active = s.active then s.cursor else 0) + n) % u.bufSize := by
  obtain ⟨-, -, -, -, -, -, -, -, hactive, hbufSize, -⟩ := runFrames_blockStart h
  rw [hactive, hbufSize, ← selected_cursor]
  exact runFrames_cursor (s := s.blockStart n) (sized_selected_of_ready hs hl).2 h

/-- A block writes the `n` elements of its two output streams and no other sample (R199). -/
theorem memRead_samples_runFrames_blockStart {n a : Nat} {s u : State}
    (h : runFrames n (s.blockStart n) = .next u)
    (ha : ∀ j, j < n → a ≠ s.ports.outL + j ∧ a ≠ s.ports.outR + j) :
    memRead u.samples a = memRead s.samples a := by
  have hports : (s.blockStart n).ports = s.ports := by rw [blockStart_eq]; rfl
  have hsamples : (s.blockStart n).samples = s.samples := by rw [blockStart_eq]; rfl
  have hk : (s.blockStart n).k = 0 := rfl
  rw [← hsamples]
  exact memRead_samples_runFrames h fun j hj => by rw [hports, hk, Nat.zero_add]; exact ha j hj

/-- Settles O14. What a block leaves alone of the configuration and the preset is known of every instruction
(`onlyConstructConfigures`, `presetAndDiagnosticWriters`); the rest is what SELECT, LATCH and `n` frames write. -/
theorem runBlockCompletes : Obligations.RunBlockCompletes := by
  intro s n hs hp hl hn hstreams
  obtain ⟨t, ht⟩ := runBlockBody_completes hs hl n.toNat
  have hx : exec (.runBlock n) s = .next t := (execRunBlock_of_admitted hp hl hn hstreams).trans ht
  have hpos : 0 < n.toNat := Nat.pos_of_ne_zero fun h => hn (BitVec.eq_of_toNat_eq h)
  obtain ⟨hcatalog, hfns, hports, hpending, hconfig⟩ := onlyConstructConfigures _ s t hx
  obtain ⟨hrate, hcaps, hcap, hlife, hcfgErr⟩ := hconfig (.inl nofun)
  obtain ⟨-, hpreset, -, -, hdiag, -⟩ := presetAndDiagnosticWriters _ s t hx
  obtain ⟨u, hu, rfl⟩ := runBlockBody_eq_next.1 ht
  obtain ⟨-, hrf, -, -, -, hwet, hdry, hmaster, hactive, -, hk, hnblk⟩ := runFrames_blockStart hu
  rw [selected_active] at hactive
  have hcursor := cursor_runFrames_blockStart hs hl hu
  have hclear := clearWorking_runFrames hpos hu
  have hsamples (a : Nat) := memRead_samples_runFrames_blockStart (a := a) hu
  refine ⟨u.toIdle, hx, rfl, hk, hnblk, hlife, hcfgErr, hrf, hrate, hcaps, hcatalog, hcap, hfns, hports, hpending,
    hactive, fun hkept => ?_, fun hv => ?_, hcursor, hwet, hdry, hmaster,
    (congrArg State.lin hclear).symm, (congrArg State.rin hclear).symm, (congrArg State.lout hclear).symm,
    (congrArg State.rout hclear).symm, hsamples⟩
  · rcases hpreset (.inr ⟨n, rfl⟩) with hpreset | ⟨hne, hv, -⟩
    · exact hpreset
    · rw [if_pos hv] at hactive
      exact absurd (hactive.symm.trans hkept) hne
  · rcases hdiag (.inr ⟨n, rfl⟩) with hdiag | ⟨-, hinvalid, -⟩
    · exact hdiag
    · rw [hv] at hinvalid
      cases hinvalid

end Sys2Proof.Machine
end

section
/-! In IDLE no host command stops (60_exceptions.md R230, R231, R238). -/

namespace Sys2Proof.Machine

/-- An admitted command completes where its body does; a refused one completes always. -/
theorem whenLife_completes {need : Life} {s : State} {k : Out} (hp : s.phase = .idle)
    (hk : s.life = need → ∃ t, k = .next t) : ∃ t, whenLife need s k = .next t := by
  by_cases hl : s.life = need
  · obtain ⟨t, ht⟩ := hk hl
    exact ⟨t, whenLife_eq_next.2 ⟨hp, .inl ⟨hl, ht⟩⟩⟩
  · exact ⟨s.refuse, whenLife_eq_next.2 ⟨hp, .inr ⟨hl, rfl⟩⟩⟩

/-- No host command stops in IDLE: the three errors of CONSTRUCT and the refusals are next states (R230), its DERIVE has a
valid index, and where LIFE is READY the RAM has room for the frames of RUN_BLOCK. -/
theorem exec_hostCommand_completes {i : Instr} (hi : isHostCommand i = true) {s : State} (hs : s.Inv)
    (hp : s.phase = .idle) : ∃ t, exec i s = .next t := by
  cases i
  case construct =>
    refine whenLife_completes hp fun _ => ?_
    rw [derive_zero_configure]
    split_ifs
    all_goals exact ⟨_, rfl⟩
  case reset => exact whenLife_completes hp fun _ => ⟨_, rfl⟩
  case runBlock n =>
    refine whenLife_completes hp fun hl => ?_
    split_ifs
    · exact ⟨_, rfl⟩
    · exact ⟨_, rfl⟩
    · exact runBlockBody_completes hs hl n.toNat
  all_goals cases hi

/-- A step in IDLE does nothing, refuses a word, or runs a host command, and ends in IDLE. -/
theorem step_completes_of_idle {s : State} (hs : s.Inv) (hp : s.phase = .idle) :
    ∃ t, step s = .next t ∧ t.phase = .idle := by
  cases hq : s.pending with
  | nil => exact ⟨s, by simp only [step, fetch_nothing hp hq], hp⟩
  | cons c rest =>
    cases hd : decode (.h c.word) with
    | error e => exact ⟨_, step_of_undecodable hp hq hd, hp⟩
    | ok i =>
      have hi := isHostCommand_of_decode hd
      obtain ⟨t, ht⟩ := exec_hostCommand_completes hi (inv_present hs hp c rest) hp
      exact ⟨t, by simp only [step, fetch_command hp hq hd, ht], phase_of_exec_hostCommand hi ht⟩

theorem run_succ_of_step (M : Host.Core) {s t : M.State} (h : M.step s = .next t) (n : Nat) :
    M.run (n + 1) s = M.run n t := by
  rw [Host.Core.run, h]

/-- Settles O59, by induction on the number of steps: in IDLE a step completes in IDLE, and every step keeps the
invariant. -/
theorem hostCommandsNeverStop : Obligations.HostCommandsNeverStop := by
  intro s n hs hp
  induction n generalizing s with
  | zero => exact ⟨s, rfl, hs, hp⟩
  | succ n ih =>
    obtain ⟨u, hu, hidle⟩ := step_completes_of_idle hs hp
    obtain ⟨t, ht, hinv, hphase⟩ := ih u (stepKeepsInvariant s u hs hu) hidle
    exact ⟨t, (run_succ_of_step core hu n).trans ht, hinv, hphase⟩

end Sys2Proof.Machine
end

section
/-! NaN patterns and the operations (00_scope.md R13, 93_implementation_defined.md U11): operands that are the same bits, or
both a NaN, give results that are, whatever patterns the operation draws. -/

namespace Sys2Proof

/-- A result that is the drawn NaN or does not depend on it. -/
def DrawsNan {α : Type} (g : α → α) : Prop := (∀ n, g n = n) ∨ ∃ v, ∀ n, g n = v

theorem DrawsNan.ite {α : Type} {g h : α → α} (hg : DrawsNan g) (hh : DrawsNan h) (c : Prop) [Decidable c] :
    DrawsNan fun n => if c then g n else h n := by
  by_cases hc : c
  · simpa only [if_pos hc] using hg
  · simpa only [if_neg hc] using hh

theorem drawsNan_const {α : Type} (v : α) : DrawsNan fun _ : α => v := .inr ⟨v, fun _ => rfl⟩

theorem drawsNan_id {α : Type} : DrawsNan fun n : α => n := .inl fun _ => rfl

/-- Drawn on machine words. -/
theorem DrawsNan.ofNat {w : Nat} {g : Nat → Nat} (hg : DrawsNan g) :
    DrawsNan fun n : BitVec w => BitVec.ofNat w (g n.toNat) := by
  rcases hg with hg | ⟨v, hv⟩
  · exact .inl fun n => by simp [hg]
  · exact .inr ⟨BitVec.ofNat w v, fun n => by simp [hv]⟩

namespace Fmt

variable (f : Fmt) (a b : Nat)

theorem isNaN_iff_unpack : isNaN f a = true ↔ unpack f a = .nan := by
  simp only [isNaN, unpack, decide_eq_true_eq]
  split_ifs with hfin hinf <;> simp <;> omega

theorem isNaN_neg : isNaN f (neg f a) = isNaN f a := by
  unfold isNaN neg
  split_ifs with hs
  · rw [Nat.mod_eq_sub_mod hs]
  · rw [Nat.add_mod_right]

theorem add_of_isNaN (n : Nat) (h : isNaN f a = true ∨ isNaN f b = true) : add f n a b = n := by
  simp only [isNaN_iff_unpack] at h
  rcases h with h | h
  · simp only [add, h]
  · cases ha : unpack f a <;> simp only [add, ha, h]

theorem mul_of_isNaN (n : Nat) (h : isNaN f a = true ∨ isNaN f b = true) : mul f n a b = n := by
  simp only [isNaN_iff_unpack] at h
  rcases h with h | h
  · simp only [mul, h]
  · cases ha : unpack f a <;> simp only [mul, ha, h]

theorem drawsNan_add : DrawsNan fun n => add f n a b := by
  cases ha : unpack f a <;> cases hb : unpack f b <;> simp only [add, ha, hb]
  case inf.inf => exact (drawsNan_const _).ite drawsNan_id _
  case inf.fin | fin.inf | fin.fin => exact drawsNan_const _
  all_goals exact drawsNan_id

theorem drawsNan_mul : DrawsNan fun n => mul f n a b := by
  cases ha : unpack f a <;> cases hb : unpack f b <;> simp only [mul, ha, hb]
  case inf.fin | fin.inf => exact drawsNan_id.ite (drawsNan_const _) _
  case inf.inf | fin.fin => exact drawsNan_const _
  all_goals exact drawsNan_id

theorem drawsNan_div : DrawsNan fun n => div f n a b := by
  cases ha : unpack f a <;> cases hb : unpack f b <;> simp only [div, ha, hb]
  case inf.fin | fin.inf => exact drawsNan_const _
  case fin.fin => exact (drawsNan_id.ite (drawsNan_const _) _).ite (drawsNan_const _) _
  all_goals exact drawsNan_id

theorem drawsNan_convert (g : Fmt) : DrawsNan fun n => convert f g n a := by
  cases ha : unpack g a <;> simp only [convert, ha]
  case nan => exact drawsNan_id
  all_goals exact drawsNan_const _

end Fmt

namespace F32

theorem drawsNan_add (a b : F32) : DrawsNan fun n => add n a b := (Fmt.drawsNan_add _ _ _).ofNat
theorem drawsNan_sub (a b : F32) : DrawsNan fun n => sub n a b := (Fmt.drawsNan_add _ _ (Fmt.neg _ _)).ofNat
theorem drawsNan_mul (a b : F32) : DrawsNan fun n => mul n a b := (Fmt.drawsNan_mul _ _ _).ofNat
theorem drawsNan_div (a b : F32) : DrawsNan fun n => div n a b := (Fmt.drawsNan_div _ _ _).ofNat

theorem add_of_isNaN (n a b : F32) (h : isNaN a = true ∨ isNaN b = true) : add n a b = n := by
  simp [add, Fmt.add_of_isNaN _ _ _ _ h]

theorem sub_of_isNaN (n a b : F32) (h : isNaN a = true ∨ isNaN b = true) : sub n a b = n := by
  have hneg : Fmt.isNaN .b32 a.toNat = true ∨ Fmt.isNaN .b32 (Fmt.neg .b32 b.toNat) = true := by
    rwa [Fmt.isNaN_neg]
  simp [sub, Fmt.sub, Fmt.add_of_isNaN _ _ _ _ hneg]

theorem mul_of_isNaN (n a b : F32) (h : isNaN a = true ∨ isNaN b = true) : mul n a b = n := by
  simp [mul, Fmt.mul_of_isNaN _ _ _ _ h]

end F32

end Sys2Proof

namespace Sys2Proof.Claims.SameValue

open Sys2Proof.Machine

variable {a a' b b' : F32}

theorem refl (a : F32) : SameValue a a := .inl rfl

theorem symm (h : SameValue a b) : SameValue b a := h.imp Eq.symm And.symm

/-- Two draws of one result. -/
theorem of_drawsNan {g : F32 → F32} (hg : DrawsNan g) (d d' : Nat) : SameValue (g (nan32 d)) (g (nan32 d')) := by
  rcases hg with hg | ⟨v, hv⟩
  · rw [hg, hg]
    exact .inr ⟨isNaN_nan32 d, isNaN_nan32 d'⟩
  · rw [hv, hv]
    exact refl v

/-- An operation that gives the drawn NaN for a NaN operand, and otherwise that NaN or a value of its operands. -/
theorem of_operation {op : F32 → F32 → F32 → F32} (hdraws : ∀ a b, DrawsNan fun n => op n a b)
    (hnan : ∀ n a b, F32.isNaN a = true ∨ F32.isNaN b = true → op n a b = n) (ha : SameValue a a')
    (hb : SameValue b b') (d d' : Nat) : SameValue (op (nan32 d) a b) (op (nan32 d') a' b') := by
  have hboth (h : F32.isNaN a = true ∨ F32.isNaN b = true) (h' : F32.isNaN a' = true ∨ F32.isNaN b' = true) :
      SameValue (op (nan32 d) a b) (op (nan32 d') a' b') := by
    rw [hnan _ _ _ h, hnan _ _ _ h']
    exact .inr ⟨isNaN_nan32 d, isNaN_nan32 d'⟩
  rcases ha with rfl | ⟨ha, ha'⟩
  · rcases hb with rfl | ⟨hb, hb'⟩
    · exact of_drawsNan (hdraws a b) d d'
    · exact hboth (.inr hb) (.inr hb')
  · exact hboth (.inl ha) (.inl ha')

theorem add (ha : SameValue a a') (hb : SameValue b b') {d d' : Nat} :
    SameValue (F32.add (nan32 d) a b) (F32.add (nan32 d') a' b') :=
  of_operation F32.drawsNan_add F32.add_of_isNaN ha hb d d'

theorem sub (ha : SameValue a a') (hb : SameValue b b') {d d' : Nat} :
    SameValue (F32.sub (nan32 d) a b) (F32.sub (nan32 d') a' b') :=
  of_operation F32.drawsNan_sub F32.sub_of_isNaN ha hb d d'

theorem mul (ha : SameValue a a') (hb : SameValue b b') {d d' : Nat} :
    SameValue (F32.mul (nan32 d) a b) (F32.mul (nan32 d') a' b') :=
  of_operation F32.drawsNan_mul F32.mul_of_isNaN ha hb d d'

/-- The power of ten of a NaN is the one NaN that stands for it (R129). -/
theorem pow10_of_isNaN {y : F32} (h : F32.isNaN y = true) (nan : F64) : pow10 nan y = nan := by
  simp only [pow10, (Fmt.isNaN_iff_unpack _ _).1 h]

/-- LATCH computes a target from the control alone. -/
theorem dbToLin (f : ConfigFn) (d d' : Nat) (x : F32) :
    SameValue (Machine.dbToLin f d x) (Machine.dbToLin f d' x) := by
  unfold Machine.dbToLin
  split_ifs
  · exact refl _
  · exact refl _
  cases f with
  | replacement id => exact refl _
  | default =>
    have hpow : pow10 0x7FF8000000000000#64 (F32.div (nan32 d) x 0x41A00000#32) =
        pow10 0x7FF8000000000000#64 (F32.div (nan32 d') x 0x41A00000#32) := by
      rcases of_drawsNan (F32.drawsNan_div x 0x41A00000#32) d d' with heq | ⟨hnan, hnan'⟩
      · exact congrArg _ heq
      · rw [pow10_of_isNaN hnan, pow10_of_isNaN hnan']
    show SameValue (dbCoreDefault d x) (dbCoreDefault d' x)
    unfold dbCoreDefault
    rw [← hpow]
    exact of_drawsNan (Fmt.drawsNan_convert _ _ _).ofNat d d'

end Sys2Proof.Claims.SameValue
end

section
/-! Two runs of the frames side by side (40_host_commands.md R127): from states that agree but for NaN patterns and for how a
stream element's address is split into the stream's start and K, every micro-step leads to states that agree. -/

namespace Sys2Proof.Machine

open Claims (SameValue)

/-- Canonical memories with the same values, NaN patterns aside. -/
structure MemAlike (m m' : WordMem) : Prop where
  wf : memWf m = true
  wf' : memWf m' = true
  same : ∀ a, SameValue (memRead m a) (memRead m' a)

theorem MemAlike.write {m m' : WordMem} (h : MemAlike m m') {v v' : F32} (hv : SameValue v v') (a : Nat) :
    MemAlike (memWrite m a v) (memWrite m' a v') where
  wf := memWf_memWrite h.wf a v
  wf' := memWf_memWrite h.wf' a v'
  same := fun b => by
    rw [memRead_memWrite h.wf, memRead_memWrite h.wf']
    split
    · exact hv
    · exact h.same b

/-- The same in every register that a frame reads, NaN patterns aside; the streams are compared by the addresses of the
elements in turn. -/
structure State.Alike (s t : State) : Prop where
  active : t.active = s.active
  params : t.params = s.params
  bufSize : t.bufSize = s.bufSize
  cap : t.cap = s.cap
  cursor : t.cursor = s.cursor
  ram : MemAlike s.ram t.ram
  samples : MemAlike s.samples t.samples
  gWet : SameValue s.gWet t.gWet
  gDry : SameValue s.gDry t.gDry
  gMaster : SameValue s.gMaster t.gMaster
  tWet : SameValue s.tWet t.tWet
  tDry : SameValue s.tDry t.tDry
  tMaster : SameValue s.tMaster t.tMaster
  lin : Option.Rel SameValue s.lin t.lin
  rin : Option.Rel SameValue s.rin t.rin
  lout : Option.Rel SameValue s.lout t.lout
  rout : Option.Rel SameValue s.rout t.rout
  inL : t.ports.inL + t.k = s.ports.inL + s.k
  inR : t.ports.inR + t.k = s.ports.inR + s.k
  outL : t.ports.outL + t.k = s.ports.outL + s.k
  outR : t.ports.outR + t.k = s.ports.outR + s.k

/-- Where the first answers a next state, the second answers one that is alike. -/
def AlikeOut (o o' : Out) : Prop := ∀ s, o = .next s → ∃ t, o' = .next t ∧ s.Alike t

theorem State.Alike.next {s t : State} (h : s.Alike t) : AlikeOut (.next s) (.next t) := by
  rintro _ ⟨⟩
  exact ⟨t, rfl, h⟩

theorem AlikeOut.andThen {o o' : Out} (h : AlikeOut o o') {k k' : State → Out}
    (hk : ∀ s t, s.Alike t → AlikeOut (k s) (k' t)) : AlikeOut (andThen o k) (andThen o' k') := by
  intro u hu
  obtain ⟨s, hs, hu⟩ := andThen_eq_next.1 hu
  obtain ⟨t, ht, halike⟩ := h s hs
  obtain ⟨v, hv, hlast⟩ := hk s t halike u hu
  exact ⟨v, andThen_eq_next.2 ⟨t, ht, hv⟩, hlast⟩

theorem alikeOut_withReg {r r' : Option F32} (h : Option.Rel SameValue r r') {k k' : F32 → Out}
    (hk : ∀ x y, SameValue x y → AlikeOut (k x) (k' y)) : AlikeOut (withReg r k) (withReg r' k') := by
  cases h with
  | some h => exact hk _ _ h
  | none =>
    intro u hu
    cases hu

namespace State.Alike

variable {s t : State}

theorem withBuf (h : s.Alike t) (o : Int) {k k' : F32 → Out} (hk : ∀ x y, SameValue x y → AlikeOut (k x) (k' y)) :
    AlikeOut (withBuf s o k) (withBuf t o k') := by
  intro u hu
  obtain ⟨hlt, hu⟩ := withBuf_eq_next.1 hu
  have haddr := bufAddr_congr h.cursor h.bufSize o
  obtain ⟨v, hv, halike⟩ := hk _ _ (h.ram.same (bufAddr s o)) u hu
  exact ⟨v, withBuf_eq_next.2 ⟨by rwa [haddr, h.cap], by rwa [haddr]⟩, halike⟩

theorem writeBuf (h : s.Alike t) (o : Int) {v w : F32} (hv : SameValue v w) :
    AlikeOut (writeBuf s o v) (writeBuf t o w) := by
  intro u hu
  obtain ⟨hlt, rfl⟩ := writeBuf_eq_next.1 hu
  have haddr := bufAddr_congr h.cursor h.bufSize o
  exact ⟨_, writeBuf_eq_next.2 ⟨by rwa [haddr, h.cap], rfl⟩,
    { h with ram := by rw [setBuf_ram, setBuf_ram, haddr]; exact h.ram.write hv _ }⟩

theorem drew (h : s.Alike t) (n : Nat) : (s.drew n).Alike (t.drew n) := { h with }

theorem writeOutL (h : s.Alike t) {v w : F32} (hv : SameValue v w) : (s.writeOutL v).Alike (t.writeOutL w) :=
  { h with samples := by rw [writeOutL_samples, writeOutL_samples, h.outL]; exact h.samples.write hv _ }

theorem writeOutR (h : s.Alike t) {v w : F32} (hv : SameValue v w) : (s.writeOutR v).Alike (t.writeOutR w) :=
  { h with samples := by rw [writeOutR_samples, writeOutR_samples, h.outR]; exact h.samples.write hv _ }

theorem reflect (h : s.Alike t) {x y : F32} (hx : SameValue x y) (far m : Int) :
    AlikeOut (reflect x far m s) (reflect y far m t) := by
  refine h.withBuf far fun a a' ha => h.withBuf (m - 1) fun b b' hb => (h.drew 5).writeBuf m ?_
  rw [h.params]
  exact ((((hx.add (ha.mul (.refl _))).sub hb).mul (.refl _)).add hb)

theorem comb (h : s.Alike t) (o1 o2 o3 o4 : Int) {k k' : F32 → Out}
    (hk : ∀ x y, SameValue x y → AlikeOut (k x) (k' y)) :
    AlikeOut (comb o1 o2 o3 o4 s k) (comb o1 o2 o3 o4 t k') := by
  refine h.withBuf o1 fun a a' ha => h.withBuf o2 fun b b' hb => h.withBuf o3 fun c c' hc =>
    h.withBuf o4 fun e e' he => hk _ _ ?_
  rw [h.params]
  exact ((((SameValue.refl _).mul ha).add ((SameValue.refl _).mul hb)).add ((SameValue.refl _).mul hc)).add
    ((SameValue.refl _).mul he)

theorem apf (h : s.Alike t) {x y : F32} (hx : SameValue x y) (m d : Int) (g : F32) {k k' : F32 → State → Out}
    (hk : ∀ x y u v, SameValue x y → u.Alike v → AlikeOut (k x u) (k' y v)) :
    AlikeOut (apf x m d g s k) (apf y m d g t k') := by
  refine h.withBuf (m - d) fun a a' ha => ?_
  have hw : SameValue (apfStored s.draws x g a) (apfStored t.draws y g a') := hx.sub ((SameValue.refl g).mul ha)
  exact ((h.drew 4).writeBuf m hw).andThen fun u v huv =>
    huv.withBuf (m - d) fun b b' hb => hk _ _ u v ((hw.mul (.refl g)).add hb) huv

theorem smoothStep {g g' a a' : F32} (hg : SameValue g g') (ha : SameValue a a') (d d' : Nat) :
    SameValue (smoothStep d g a) (smoothStep d' g' a') :=
  hg.add ((SameValue.refl _).mul (ha.sub hg))

theorem mixValue {wet wet' dry dry' : F32} (hwet : SameValue wet wet') (hdry : SameValue dry dry') (h : s.Alike t) :
    SameValue (mixValue s.draws wet dry s.gWet s.gDry s.gMaster)
      (mixValue t.draws wet' dry' t.gWet t.gDry t.gMaster) :=
  ((hwet.mul h.gWet).add (hdry.mul h.gDry)).mul h.gMaster

/-- Every micro-step leads from states alike to states alike. -/
theorem exec {i : Instr} (hi : isMicroStep i = true) (h : s.Alike t) : AlikeOut (exec i s) (exec i t) := by
  cases i
  case construct | reset | runBlock | select | latch | frame | derive | clear => cases hi
  case input =>
    have hL : SameValue (readInL s) (readInL t) := by
      rw [readInL, readInL, h.inL]
      exact h.samples.same _
    have hR : SameValue (readInR s) (readInR t) := by
      rw [readInR, readInR, h.inR]
      exact h.samples.same _
    exact State.Alike.next { h with
      lin := .some (h.params ▸ (SameValue.refl _).mul hL)
      rin := .some (h.params ▸ (SameValue.refl _).mul hR) }
  case sameL | diffL => exact alikeOut_withReg h.lin fun x y hx => h.params ▸ h.reflect hx _ _
  case sameR | diffR => exact alikeOut_withReg h.rin fun x y hx => h.params ▸ h.reflect hx _ _
  case combL =>
    simp only [Machine.exec, execCombL, h.params]
    exact h.comb _ _ _ _ fun x y hx => State.Alike.next { h with params := rfl, lout := .some hx }
  case combR =>
    simp only [Machine.exec, execCombR, h.params]
    exact h.comb _ _ _ _ fun x y hx => State.Alike.next { h with params := rfl, rout := .some hx }
  case apf1L | apf2L =>
    exact alikeOut_withReg h.lout fun x y hx => h.params ▸ h.apf hx _ _ _ fun x y u v hy huv =>
      State.Alike.next { huv with lout := .some hy }
  case apf1R | apf2R =>
    exact alikeOut_withReg h.rout fun x y hx => h.params ▸ h.apf hx _ _ _ fun x y u v hy huv =>
      State.Alike.next { huv with rout := .some hy }
  case adv =>
    exact State.Alike.next { h with cursor := by simp only [h.cursor, h.bufSize] }
  case smooth =>
    exact State.Alike.next { h with
      gWet := smoothStep h.gWet h.tWet _ _
      gDry := smoothStep h.gDry h.tDry _ _
      gMaster := smoothStep h.gMaster h.tMaster _ _ }
  case mixL =>
    exact alikeOut_withReg h.lout fun wet wet' hwet => alikeOut_withReg h.lin fun dry dry' hdry =>
      (h.writeOutL (mixValue hwet hdry h)).drew 4 |>.next
  case mixR =>
    exact alikeOut_withReg h.rout fun wet wet' hwet => alikeOut_withReg h.rin fun dry dry' hdry =>
      (h.writeOutR (mixValue hwet hdry h)).drew 4 |>.next

theorem atUstep (h : s.Alike t) (c : BitVec 4) : (s.atUstep c).Alike (t.atUstep c) := { h with }

theorem clearWorking (h : s.Alike t) : s.clearWorking.Alike t.clearWorking :=
  { h with lin := .none, rin := .none, lout := .none, rout := .none }

theorem frameDone (h : s.Alike t) : s.frameDone.Alike t.frameDone :=
  { h.clearWorking with
    inL := congrArg (· + 1) h.inL
    inR := congrArg (· + 1) h.inR
    outL := congrArg (· + 1) h.outL
    outR := congrArg (· + 1) h.outR }

theorem runMicro {l : List (BitVec 4 × Instr)} (hl : ∀ p ∈ l, isMicroStep p.2 = true) (h : s.Alike t) :
    AlikeOut (runMicro (l.map fun p => (p.1, Machine.exec p.2)) s)
      (runMicro (l.map fun p => (p.1, Machine.exec p.2)) t) := by
  induction l generalizing s t with
  | nil => exact h.next
  | cons p l ih =>
    exact (State.Alike.exec (hl p List.mem_cons_self) (h.atUstep p.1)).andThen fun u v huv =>
      ih (fun q hq => hl q (List.mem_cons_of_mem p hq)) huv

theorem execFrame (h : s.Alike t) : AlikeOut (execFrame s) (execFrame t) :=
  (h.clearWorking.runMicro isMicroStep_of_mem_microInstrs).andThen fun _ _ huv => huv.clearWorking.next

theorem runFrames (n : Nat) (h : s.Alike t) : AlikeOut (runFrames n s) (runFrames n t) := by
  induction n generalizing s t with
  | zero => exact h.next
  | succ n ih => exact h.execFrame.andThen fun _ _ huv => ih huv.frameDone

end State.Alike

end Sys2Proof.Machine
end

section
/-! A block of a + b frames and its two parts (40_host_commands.md R127). -/

namespace Sys2Proof.Machine

open Claims (SameValue)

/-- The frames of a block run in two parts. -/
theorem runFrames_add (a b : Nat) (s : State) : runFrames (a + b) s = andThen (runFrames a s) (runFrames b) := by
  induction a generalizing s with
  | zero => rw [Nat.zero_add, runFrames, andThen_next]
  | succ a ih =>
    rw [Nat.succ_add, runFrames, runFrames, andThen_assoc]
    exact congrArg (andThen (execFrame s)) (funext fun u => ih u.frameDone)

/-- An admitted block of `n` frames by its frames. -/
theorem exec_runBlock_of_runFrames {n : Nat} (hpos : 0 < n) (hn : n < 2 ^ 24) {s t : State} (hp : s.phase = .idle)
    (hl : s.life = .ready) (hstreams : streamsMeetR80 n s.ports = true)
    (h : runFrames n (s.blockStart n) = .next t) : exec (.runBlock (BitVec.ofNat 24 n)) s = .next t.toIdle := by
  have htoNat : (BitVec.ofNat 24 n).toNat = n := by rw [BitVec.toNat_ofNat, Nat.mod_eq_of_lt hn]
  have hne : BitVec.ofNat 24 n ≠ 0#24 := fun hzero => hpos.ne (by rw [← htoNat, hzero]; rfl)
  rw [execRunBlock_of_admitted hp hl hne (by rwa [htoNat]), htoNat]
  exact runBlockBody_eq_next.2 ⟨t, h, rfl⟩

/-- The ports of a block whose streams are taken up `d` elements on. -/
def takenUp (p : Ports) (d : Nat) : Ports :=
  { p with inL := p.inL + d, inR := p.inR + d, outL := p.outL + d, outR := p.outR + d }

theorem streamsMeetR80_mono {n m : Nat} (hle : n ≤ m) {p : Ports} (h : streamsMeetR80 m p = true) :
    streamsMeetR80 n p = true := by
  simp only [streamsMeetR80, overlaps, Bool.and_eq_true, Bool.or_eq_true, Bool.not_eq_true',
    Bool.and_eq_false_iff, decide_eq_false_iff_not, beq_iff_eq] at h ⊢
  omega

theorem streamsMeetR80_takenUp (n d : Nat) (p : Ports) :
    streamsMeetR80 n (takenUp p d) = streamsMeetR80 n p := by
  simp only [streamsMeetR80, overlaps, takenUp, Nat.add_right_comm _ d n, Nat.add_lt_add_iff_right, beq_eq_decide,
    Nat.add_right_cancel_iff]

/-- SELECT of the active index, or of an invalid one, writes DIAG and LASTINV at most. -/
theorem selected_of_settled {s : State}
    (h : s.ports.presetIn = s.active ∨ validPreset s.catalog s.ports.presetIn = false) :
    s.selected = { s with diag := s.selected.diag, lastInv := s.selected.lastInv } := by
  rcases selected_cases s with ⟨-, hs⟩ | ⟨hne, hv, -⟩ | ⟨-, -, hs⟩
  · rw [hs]
  · simp [hne, hv] at h
  · rw [hs]
    rfl

theorem blockStart_of_settled {s : State} (n : Nat)
    (h : s.ports.presetIn = s.active ∨ validPreset s.catalog s.ports.presetIn = false) :
    s.blockStart n = { s.latched with
      diag := s.selected.diag, lastInv := s.selected.lastInv
      phase := .block, bstep := 0x2#4, ustep := 0x0#4, k := 0, nblk := n } :=
  (congrArg (fun v => { v.latched with phase := .block, bstep := 0x2#4, ustep := 0x0#4, k := 0, nblk := n })
    (selected_of_settled h) :)

/-- A state is like itself, whatever the length of the block. -/
theorem alike_withNblk {s : State} (hram : memWf s.ram = true) (hsamples : memWf s.samples = true) (n : Nat) :
    s.Alike { s with nblk := n } := by
  have hreg (r : Option F32) : Option.Rel SameValue r r := by
    cases r with
    | none => exact .none
    | some x => exact .some (.refl x)
  constructor
  case ram => exact ⟨hram, hram, fun _ => .refl _⟩
  case samples => exact ⟨hsamples, hsamples, fun _ => .refl _⟩
  case gWet | gDry | gMaster | tWet | tDry | tMaster => exact .refl _
  case lin | rin | lout | rout => exact hreg _
  all_goals rfl

/-- The start of a block's second part is like the middle of the whole block: SELECT finds its index settled, LATCH finds
the same controls, and K starts again where the streams are taken up. -/
theorem alike_secondStart {a n b : Nat} {s m w : State} (hm : runFrames a (s.blockStart n) = .next m)
    (hw : runFrames a (s.blockStart a) = .next w) (h : m.Alike w) :
    m.Alike ({ w.toIdle with ports := takenUp s.ports a }.blockStart b) := by
  obtain ⟨-, -, -, -, hmports, hmwet, hmdry, hmmaster, -, -, hmk, -⟩ := runFrames_blockStart hm
  obtain ⟨-, -, hcatalog, hfns, -, -, -, -, hactive, -⟩ := runFrames_blockStart hw
  have hsettled : s.ports.presetIn = w.active ∨ validPreset w.catalog s.ports.presetIn = false := by
    rw [hactive, hcatalog, selected_active]
    cases hv : validPreset s.catalog s.ports.presetIn with
    | true => exact .inl rfl
    | false => exact .inr rfl
  have htarget (d d' : Nat) (x : F32) :
      SameValue (dbToLin s.fns.dbToLinCore d x) (dbToLin w.fns.dbToLinCore d' x) := by
    rw [hfns]
    exact .dbToLin _ d d' x
  rw [blockStart_of_settled b hsettled]
  exact { h with
    tWet := hmwet ▸ htarget _ _ _
    tDry := hmdry ▸ htarget _ _ _
    tMaster := hmmaster ▸ htarget _ _ _
    inL := by rw [hmports, hmk]; rfl
    inR := by rw [hmports, hmk]; rfl
    outL := by rw [hmports, hmk]; rfl
    outR := by rw [hmports, hmk]; rfl }

/-- Settles O19: the middle of the whole block is like the start of the second part, and so are the two ends. -/
theorem blocksSplit : Obligations.BlocksSplit := by
  intro s a b hs hp hl ha hb hab hstreams
  obtain ⟨t, ht⟩ := runBlockBody_completes hs hl (a + b)
  obtain ⟨u, hu, rfl⟩ := runBlockBody_eq_next.1 ht
  obtain ⟨m, hm, hrest⟩ := andThen_eq_next.1 ((runFrames_add a b _).symm.trans hu)
  have hmem : s.KeepsMemory s.selected := .of_execSelect (execSelect_eq s)
  have hstart : (s.blockStart (a + b)).Alike (s.blockStart a) :=
    alike_withNblk (s := s.blockStart (a + b)) (hmem.ramWf hs.ramWf) (hmem.samplesWf hs.samplesWf) a
  obtain ⟨w, hw, halike⟩ := hstart.runFrames a m hm
  obtain ⟨v, hv, hend⟩ := (alike_secondStart (b := b) hm hw halike).runFrames b u hrest
  have hlife : w.life = .ready := (runFrames_blockStart hw).1.trans hl
  have hfirst : streamsMeetR80 a s.ports = true := streamsMeetR80_mono (Nat.le_add_right a b) hstreams
  have hsecond : streamsMeetR80 b (takenUp s.ports a) = true :=
    (streamsMeetR80_takenUp b a s.ports).trans (streamsMeetR80_mono (Nat.le_add_left b a) hstreams)
  refine ⟨u.toIdle, w.toIdle, v.toIdle, exec_runBlock_of_runFrames (by omega) (by omega) hp hl hstreams hu,
    exec_runBlock_of_runFrames ha (by omega) hp hl hfirst hw,
    exec_runBlock_of_runFrames hb (by omega) rfl hlife hsecond hv,
    fun x => (hend.samples.same x).symm, fun x => (hend.ram.same x).symm, hend.gWet.symm, hend.gDry.symm,
    hend.gMaster.symm, hend.cursor, hend.active, hend.params⟩

end Sys2Proof.Machine
end

section
/-! What DERIVE installs, and CLEAR (41_deriver.md R150, R154, R158 to R164). -/

namespace Sys2Proof.Machine

/-- Settles O28: CLEAR is the state's own clearing of the RAM. -/
theorem clearZeroesRam : Obligations.ClearZeroesRam :=
  fun s => ⟨s.clearRam, rfl, fun _ => rfl, rfl, rfl⟩

/-- A valid index names the entry that stands at its place in the catalog. -/
theorem catalogEntry?_of_validPreset {c : Catalog} {p : BitVec 32} (h : validPreset c p = true) :
    catalogEntry? c p = (c.first :: c.rest)[p.toInt.toNat]? :=
  if_pos h

theorem invariantHolds_eq_true_iff {p : Params} {b : Nat} :
    invariantHolds p b = true ↔ ∀ o ∈ effectiveOffsets p, -(b : Int) < o ∧ o < b := by
  simp only [invariantHolds, List.all_eq_true, Bool.and_eq_true, decide_eq_true_eq]

theorem invariantHolds_eq_false_iff {p : Params} {b : Nat} :
    invariantHolds p b = false ↔ ∃ o ∈ effectiveOffsets p, ¬(-(b : Int) < o ∧ o < b) := by
  rw [← Bool.not_eq_true, invariantHolds_eq_true_iff]
  push Not
  rfl

theorem allGainsFinite_eq_false_iff {p : Params} :
    allGainsFinite p = false ↔ ∃ g ∈ derivedGains p, F32.isFinite g = false := by
  simp only [allGainsFinite, List.all_eq_false, Bool.not_eq_true]

/-- R159's check speaks of the offsets and the size that DERIVE leaves. -/
theorem deriveEntry_fi (s : State) (p : BitVec 32) (e : CatalogEntry) :
    (s.deriveEntry p e).fi =
      (s.fi || !invariantHolds (s.deriveEntry p e).params (s.deriveEntry p e).bufSize) := by
  simp only [deriveEntry_eq, install_params, install_bufSize]

/-- R160's check speaks of the gains that DERIVE leaves. -/
theorem deriveEntry_fn (s : State) (p : BitVec 32) (e : CatalogEntry) :
    (s.deriveEntry p e).fn = (s.fn || !allGainsFinite (s.deriveEntry p e).params) := by
  simp only [deriveEntry_eq, install_params]

/-- Settles O25: the fields of the state DERIVE leaves, with its two checks read as statements about the installed
offsets and gains. -/
theorem deriveInstallsPreset : Obligations.DeriveInstallsPreset := by
  intro s e hv he
  have hentry := (catalogEntry?_of_validPreset hv).trans he
  refine ⟨s.deriveEntry s.ports.presetIn e, derive_eq_next.2 ⟨e, hentry, rfl⟩, ?_⟩
  have hfi := deriveEntry_fi s s.ports.presetIn e
  have hfn := deriveEntry_fn s s.ports.presetIn e
  rw [hfi, hfn, Bool.or_eq_true, Bool.or_eq_true, Bool.not_eq_true', Bool.not_eq_true',
    invariantHolds_eq_false_iff, allGainsFinite_eq_false_iff, deriveEntry_eq]
  exact ⟨rfl, rfl, rfl, rfl, rfl, Iff.rfl, Iff.rfl, rfl, fun _ => rfl, rfl, rfl⟩

/-- Deriving the entry that is installed changes nothing: the second checks find what the first ones found. -/
theorem deriveEntry_deriveEntry (s : State) (p : BitVec 32) (e : CatalogEntry) :
    (s.deriveEntry p e).deriveEntry p e = s.deriveEntry p e := by
  simp only [deriveEntry_eq, install_params, install_bufSize, Bool.or_assoc, Bool.or_self]

/-- Settles O26: what is installed names the record, the span, the rate and iirConvert and no other register, and a
second DERIVE finds the same catalog, rate and index. -/
theorem deriveIsIdempotent : Obligations.DeriveIsIdempotent := by
  constructor
  · intro s t u v ht hv hraw hspan hrate hiir
    obtain ⟨e, -, rfl⟩ := derive_eq_next.1 ht
    obtain ⟨e', -, rfl⟩ := derive_eq_next.1 hv
    simp only [deriveEntry_eq] at hraw hspan ⊢
    simp only [hraw, hspan, hrate, hiir, and_self]
  · intro s t ht
    obtain ⟨e, he, rfl⟩ := derive_eq_next.1 ht
    have hports : (s.deriveEntry s.ports.presetIn e).ports = s.ports := by rw [deriveEntry_eq]
    have hcatalog : (s.deriveEntry s.ports.presetIn e).catalog = s.catalog := by rw [deriveEntry_eq]
    refine derive_eq_next.2 ⟨e, ?_, ?_⟩
    · rw [hcatalog, hports, he]
    · rw [hports, deriveEntry_deriveEntry]

/-- Settles O27: FI = 0 says that R159's check passed, and every size is a power of two. -/
theorem cleanDerivationBoundsOffsets : Obligations.CleanDerivationBoundsOffsets := by
  intro s t h hfi
  obtain ⟨e, -, rfl⟩ := derive_eq_next.1 h
  rw [deriveEntry_fi, Bool.or_eq_false_iff, Bool.not_eq_false', invariantHolds_eq_true_iff] at hfi
  exact ⟨bufSize_deriveEntry_eq_pow _ _ _, fun o ho => abs_lt.2 (hfi.2 o ho)⟩

/-- The largest value of a function on a list with at least one entry is a value there. -/
theorem exists_eq_foldr_max {α : Type} (f : α → Nat) (a : α) (l : List α) :
    ∃ x ∈ a :: l, f x = (a :: l).foldr (fun y m => max (f y) m) 0 := by
  induction l generalizing a with
  | nil => exact ⟨a, List.mem_singleton_self a, (Nat.max_zero (f a)).symm⟩
  | cons b l ih =>
    obtain ⟨x, hx, hmax⟩ := ih b
    rw [List.foldr_cons, ← hmax]
    rcases le_total (f x) (f a) with hle | hle
    · exact ⟨a, List.mem_cons_self, (max_eq_left hle).symm⟩
    · exact ⟨x, List.mem_cons_of_mem _ hx, (max_eq_right hle).symm⟩

/-- Settles O33: a maximum over the catalog, which a successful CONSTRUCT installs and the invariant keeps. -/
theorem capacityCoversCatalog : Obligations.CapacityCoversCatalog := by
  refine ⟨fun c r => ⟨fun e he => bufSizeOf_le_capacityOf he r,
      exists_eq_foldr_max (fun e : CatalogEntry => bufSizeOf e.span r) c.first c.rest⟩,
    fun s t hl h ht => ?_, fun s t hs hl h => ?_⟩
  · obtain ⟨-, ⟨hne, -⟩ | ⟨-, c, -, rfl⟩ | ⟨-, -, -, rfl⟩⟩ := execConstruct_cases h
    · exact absurd hl hne
    · cases ht
    · rw [State.constructed, deriveEntry_eq]
      rfl
  · obtain ⟨e, he, rfl⟩ := derive_eq_next.1 h
    exact bufSize_deriveEntry_le_cap (hs.ready hl).cap he

end Sys2Proof.Machine
end

section
/-! Exact results (00_scope.md R13): a multiple of a power of two that fits the significand is the value of a pattern,
and an operation whose exact result is such a number gives that pattern. -/

namespace Sys2Proof

namespace Fmt

/-- `m` units are the magnitude of a finite pattern. -/
def Representable (f : Fmt) (m : Nat) : Prop := ∃ mag < f.infBits, unitsOf f mag = m

/-- The pattern of `z` units, rounded where they are not representable; that of 0 is +0.0. -/
def ofUnits (f : Fmt) (z : Int) : Nat := pack f (decide (z < 0)) z.natAbs 1

/-- The pattern is finite, its value is `z` units, and it is not -0.0. -/
def HasUnits (f : Fmt) (bits : Nat) (z : Int) : Prop := unpack f bits = .fin (decide (z < 0)) z.natAbs

theorem hasUnits_natCast_iff {f : Fmt} {bits m : Nat} : HasUnits f bits m ↔ unpack f bits = .fin false m := by
  rw [HasUnits, Int.natAbs_natCast, decide_eq_false (by omega)]

/-- Whole multiples of `2 ^ e` below the significand's width are representable, up to the exponent's range. -/
theorem representable_mul_two_pow {f : Fmt} (hf : f.Proper) {k e : Nat} (hk : k < 2 ^ f.prec)
    (he : e + 3 ≤ 2 ^ f.expBits) : Representable f (k * 2 ^ e) := by
  obtain ⟨hlo, hhi⟩ := div_ulp_binade f (k * 2 ^ e)
  have hlog : Nat.log2 (k * 2 ^ e) < f.prec + e := by
    rcases Nat.eq_zero_or_pos k with rfl | hpos
    · have := hf.prec
      simp
      omega
    · rw [Nat.log2_lt (by positivity), pow_add]
      exact Nat.mul_lt_mul_of_pos_right hk (by positivity)
  have hulp : ulpExp f (k * 2 ^ e) ≤ e := by
    have := hf.prec
    unfold ulpExp
    omega
  have hdvd : 2 ^ ulpExp f (k * 2 ^ e) ∣ k * 2 ^ e := (pow_dvd_pow 2 hulp).mul_left k
  refine ⟨ulpExp f (k * 2 ^ e) * 2 ^ (f.prec - 1) + k * 2 ^ e / 2 ^ ulpExp f (k * 2 ^ e), ?_, ?_⟩
  · calc _ < ulpExp f (k * 2 ^ e) * 2 ^ (f.prec - 1) + 2 * 2 ^ (f.prec - 1) := Nat.add_lt_add_left hhi _
      _ = (ulpExp f (k * 2 ^ e) + 2) * 2 ^ (f.prec - 1) := (Nat.add_mul ..).symm
      _ ≤ f.infBits := Nat.mul_le_mul_right _ (by omega)
  · rw [unitsOf_binade f hlo hhi.le, Nat.div_mul_cancel hdvd]

/-- The same for multiples with a sign. -/
theorem representable_natAbs_mul_two_pow {f : Fmt} (hf : f.Proper) {k : Int} {e : Nat} (hk : k.natAbs < 2 ^ f.prec)
    (he : e + 3 ≤ 2 ^ f.expBits) : Representable f (k * 2 ^ e).natAbs := by
  rw [Int.natAbs_mul, Int.natAbs_pow]
  exact representable_mul_two_pow hf hk he

theorem roundMag_of_representable {f : Fmt} (hf : f.Proper) {m : Nat} (hm : Representable f m) :
    roundMag f m 1 < f.infBits ∧ unitsOf f (roundMag f m 1) = m := by
  obtain ⟨mag, hlt, rfl⟩ := hm
  have := roundMag_unitsOf hf hlt.le Nat.one_pos
  rw [Nat.mul_one] at this
  exact this.symm ▸ ⟨hlt, rfl⟩

theorem hasUnits_ofUnits {f : Fmt} (hf : f.Proper) {z : Int} (hz : Representable f z.natAbs) :
    HasUnits f (ofUnits f z) z := by
  obtain ⟨hlt, hm⟩ := roundMag_of_representable hf hz
  rw [HasUnits, ofUnits, unpack_pack hf, if_pos hlt, hm]

theorem ofUnits_lt {f : Fmt} (hf : f.Proper) (z : Int) : ofUnits f z < 2 * f.signBit := by
  have hmag := (roundMag_le f z.natAbs 1).trans_lt (infBits_lt_signBit hf)
  unfold ofUnits pack withSign
  split <;> omega

/-- A finite pattern that is not -0.0 is the pattern of its units. -/
theorem eq_ofUnits {f : Fmt} (hf : f.Proper) {a : Nat} {z : Int} (ha : a < 2 * f.signBit) (h : HasUnits f a z) :
    a = ofUnits f z := by
  have := pack_unpack hf ha Nat.one_pos h
  rw [Nat.mul_one] at this
  exact this.symm

/-- A quotient that is a whole number of units is packed as that number. -/
theorem pack_of_eq_mul {f : Fmt} {neg : Bool} {z : Int} {n d : Nat} (hd : 0 < d) (hneg : neg = decide (z < 0))
    (h : n = z.natAbs * d) : pack f neg n d = ofUnits f z := by
  rw [hneg, h, ofUnits, ← pack_mul_mul f _ z.natAbs 1 hd, Nat.one_mul]

/-- Two numbers of equal positive multiples have one sign. -/
theorem neg_iff_of_mul_eq_mul {x z p q : Int} (hp : 0 < p) (hq : 0 < q) (h : x * p = z * q) : x < 0 ↔ z < 0 := by
  have hx := Int.mul_neg_iff (a := x) (b := p)
  have hz := Int.mul_neg_iff (a := z) (b := q)
  rw [h] at hx
  omega

/-- The same for a signed quotient `x * p / q`. -/
theorem pack_of_mul_eq_mul {f : Fmt} {x z p q : Int} (hp : 0 < p) (hq : 0 < q) (h : x * p = z * q) :
    pack f (decide (x < 0)) (x.natAbs * p.natAbs) q.natAbs = ofUnits f z :=
  pack_of_eq_mul (Int.natAbs_pos.2 hq.ne') (decide_eq_decide.2 (neg_iff_of_mul_eq_mul hp hq h))
    (by rw [← Int.natAbs_mul, h, Int.natAbs_mul])

theorem unpack_neg {f : Fmt} {b m : Nat} {s : Bool} (hb : b < 2 * f.signBit) (h : unpack f b = .fin s m) :
    unpack f (neg f b) = .fin (!s) m := by
  rw [unpack_eq_fin_iff] at h ⊢
  obtain ⟨hlt, rfl, hm⟩ := h
  have hmod : neg f b % f.signBit = b % f.signBit := by
    unfold neg
    split
    · rw [Nat.mod_eq_sub_mod (a := b) (by assumption)]
    · exact Nat.add_mod_right b f.signBit
  refine ⟨hmod ▸ hlt, ?_, hmod ▸ hm⟩
  rw [← decide_not, decide_eq_decide, neg]
  split <;> omega

section operations

variable {f : Fmt} {nan a b : Nat} {x y z : Int} (ha : HasUnits f a x) (hb : HasUnits f b y)
include ha hb

theorem add_of_hasUnits : add f nan a b = ofUnits f (x + y) := by
  rw [HasUnits] at ha hb
  simp only [add, ha, hb, decide_eq_decide]
  split_ifs <;> refine pack_of_eq_mul Nat.one_pos ?_ (by omega) <;>
    simp only [false_eq_decide_iff, decide_eq_decide] <;> omega

theorem sub_of_hasUnits (hlt : b < 2 * f.signBit) : sub f nan a b = ofUnits f (x - y) := by
  rw [HasUnits] at ha hb
  simp only [sub, add, ha, unpack_neg hlt hb, ← decide_not, decide_eq_decide]
  split_ifs <;> refine pack_of_eq_mul Nat.one_pos ?_ (by omega) <;>
    simp only [false_eq_decide_iff, decide_eq_decide] <;> omega

theorem mul_of_hasUnits (hone : 0 < f.one) (hy : 0 < y) (h : x * y = z * f.one) : mul f nan a b = ofUnits f z := by
  rw [HasUnits] at ha hb
  simp only [mul, ha, hb, decide_eq_false hy.not_gt, Bool.bne_false]
  exact pack_of_mul_eq_mul (q := f.one) hy (Int.natCast_pos.2 hone) h

theorem div_of_hasUnits (hone : 0 < f.one) (hy : 0 < y) (h : x * f.one = z * y) : div f nan a b = ofUnits f z := by
  rw [HasUnits] at ha hb
  simp only [div, ha, hb, if_neg (Int.natAbs_ne_zero.2 hy.ne'), decide_eq_false hy.not_gt, Bool.bne_false]
  exact pack_of_mul_eq_mul (p := f.one) (Int.natCast_pos.2 hone) hy h

end operations

theorem convert_of_hasUnits {f g : Fmt} {nan a : Nat} {x z : Int} (ha : HasUnits g a x) (hf : 0 < f.one)
    (hg : 0 < g.one) (h : x * f.one = z * g.one) : convert f g nan a = ofUnits f z := by
  rw [HasUnits] at ha
  simp only [convert, ha]
  exact pack_of_mul_eq_mul (p := f.one) (q := g.one) (Int.natCast_pos.2 hf) (Int.natCast_pos.2 hg) h

/-- The word of a representable number of units. -/
theorem hasUnits_ofNat_ofUnits {f : Fmt} (hf : f.Proper) {n : Nat} (hn : 2 * f.signBit = 2 ^ n) {z : Int}
    (hz : Representable f z.natAbs) : HasUnits f (BitVec.ofNat n (ofUnits f z)).toNat z := by
  rw [BitVec.toNat_ofNat, Nat.mod_eq_of_lt (hn ▸ ofUnits_lt hf z)]
  exact hasUnits_ofUnits hf hz

end Fmt

/-- The binary32 word of `z` units. -/
def F32.ofUnits (z : Int) : F32 := BitVec.ofNat 32 (Fmt.ofUnits .b32 z)

/-- The binary64 word of `z` units. -/
def F64.ofUnits (z : Int) : F64 := BitVec.ofNat 64 (Fmt.ofUnits .b64 z)

theorem F32.hasUnits_ofUnits {z : Int} (hz : Fmt.Representable .b32 z.natAbs) :
    Fmt.HasUnits .b32 (F32.ofUnits z).toNat z :=
  Fmt.hasUnits_ofNat_ofUnits Fmt.b32_proper rfl hz

theorem F32.toF64_of_hasUnits {nan : F64} {a : F32} {x z : Int} (ha : Fmt.HasUnits .b32 a.toNat x)
    (h : x * Fmt.b64.one = z * Fmt.b32.one) : F32.toF64 nan a = F64.ofUnits z :=
  congrArg (BitVec.ofNat 64) (Fmt.convert_of_hasUnits ha Fmt.b64_one_pos (by decide +kernel) h)

namespace F64

theorem hasUnits_ofUnits {z : Int} (hz : Fmt.Representable .b64 z.natAbs) : Fmt.HasUnits .b64 (ofUnits z).toNat z :=
  Fmt.hasUnits_ofNat_ofUnits Fmt.b64_proper rfl hz

/-- A finite word that is not -0.0 is the word of its units. -/
theorem ofUnits_eq {a : F64} {z : Int} (h : Fmt.HasUnits .b64 a.toNat z) : ofUnits z = a := by
  rw [ofUnits, ← Fmt.eq_ofUnits Fmt.b64_proper a.isLt h, BitVec.ofNat_toNat, BitVec.setWidth_eq]

section operations

variable {nan a b : F64} {x y z : Int} (ha : Fmt.HasUnits .b64 a.toNat x)
include ha

theorem toF32_of_hasUnits {nan : F32} (h : x * Fmt.b32.one = z * Fmt.b64.one) : toF32 nan a = F32.ofUnits z :=
  congrArg (BitVec.ofNat 32) (Fmt.convert_of_hasUnits ha (by decide +kernel) Fmt.b64_one_pos h)

variable (hb : Fmt.HasUnits .b64 b.toNat y)
include hb

theorem add_of_hasUnits : add nan a b = ofUnits (x + y) :=
  congrArg (BitVec.ofNat 64) (Fmt.add_of_hasUnits ha hb)

theorem sub_of_hasUnits : sub nan a b = ofUnits (x - y) :=
  congrArg (BitVec.ofNat 64) (Fmt.sub_of_hasUnits ha hb b.isLt)

theorem mul_of_hasUnits (hy : 0 < y) (h : x * y = z * Fmt.b64.one) : mul nan a b = ofUnits z :=
  congrArg (BitVec.ofNat 64) (Fmt.mul_of_hasUnits ha hb Fmt.b64_one_pos hy h)

theorem div_of_hasUnits (hy : 0 < y) (h : x * Fmt.b64.one = z * y) : div nan a b = ofUnits z :=
  congrArg (BitVec.ofNat 64) (Fmt.div_of_hasUnits ha hb Fmt.b64_one_pos hy h)

end operations

end F64

end Sys2Proof
end

section
/-! The gains (41_deriver.md R154 to R156): gainDecode is exact, and at the native rate and at zero every step of the
default iirConvert is exact too. -/

namespace Sys2Proof.Machine

theorem b32_one_eq_mul : (Fmt.b32.one : Int) = 2 ^ 15 * 2 ^ 134 := by
  rw [Fmt.b32_one, Nat.cast_pow, Nat.cast_ofNat, ← pow_add]

/-- `s16(w) / 32768` in units of 2^-149. -/
theorem gainDecode_eq_ofUnits (w : Word16) : gainDecode w = F32.ofUnits (w.toInt * 2 ^ 134) :=
  congrArg (BitVec.ofNat 32) (Fmt.pack_of_mul_eq_mul (p := Fmt.b32.one) (q := 32768) (by decide +kernel) (by decide)
    (by rw [b32_one_eq_mul]; ring))

theorem hasUnits_gainDecode (w : Word16) : Fmt.HasUnits .b32 (gainDecode w).toNat (w.toInt * 2 ^ 134) := by
  have hlo := BitVec.le_toInt w
  have hhi := BitVec.toInt_lt (x := w)
  have hprec : w.toInt.natAbs < 2 ^ 24 := by omega
  rw [gainDecode_eq_ofUnits]
  exact F32.hasUnits_ofUnits (Fmt.representable_natAbs_mul_two_pow Fmt.b32_proper hprec (by decide))

/-- Settles O29: a gain's units, read as a sign and a magnitude; DERIVE installs each of the nine of its own record
word. -/
theorem gainDecodeIsExact : Obligations.GainDecodeIsExact := by
  refine ⟨fun w => ?_, fun s t h => ?_⟩
  · have hsign : w.toInt * 2 ^ 134 < 0 ↔ w.toInt < 0 := by omega
    have habs : (w.toInt * 2 ^ 134).natAbs = w.toInt.natAbs * 2 ^ 134 := by omega
    have h := hasUnits_gainDecode w
    rwa [Fmt.HasUnits, habs, decide_eq_decide.2 hsign] at h
  · obtain ⟨e, -, rfl⟩ := derive_eq_next.1 h
    rw [deriveEntry_eq]
    exact ⟨rfl, rfl, rfl, rfl, rfl, rfl, rfl, rfl, rfl⟩

/-- A number of at most 53 bits, counted in 2^-15. -/
theorem hasUnits_ofUnits_mul_two_pow {z : Int} (hz : z.natAbs < 2 ^ 53) :
    Fmt.HasUnits .b64 (F64.ofUnits (z * 2 ^ 1059)).toNat (z * 2 ^ 1059) :=
  F64.hasUnits_ofUnits (Fmt.representable_natAbs_mul_two_pow Fmt.b64_proper hz (by decide))

theorem b64_one_eq_mul : (Fmt.b64.one : Int) = 2 ^ 15 * 2 ^ 1059 := by
  rw [Fmt.b64_one, Nat.cast_pow, Nat.cast_ofNat, ← pow_add]

theorem hasUnits_one : Fmt.HasUnits .b64 (0x3FF0000000000000#64).toNat Fmt.b64.one := by
  unfold Fmt.HasUnits
  decide +kernel

theorem hasUnits_nativeRate : Fmt.HasUnits .b64 Config.nativeRate.toNat (22050 * Fmt.b64.one) := by
  unfold Fmt.HasUnits
  decide +kernel

/-- At the native rate R155's divisor is the rate itself, and no step rounds. -/
theorem iirDefault_nativeRate (w : Word16) : iirDefault (gainDecode w) Config.nativeRate = gainDecode w := by
  have hk : -(2 ^ 15) ≤ w.toInt ∧ w.toInt < 2 ^ 15 := ⟨BitVec.le_toInt w, BitVec.toInt_lt⟩
  have ha := hasUnits_gainDecode w
  rw [gainDecode_eq_ofUnits w] at ha ⊢
  generalize w.toInt = k at ha hk
  have ha64 := hasUnits_ofUnits_mul_two_pow (z := k) (by omega)
  have hn := hasUnits_ofUnits_mul_two_pow (z := k * 22050) (by omega)
  have hm := hasUnits_ofUnits_mul_two_pow (z := 2 ^ 15 - k) (by omega)
  have hp := hasUnits_ofUnits_mul_two_pow (z := (2 ^ 15 - k) * 22050) (by omega)
  have hrate := hasUnits_nativeRate
  have hone := hasUnits_one
  have hc : (0 : Int) < 2 ^ 1059 := by positivity
  have hb32 := b32_one_eq_mul
  have hb64 := b64_one_eq_mul
  rw [hb64] at hrate hone
  generalize (2 : Int) ^ 1059 = c at *
  have hpos : 0 < 22050 * (2 ^ 15 * c) := by positivity
  unfold iirDefault
  dsimp only
  rw [F32.toF64_of_hasUnits ha (z := k * c) (by rw [hb32, hb64]; ring),
    F64.mul_of_hasUnits ha64 hrate hpos (z := k * 22050 * c) (by rw [hb64]; ring),
    F64.sub_of_hasUnits hone ha64, show 2 ^ 15 * c - k * c = (2 ^ 15 - k) * c by ring,
    F64.mul_of_hasUnits hm hrate hpos (z := (2 ^ 15 - k) * 22050 * c) (by rw [hb64]; ring),
    F64.add_of_hasUnits hn hp, show k * 22050 * c + (2 ^ 15 - k) * 22050 * c = 22050 * (2 ^ 15 * c) by ring,
    F64.ofUnits_eq hrate, F64.div_of_hasUnits hn hrate hpos (z := k * c) (by rw [hb64]; ring),
    F64.toF32_of_hasUnits ha64 (z := k * 2 ^ 134) (by rw [hb32, hb64]; ring)]

/-- For a gain of +0.0 R155's divisor is the rate itself too, and it divides +0.0. -/
theorem iirDefault_zero {r : F64} (h : rateValid r = true) : iirDefault 0x00000000#32 r = 0x00000000#32 := by
  obtain ⟨u, hu, hlt⟩ := (validRatesAreFiniteAboveOne r).1 h
  have hr : Fmt.HasUnits .b64 r.toNat u := Fmt.hasUnits_natCast_iff.2 hu
  have hpos : (0 : Int) < u := by omega
  have hzero : Fmt.HasUnits .b64 (0x0000000000000000#64).toNat 0 := by
    unfold Fmt.HasUnits
    decide +kernel
  have h64 : F32.toF64 (deriverNaN64 2) 0x00000000#32 = 0x0000000000000000#64 := by decide +kernel
  have hn : F64.mul (deriverNaN64 3) 0x0000000000000000#64 Config.nativeRate = 0x0000000000000000#64 := by
    decide +kernel
  have hm : F64.sub (deriverNaN64 4) 0x3FF0000000000000#64 0x0000000000000000#64 = 0x3FF0000000000000#64 := by
    decide +kernel
  unfold iirDefault
  dsimp only
  rw [h64, hn, hm, F64.mul_of_hasUnits hasUnits_one hr hpos (mul_comm _ _), F64.ofUnits_eq hr,
    F64.add_of_hasUnits hzero hr, zero_add, F64.ofUnits_eq hr,
    F64.div_of_hasUnits hzero hr hpos (z := 0) (by ring), F64.ofUnits_eq hzero]
  decide +kernel

/-- Settles O30: at the native rate by exact steps for the default and by definition for a replacement. -/
theorem iirConvertIsIdentityAtNativeRate : Obligations.IirConvertIsIdentityAtNativeRate := by
  refine ⟨fun f w => ?_, fun r h => iirDefault_zero h, by decide +kernel⟩
  cases f with
  | default => exact iirDefault_nativeRate w
  | replacement id =>
    unfold iirConvert
    exact if_pos rfl

end Sys2Proof.Machine
end

section
/-! The micro-steps of a FRAME (42_frame_datapath.md R180 to R199): what each stores and answers, and what it leaves
unchanged. -/

namespace Sys2Proof.Machine

/-- Settles O34: IN's meaning is this one state. -/
theorem inputScalesSamples : Obligations.InputScalesSamples := fun _ => rfl

/-- Settles O38; from B - 1 the sum is B, whose remainder is 0. -/
theorem advanceMovesCursor : Obligations.AdvanceMovesCursor := by
  refine fun s => ⟨rfl, fun hpos hlast => ?_⟩
  have hwrap : (s.cursor + 1) % s.bufSize = 0 := by
    rw [hlast, Nat.sub_add_cancel hpos, Nat.mod_self]
  simp only [exec, execAdv, hwrap]

/-- Settles O39: SMOOTH's meaning is this one state. -/
theorem smoothStepsGains : Obligations.SmoothStepsGains := fun _ => rfl

/-- REFLECT stores R182's recurrence at its write tap and nothing else. -/
theorem reflect_writes_recurrence {s : State} (hs : s.Sized) (hm : memWf s.ram = true) (x : F32) (far m : Int) :
    ∃ t, reflect x far m s = .next t ∧ Claims.WroteBuf s t m (Claims.recurrence s x far m) :=
  ⟨_, reflect_of_sized hs x far m, rfl, fun a => memRead_memWrite hm _ a _⟩

/-- Settles O35: each reflection is REFLECT on its own register and taps. -/
theorem reflectionsWriteRecurrence : Obligations.ReflectionsWriteRecurrence := by
  intro s x hs hm
  have hreflect {r : Option F32} (far m : Int) (hr : r = some x) :
      ∃ t, withReg r (reflect · far m s) = .next t ∧ Claims.WroteBuf s t m (Claims.recurrence s x far m) := by
    rw [hr]
    exact reflect_writes_recurrence hs hm x far m
  exact ⟨hreflect _ _, hreflect _ _, hreflect _ _, hreflect _ _⟩

/-- Settles O36: COMB reads its four taps and goes on with their sum. -/
theorem combsSumFourTaps : Obligations.CombsSumFourTaps := fun s hs =>
  ⟨comb_of_sized hs _ _ _ _ fun v => .next (State.drew { s with lout := some v } 7),
    comb_of_sized hs _ _ _ _ fun v => .next (State.drew { s with rout := some v } 7)⟩

/-- The delayed tap of an all-pass stage is its write tap exactly when the delay is a multiple of B (R257). -/
theorem bufAddr_sub_eq_iff {s : State} (hb : 0 < s.bufSize) (m d : Int) :
    bufAddr s (m - d) = bufAddr s m ↔ d % (s.bufSize : Int) = 0 := by
  have hB : (s.bufSize : Int) ≠ 0 := by omega
  have h1 := Int.emod_nonneg ((s.cursor : Int) + (m - d)) hB
  have h2 := Int.emod_nonneg ((s.cursor : Int) + m) hB
  calc bufAddr s (m - d) = bufAddr s m
    _ ↔ ((s.cursor : Int) + m) % s.bufSize = ((s.cursor : Int) + (m - d)) % s.bufSize := by
      unfold bufAddr
      omega
    _ ↔ d % (s.bufSize : Int) = 0 := by
      rw [Int.emod_eq_emod_iff_emod_sub_eq_zero]
      congr! 2
      ring

/-- APF stores `w` at its write tap and goes on with its output; the re-read after the store is `w` itself when the two
taps are one word (R190, R257). -/
theorem apf_writes_stored {s : State} (hs : s.Sized) (hm : memWf s.ram = true) (x : F32) (m d : Int) (g : F32) :
    ∃ s1, Claims.WroteBuf s s1 m (Claims.allPassStore s x m d g) ∧
      ∀ k, apf x m d g s k = k (Claims.allPassOut s x m d g) s1 := by
  refine ⟨(s.drew 4).setBuf m (Claims.allPassStore s x m d g), ⟨rfl, fun a => memRead_memWrite hm _ a _⟩,
    fun k => ?_⟩
  have hreread : memRead ((s.drew 4).setBuf m (Claims.allPassStore s x m d g)).ram (bufAddr s (m - d)) =
      if d % (s.bufSize : Int) = 0 then Claims.allPassStore s x m d g else Claims.buf s (m - d) := by
    simp only [← bufAddr_sub_eq_iff hs.pos m d]
    exact memRead_memWrite hm _ _ _
  unfold Claims.allPassOut
  dsimp only
  rw [apf_of_sized hs, ← hreread]
  rfl

/-- An all-pass stage on a register that holds a value, with `f` the write of its output. -/
theorem withReg_apf_writes_stored {s : State} (hs : s.Sized) (hm : memWf s.ram = true) {r : Option F32} {x : F32}
    (hr : r = some x) {f : F32 → State → State} (hram : ∀ y u, (f y u).ram = u.ram)
    (hdraws : ∀ y u, (f y u).draws = u.draws) (m d : Int) (g : F32) :
    ∃ t, (withReg r fun x => apf x m d g s fun y s1 => .next (f y s1)) = .next t ∧
      t = f (Claims.allPassOut s x m d g) { s with ram := t.ram, draws := t.draws } ∧
      ∀ a, memRead t.ram a = if a = bufAddr s m then Claims.allPassStore s x m d g else memRead s.ram a := by
  obtain ⟨s1, ⟨hsame, hstored⟩, hgo⟩ := apf_writes_stored hs hm x m d g
  refine ⟨f (Claims.allPassOut s x m d g) s1, ?_, ?_, ?_⟩
  · rw [hr, withReg_some, hgo]
  · rw [hram, hdraws, ← hsame]
  · rwa [hram]

/-- Settles O37: each stage is APF on its own register, taps and gain, and writes the output back to the register. -/
theorem allPassStages : Obligations.AllPassStages := by
  intro s x hs hm
  refine ⟨fun hx => ?_, fun hx => ?_⟩
  · have hstage := withReg_apf_writes_stored hs hm hx (f := fun y u => { u with lout := some y }) (fun _ _ => rfl)
      fun _ _ => rfl
    exact ⟨hstage _ _ _, hstage _ _ _⟩
  · have hstage := withReg_apf_writes_stored hs hm hx (f := fun y u => { u with rout := some y }) (fun _ _ => rfl)
      fun _ _ => rfl
    exact ⟨hstage _ _ _, hstage _ _ _⟩

/-- Settles O41: the two registers hold values, so the mix is stored at its element. -/
theorem mixWritesOutput : Obligations.MixWritesOutput := by
  intro s wet dry hm
  constructor <;> intro hwet hdry
  all_goals
    exact ⟨_, withReg_withReg_eq_next.2 ⟨wet, dry, hwet, hdry, rfl⟩, rfl, fun a => memRead_memWrite hm _ a _⟩

/-- Where a reflection answers a next state, it has stored one word at its write tap. -/
theorem withReg_reflect_eq_next {s t : State} {r : Option F32} {far m : Int}
    (h : withReg r (reflect · far m s) = .next t) : ∃ v, t = (s.drew 5).setBuf m v := by
  obtain ⟨x, -, h⟩ := withReg_eq_next.1 h
  exact ⟨_, (reflect_eq_next h).2⟩

/-- Where an all-pass stage answers a next state, it has stored one word at its write tap and written its register. -/
theorem withReg_apf_eq_next {s t : State} {r : Option F32} {m d : Int} {g : F32} {f : F32 → State → State}
    (h : (withReg r fun x => apf x m d g s fun y s1 => .next (f y s1)) = .next t) :
    ∃ y v, t = f y ((s.drew 4).setBuf m v) := by
  obtain ⟨x, -, h⟩ := withReg_eq_next.1 h
  obtain ⟨-, -, h⟩ := apf_eq_next h
  cases h
  exact ⟨_, _, rfl⟩

/-- Settles O42, by the state each micro-step answers; a store reaches one word. -/
theorem microStepFrames : Obligations.MicroStepFrames := by
  intro s t
  simp only [List.forall_mem_cons, List.not_mem_nil, false_imp_iff, implies_true, and_true]
  have hreflect {r : Option F32} {far m : Int} (h : withReg r (reflect · far m s) = .next t) :
      t = { s with ram := t.ram, draws := t.draws } ∧ ∀ a, a ≠ bufAddr s m → memRead t.ram a = memRead s.ram a := by
    obtain ⟨v, rfl⟩ := withReg_reflect_eq_next h
    exact ⟨rfl, fun a ha => memRead_memWrite_ne ha⟩
  refine ⟨fun h => ?_, fun h => ?_, fun h => ?_, fun h => ?_, fun h => ?_, ⟨hreflect, hreflect, hreflect, hreflect⟩,
    ⟨fun h => ?_, fun h => ?_⟩, ⟨fun h => ?_, fun h => ?_⟩, ⟨fun h => ?_, fun h => ?_⟩⟩
  case refine_1 | refine_4 | refine_5 =>
    cases h
    rfl
  case refine_2 | refine_3 =>
    simp only [exec, execCombL, execCombR] at h
    cases comb_eq_next h
    rfl
  case refine_6 | refine_7 | refine_8 | refine_9 =>
    obtain ⟨y, v, rfl⟩ := withReg_apf_eq_next h
    exact ⟨rfl, fun a ha => memRead_memWrite_ne ha⟩
  case refine_10 | refine_11 =>
    obtain ⟨wet, dry, -, -, rfl⟩ := withReg_withReg_eq_next.1 h
    exact ⟨rfl, fun a ha => memRead_memWrite_ne ha⟩

/-- Settles O53: the fields outside a frame's writes, the sequencer's among them, are known of every micro-step. -/
theorem microStepsKeepStatusAndParameters : Obligations.MicroStepsKeepStatusAndParameters := by
  intro i s t hi h
  have hsame : s.sameOutsideFrame t := .of_microEffect (microEffect_of_exec hi h)
  exact ⟨hsame, congrArg (·.2.2.1) (sequencer_of_exec (.inl hi) h), (congrArg State.status hsame :)⟩

/-- Outside MIX_L, MIX_R and what contains them, no operation writes a sample (R199). -/
theorem samples_of_exec {i : Instr} {s t : State} (hmixL : i ≠ .mixL) (hmixR : i ≠ .mixR) (hframe : i ≠ .frame)
    (hblock : ∀ n, i ≠ .runBlock n) (h : exec i s = .next t) : t.samples = s.samples := by
  cases i
  case mixL => exact absurd rfl hmixL
  case mixR => exact absurd rfl hmixR
  case frame => exact absurd rfl hframe
  case runBlock n => exact absurd rfl (hblock n)
  case construct =>
    rcases (execConstruct_cases h).2 with ⟨-, rfl⟩ | ⟨-, e, -, rfl⟩ | ⟨-, -, -, rfl⟩
    · rfl
    · rfl
    · rw [State.constructed, deriveEntry_eq]
      rfl
  case reset => rcases (execReset_eq_next.1 h).2 with ⟨-, rfl⟩ | ⟨-, rfl⟩ <;> rfl
  case select =>
    rcases execSelect_cases h with rfl | ⟨-, ⟨e, -, rfl⟩ | ⟨-, rfl⟩⟩
    · rfl
    · rw [deriveEntry_eq]
    · rfl
  case derive =>
    obtain ⟨e, -, rfl⟩ := derive_eq_next.1 h
    rw [deriveEntry_eq]
  case latch | clear | input | adv | smooth =>
    cases h
    rfl
  case combL | combR =>
    simp only [exec, execCombL, execCombR] at h
    cases comb_eq_next h
    rfl
  case sameL | sameR | diffL | diffR =>
    obtain ⟨v, rfl⟩ := withReg_reflect_eq_next h
    rfl
  case apf1L | apf1R | apf2L | apf2R =>
    obtain ⟨y, v, rfl⟩ := withReg_apf_eq_next h
    rfl

/-- Settles O54: the mixes store one element each, and no other operation but what contains them stores any. -/
theorem onlyMixWritesStreams : Obligations.OnlyMixWritesStreams := by
  intro i s t h
  refine ⟨fun hmixL hmixR hframe hblock => samples_of_exec hmixL hmixR hframe hblock h, ?_, ?_⟩
  all_goals
    rintro rfl a ha
    obtain ⟨wet, dry, -, -, rfl⟩ := withReg_withReg_eq_next.1 h
    exact memRead_memWrite_ne ha

end Sys2Proof.Machine
end

section
/-! The arithmetic of the datapath's corner cases (42_frame_datapath.md R196, R200): a smoothing step at the target is exact,
and a zero gain does not block a NaN or an infinity. -/

namespace Sys2Proof

namespace Fmt

/-- A pattern that is finite and not -0.0 has a number of units. -/
theorem exists_hasUnits {f : Fmt} {a : Nat} (ha : a < 2 * f.signBit) (hfin : isFinite f a = true)
    (hne : a ≠ f.signBit) : ∃ z, HasUnits f a z := by
  have hlt : a % f.signBit < f.infBits := of_decide_eq_true hfin
  by_cases hs : f.signBit ≤ a
  · have hmod : a % f.signBit = a - f.signBit := by rw [Nat.mod_eq_sub_mod hs, Nat.mod_eq_of_lt (by omega)]
    have hpos : unitsOf f 0 < unitsOf f (a % f.signBit) := unitsOf_strictMono f (by omega)
    have hneg : f.signBit ≤ a ↔ -(unitsOf f (a % f.signBit) : Int) < 0 := by omega
    exact ⟨-unitsOf f (a % f.signBit), unpack_eq_fin_iff.2 ⟨hlt, decide_eq_decide.2 hneg, by simp⟩⟩
  · exact ⟨unitsOf f (a % f.signBit), hasUnits_natCast_iff.2 (unpack_eq_fin_iff.2 ⟨hlt, decide_eq_false hs, rfl⟩)⟩

/-- A number that is not negative, times +0.0. -/
theorem mul_zero_of_hasUnits {f : Fmt} {nan a b m : Nat} (ha : HasUnits f a m) (hb : HasUnits f b 0) (hone : 0 < f.one) :
    mul f nan a b = ofUnits f 0 := by
  rw [HasUnits] at hb
  simp only [mul, hasUnits_natCast_iff.1 ha, hb]
  exact pack_of_eq_mul hone rfl (by simp)

theorem unpack_of_isFinite_eq_false {f : Fmt} {a : Nat} (h : isFinite f a = false) :
    unpack f a = .nan ∨ ∃ neg, unpack f a = .inf neg := by
  cases hu : unpack f a with
  | nan => exact .inl rfl
  | inf neg => exact .inr ⟨neg, rfl⟩
  | fin neg m => exact absurd (unpack_eq_fin_iff.1 hu).1 (of_decide_eq_false h)

/-- A zero of either sign times a NaN or an infinity is the NaN of the operation, on either side (R200). -/
theorem mul_of_zero_of_not_finite {f : Fmt} {z x : Nat} (nan : Nat) {neg : Bool} (hz : unpack f z = .fin neg 0)
    (hx : isFinite f x = false) : mul f nan z x = nan ∧ mul f nan x z = nan := by
  rcases unpack_of_isFinite_eq_false hx with hu | ⟨s, hu⟩ <;> simp [mul, hz, hu]

end Fmt

namespace F32

/-- A finite word that is not -0.0 is the word of its units. -/
theorem ofUnits_eq {a : F32} {z : Int} (h : Fmt.HasUnits .b32 a.toNat z) : ofUnits z = a := by
  rw [ofUnits, ← Fmt.eq_ofUnits Fmt.b32_proper a.isLt h, BitVec.ofNat_toNat, BitVec.setWidth_eq]

theorem exists_hasUnits {a : F32} (hfin : isFinite a = true) (hne : a ≠ 0x80000000#32) :
    ∃ z, Fmt.HasUnits .b32 a.toNat z :=
  Fmt.exists_hasUnits a.isLt hfin fun h => hne (BitVec.eq_of_toNat_eq h)

theorem hasUnits_zero : Fmt.HasUnits .b32 (0x00000000#32).toNat 0 := by
  unfold Fmt.HasUnits
  decide +kernel

section operations

variable {nan a b : F32} {x y : Int} (ha : Fmt.HasUnits .b32 a.toNat x) (hb : Fmt.HasUnits .b32 b.toNat y)
include ha hb

theorem add_of_hasUnits : add nan a b = ofUnits (x + y) := congrArg (BitVec.ofNat 32) (Fmt.add_of_hasUnits ha hb)

theorem sub_of_hasUnits : sub nan a b = ofUnits (x - y) :=
  congrArg (BitVec.ofNat 32) (Fmt.sub_of_hasUnits ha hb b.isLt)

end operations

end F32

end Sys2Proof

namespace Sys2Proof.Machine

theorem smoothK_mul_zero (nan : F32) : F32.mul nan 0x3A83126F#32 0x00000000#32 = 0x00000000#32 := by
  have hk : Fmt.HasUnits .b32 (0x3A83126F#32).toNat (Fmt.unitsOf .b32 0x3A83126F : Nat) := by
    unfold Fmt.HasUnits
    decide +kernel
  have hmul := Fmt.mul_zero_of_hasUnits (nan := nan.toNat) hk F32.hasUnits_zero (by decide +kernel)
  exact (congrArg (BitVec.ofNat 32) hmul).trans (F32.ofUnits_eq F32.hasUnits_zero)

/-- Settles O40: the difference is +0.0, so the step adds +0.0 to the gain. -/
theorem smoothKeepsReachedTarget : Obligations.SmoothKeepsReachedTarget := by
  intro d g hfin hne
  obtain ⟨z, hg⟩ := F32.exists_hasUnits hfin hne
  have hdiff : F32.sub (nan32 d) g g = 0x00000000#32 := by
    rw [F32.sub_of_hasUnits hg hg, Int.sub_self, F32.ofUnits_eq F32.hasUnits_zero]
  rw [Claims.smoothed, hdiff, smoothK_mul_zero, F32.add_of_hasUnits hg F32.hasUnits_zero, Int.add_zero,
    F32.ofUnits_eq hg]

/-- Settles O47: in each case the operation answers its draw, which is a NaN. -/
theorem nonFiniteValuesPropagate : Obligations.NonFiniteValuesPropagate := by
  intro d x y z
  have hdraw {r : F32} (h : r = nan32 d) : F32.isNaN r = true := h ▸ isNaN_nan32 d
  constructor
  · intro hz hx
    obtain ⟨neg, hzero⟩ : ∃ neg, Fmt.unpack .b32 z.toNat = .fin neg 0 := by
      rcases hz with rfl | rfl
      · exact ⟨false, by decide +kernel⟩
      · exact ⟨true, by decide +kernel⟩
    obtain ⟨hzx, hxz⟩ := Fmt.mul_of_zero_of_not_finite (nan32 d).toNat hzero hx
    exact ⟨hdraw (by simp [F32.mul, hzx]), hdraw (by simp [F32.mul, hxz])⟩
  · intro hx
    exact ⟨hdraw (F32.add_of_isNaN _ _ _ (.inl hx)), hdraw (F32.add_of_isNaN _ _ _ (.inr hx)),
      hdraw (F32.sub_of_isNaN _ _ _ (.inl hx)), hdraw (F32.sub_of_isNaN _ _ _ (.inr hx)),
      hdraw (F32.mul_of_isNaN _ _ _ (.inl hx)), hdraw (F32.mul_of_isNaN _ _ _ (.inr hx))⟩

end Sys2Proof.Machine
end

section
/-! What each error records, and CONSTRUCT's three failures in the order of its checks (60_exceptions.md R221 to R230). -/

namespace Sys2Proof.Machine

/-- Settles O45: `State.raise` writes the column "records" of R221, where DIAG counts by `satIncr`. -/
theorem errorsRecordTheirColumn : Obligations.ErrorsRecordTheirColumn := by
  intro s p
  refine ⟨rfl, rfl, rfl, rfl, rfl, rfl, rfl, ?_, rfl, rfl, rfl⟩
  rw [State.raise, satIncr_eq_ofNat_min]

/-- The capacity check fails exactly for a size product that is not finite and for a capacity above CAP_MAX (R224). -/
theorem capacityTooLarge_iff {c : Catalog} {r : F64} :
    capacityTooLarge c r = true ↔
      (∃ e ∈ catalogEntries c, F64.isFinite (sizeProduct e.span r) = false) ∨ Config.capMax < capacityOf c r := by
  simp only [capacityTooLarge, Bool.or_eq_true, List.any_eq_true, Bool.not_eq_true', decide_eq_true_eq]

/-- One entry whose size is above CAP_MAX fails the check. -/
theorem capacityTooLarge_of_bufSizeOf {c : Catalog} {e : CatalogEntry} {r : F64} (he : e ∈ catalogEntries c)
    (h : Config.capMax < bufSizeOf e.span r) : capacityTooLarge c r = true :=
  capacityTooLarge_iff.2 (.inr (h.trans_le (bufSizeOf_le_capacityOf he r)))

/-- What an error of the configuration leaves is what the claims call a failed construction. -/
theorem failsWith_of_execConstruct {s : State} {e : CfgErr} (h : execConstruct s = .next (s.failConstruct e)) :
    Claims.FailsWith s e := by
  refine ⟨s.failConstruct e, h, rfl, fun hstatus => ?_⟩
  obtain ⟨-, hfi, hfn, hrf, -⟩ := (status_eq_zero_iff s).1 hstatus
  exact ⟨hfi, hfn, hrf⟩

section Unconstructed

variable {s : State} (hp : s.phase = .idle) (hl : s.life = .unconstructed)
include hp hl

theorem failsWith_badRate (hr : rateValid s.ports.rate = false) : Claims.FailsWith s .badRate :=
  failsWith_of_execConstruct <| by
    rw [execConstruct, whenLife_of_ready hp hl, hr]
    rfl

theorem failsWith_noCapability (hr : rateValid s.ports.rate = true) (hk : s.ports.capsOk = false) :
    Claims.FailsWith s .noCapability :=
  failsWith_of_execConstruct <| by
    rw [execConstruct, whenLife_of_ready hp hl, hr, hk]
    rfl

theorem failsWith_capacity (hr : rateValid s.ports.rate = true) (hk : s.ports.capsOk = true)
    (hc : capacityTooLarge s.catalog (stretchOf s.ports.rate) = true) : Claims.FailsWith s .capacity :=
  failsWith_of_execConstruct <| by
    rw [execConstruct, whenLife_of_ready hp hl, hr, hk, hc]
    rfl

end Unconstructed

/-- R224's example: a span of 128 at a rate of 2^40 Hz needs 2^32 words. -/
theorem bufSizeOf_128_at_two_pow_40 : bufSizeOf 128#32 (stretchOf 0x4270000000000000#64) = 2 ^ 32 := by
  decide +kernel

/-- Settles O10: each failing check answers before the later ones are made, and R224's example fails by its first entry. -/
theorem constructRecordsFirstFailure : Obligations.ConstructRecordsFirstFailure := by
  refine ⟨fun c r => ⟨fun hfin => ?_, fun hinf => capacityTooLarge_iff.2 (.inl hinf)⟩, fun s hp hl =>
    ⟨failsWith_badRate hp hl, failsWith_noCapability hp hl, failsWith_capacity hp hl, fun hrate hk hspan => ?_⟩⟩
  · have hnone : ¬∃ e ∈ catalogEntries c, F64.isFinite (sizeProduct e.span r) = false :=
      fun ⟨e, he, hinf⟩ => Bool.false_ne_true (hinf.symm.trans (hfin e he))
    exact capacityTooLarge_iff.trans (or_iff_right hnone)
  · have hvalid : rateValid s.ports.rate = true := by
      rw [hrate]
      decide +kernel
    have hsize : bufSizeOf s.catalog.first.span (stretchOf s.ports.rate) = 2 ^ 32 := by
      rw [hspan, hrate, bufSizeOf_128_at_two_pow_40]
    have hc : capacityTooLarge s.catalog (stretchOf s.ports.rate) = true :=
      capacityTooLarge_of_bufSizeOf List.mem_cons_self (hsize ▸ by decide)
    obtain ⟨t, ht, rfl, -⟩ := failsWith_capacity hp hl hvalid hk hc
    exact ⟨hspan ▸ hsize, _, ht, rfl, rfl⟩

end Sys2Proof.Machine
end

section
/-! A block with an invalid preset index (60_exceptions.md R225). Only SELECT reads PRESET_IN, DIAG and LASTINV, so the frames
of the block run in step with those of a block with the index ACTIVE. -/

namespace Sys2Proof.Machine

/-- The state with the invalid index `p` at PRESET_IN and in LASTINV, and with DIAG = `d`. -/
def State.withInvalid (p d : BitVec 32) (s : State) : State :=
  { s with ports := { s.ports with presetIn := p }, diag := d, lastInv := p }

section WithInvalid

variable (p d : BitVec 32)

/-- No micro-step reads PRESET_IN, DIAG or LASTINV. -/
theorem commutesWith_exec_withInvalid {i : Instr} (hi : isMicroStep i = true) :
    CommutesWith (State.withInvalid p d) (exec i) := by
  intro s
  cases i
  case construct | reset | runBlock | select | latch | frame | derive | clear => cases hi
  case input | adv | smooth => rfl
  case sameL | sameR | diffL | diffR =>
    simp only [exec, execSameL, execSameR, execDiffL, execDiffR, reflect, writeBuf, andThen_withReg, andThen_withBuf,
      andThen_ite]
    rfl
  case combL | combR =>
    simp only [exec, execCombL, execCombR, andThen_comb]
    rfl
  case apf1L | apf1R | apf2L | apf2R =>
    simp only [exec, execApf1L, execApf1R, execApf2L, execApf2R, apf, writeBuf, andThen_withReg, andThen_withBuf,
      andThen_ite, andThen_next]
    rfl
  case mixL | mixR =>
    simp only [exec, execMixL, execMixR, andThen_withReg]
    rfl

theorem commutesWith_execFrame_withInvalid : CommutesWith (State.withInvalid p d) execFrame := by
  have hmicro : CommutesWith (State.withInvalid p d) (runMicro microProgram) := by
    refine commutesWith_runMicro (fun _ _ => rfl) fun q hq => ?_
    rw [microProgram_eq_map] at hq
    obtain ⟨r, hr, rfl⟩ := List.mem_map.1 hq
    exact commutesWith_exec_withInvalid p d (isMicroStep_of_mem_microInstrs r hr)
  intro s
  have hcleared : (s.withInvalid p d).clearWorking = s.clearWorking.withInvalid p d := rfl
  rw [execFrame, execFrame, hcleared, hmicro, andThen_assoc, andThen_assoc]
  rfl

/-- The frames of a block run the same whatever PRESET_IN, DIAG and LASTINV hold. -/
theorem runFrames_withInvalid {n : Nat} {s t : State} (h : runFrames n s = .next t) :
    runFrames n (s.withInvalid p d) = .next (t.withInvalid p d) := by
  induction n generalizing s with
  | zero =>
    cases h
    rfl
  | succ n ih =>
    obtain ⟨u, hframe, h⟩ := andThen_eq_next.1 h
    exact andThen_eq_next.2 ⟨_, (commutesWith_execFrame_withInvalid p d).next hframe, ih h⟩

end WithInvalid

/-- The state with ACTIVE at PRESET_IN. -/
def State.atActive (s : State) : State := { s with ports := { s.ports with presetIn := s.active } }

theorem selected_atActive (s : State) : s.atActive.selected = s.atActive := if_pos rfl

theorem selected_of_invalid {s : State} (hne : s.ports.presetIn ≠ s.active)
    (hv : validPreset s.catalog s.ports.presetIn = false) :
    s.selected = s.raise (.presetInvalid s.ports.presetIn) := by
  rcases selected_cases s with ⟨hactive, -⟩ | ⟨-, hvalid, -⟩ | ⟨-, -, hs⟩
  · exact absurd hactive hne
  · exact absurd hvalid (by simp [hv])
  · exact hs

/-- SELECT of an invalid index leaves what SELECT of ACTIVE does, with DIAG up and LASTINV (R225). -/
theorem blockStart_of_invalid {s : State} (hne : s.ports.presetIn ≠ s.active)
    (hv : validPreset s.catalog s.ports.presetIn = false) (n : Nat) :
    s.blockStart n = (s.atActive.blockStart n).withInvalid s.ports.presetIn (satIncr s.diag) := by
  rw [State.blockStart, State.blockStart, selected_of_invalid hne hv, selected_atActive]
  rfl

/-- A block with the index ACTIVE reports nothing and keeps its ports. -/
theorem report_of_runFrames_atActive {c n : Nat} {s u : State} (h : runFrames c (s.atActive.blockStart n) = .next u) :
    u.diag = s.diag ∧ u.lastInv = s.lastInv ∧ u.ports = s.atActive.ports := by
  have hsame := sameOutsideFrame_of_runFrames h
  rw [State.blockStart, selected_atActive] at hsame
  exact ⟨(congrArg State.diag hsame :), (congrArg State.lastInv hsame :), (congrArg State.ports hsame :)⟩

/-- Settles O16: the two blocks' frames start from states that differ in PRESET_IN, DIAG and LASTINV alone. -/
theorem invalidPresetRunsAsActive : Obligations.InvalidPresetRunsAsActive := by
  intro s n hp hl hn hstreams hne hv t h
  have hactive : exec (.runBlock n) s.atActive = runBlockBody n.toNat s.atActive :=
    execRunBlock_of_admitted hp hl hn hstreams
  obtain ⟨u, hu, rfl⟩ := runBlockBody_eq_next.1 (hactive.symm.trans h)
  obtain ⟨hdiag, hlastInv, hports⟩ := report_of_runFrames_atActive hu
  refine ⟨hdiag, hlastInv, ?_⟩
  have hrun := runFrames_withInvalid s.ports.presetIn (satIncr s.diag) hu
  rw [← blockStart_of_invalid hne hv] at hrun
  rw [execRunBlock_of_admitted hp hl hn hstreams, runBlockBody_eq_next.2 ⟨_, hrun, rfl⟩, ← satIncr_eq_ofNat_min,
    State.withInvalid, hports]
  rfl

end Sys2Proof.Machine
end

section
/-! The sequencer's internal steps and what RUN_BLOCK does at once (10_state.md R43, 70_reset_and_hazards.md R265).
A step leaves USTEP at the next micro-step, which is where the list of micro-steps sets it. -/

namespace Sys2Proof.Machine

/-- `k` steps of the machine, as an answer over its own state. -/
def runCore (k : Nat) (s : State) : Out := Host.Core.run core k s

theorem runCore_succ (k : Nat) (s : State) : runCore (k + 1) s = andThen (step s) (runCore k) := by
  have hstep : core.step s = step s := rfl
  unfold runCore
  simp only [Host.Core.run, hstep]
  cases step s <;> rfl

/-- Steps run in two parts. -/
theorem runCore_add (a b : Nat) (s : State) : runCore (a + b) s = andThen (runCore a s) (runCore b) := by
  induction a generalizing s with
  | zero =>
    rw [Nat.zero_add]
    rfl
  | succ a ih =>
    rw [Nat.succ_add, runCore_succ, runCore_succ, andThen_assoc]
    exact congrArg (andThen (step s)) (funext ih)

/-- Continuations that agree on every state the first part can answer. -/
theorem andThen_congr {o : Out} {f g : State → Out} (h : ∀ t, o = .next t → f t = g t) : andThen o f = andThen o g := by
  cases o with
  | next t => exact h t rfl
  | fault | refused => rfl

/-- The sequencer is within a FRAME (R42). -/
structure State.InFrame (s : State) : Prop where
  phase : s.phase = .block
  bstep : s.bstep = 0x2#4

theorem State.InFrame.congr {s t : State} (hs : s.InFrame) (h : t.sequencer = s.sequencer) : t.InFrame :=
  ⟨(congrArg (·.1) h).trans hs.phase, (congrArg (·.2.1) h).trans hs.bstep⟩

/-- The state in which the micro-step at USTEP runs: the working registers are cleared at the first one (R40). -/
def State.microStart (s : State) : State := if s.ustep = 0x0#4 then s.clearWorking else s

theorem sequencer_microStart (s : State) : s.microStart.sequencer = s.sequencer := by
  unfold State.microStart
  split <;> rfl

theorem atUstep_of_eq {s : State} {c : BitVec 4} (h : s.ustep = c) : s.atUstep c = s := by
  subst h
  rfl

theorem step_microStep {s : State} (hs : s.InFrame) {i : Instr} (h : decode (.u s.ustep) = .ok i) :
    step s = andThen (exec i s.microStart) fun t => .next t.advance :=
  step_of_fetch_internal (fetch_microStep hs.phase hs.bstep h)

/-- Before the last micro-step of a FRAME the sequencer's move is to count USTEP up (R43). -/
theorem advance_of_ustep_ne {s : State} (hs : s.InFrame) (h : s.ustep ≠ 0xE#4) :
    s.advance = s.atUstep (s.ustep + 1#4) := by
  rw [State.advance, if_pos hs.bstep, if_neg h]

/-- `q` is the micro-step after `p`, so `p` is not the last one and `q` not the first. -/
abbrev Follows (p q : BitVec 4 × Instr) : Prop := p.1 ≠ 0xE#4 ∧ q.1 = p.1 + 1#4 ∧ q.1 ≠ 0x0#4

theorem decode_of_mem_microInstrs {p : BitVec 4 × Instr} (hp : p ∈ microInstrs) : decode (.u p.1) = .ok p.2 := by
  have hcode : ∀ p ∈ microInstrs, p.2.wf = true ∧ encode p.2 = .u p.1 := by decide
  obtain ⟨hwf, henc⟩ := hcode p hp
  rw [← henc, decode_encode hwf]

theorem isChain_microInstrs : microInstrs.IsChain Follows := by decide

/-- Micro-steps that stand one after the other in a FRAME run step by step as they run at once; the sequencer's
move after the last one is left. -/
theorem runCore_microSteps {p : BitVec 4 × Instr} {l : List (BitVec 4 × Instr)} (hmem : ∀ q ∈ p :: l, q ∈ microInstrs)
    (hchain : (p :: l).IsChain Follows) {s : State} (hs : s.InFrame) (hu : s.ustep = p.1) :
    runCore (l.length + 1) s =
      andThen (runMicro ((p :: l).map fun q => (q.1, exec q.2)) s.microStart) fun t => .next t.advance := by
  induction l generalizing p s with
  | nil => ?_
  | cons q l ih => ?_
  all_goals
    obtain ⟨hp, hrest⟩ := List.forall_mem_cons.1 hmem
    have hseq := sequencer_microStart s
    rw [runCore_succ, step_microStep hs (hu ▸ decode_of_mem_microInstrs hp), List.map_cons, runMicro_cons,
      atUstep_of_eq ((congrArg (·.2.2.1) hseq).trans hu), andThen_assoc, andThen_assoc]
  case nil => rfl
  case cons =>
    obtain ⟨⟨hlast, hnext, hfirst⟩, hchain⟩ := List.isChain_cons_cons.1 hchain
    refine andThen_congr fun t ht => ?_
    have htseq := (sequencer_of_exec (.inl (isMicroStep_of_mem_microInstrs p hp)) ht).trans hseq
    have htu : t.ustep = p.1 := (congrArg (·.2.2.1) htseq).trans hu
    have hmove : t.advance = t.atUstep q.1 := by
      rw [advance_of_ustep_ne (hs.congr htseq) (htu ▸ hlast), htu, hnext]
    have hframe : (t.atUstep q.1).InFrame := ⟨(hs.congr htseq).phase, (hs.congr htseq).bstep⟩
    have hstart : (t.atUstep q.1).microStart = t.atUstep q.1 := if_neg hfirst
    rw [andThen_next, hmove, List.length_cons, ih hrest hchain hframe rfl, hstart]
    rfl

/-- Micro-steps leave the sequencer at the last of them. -/
theorem sequencer_runMicro_append {p : BitVec 4 × Instr} {l : List (BitVec 4 × Instr)}
    (hl : ∀ q ∈ l ++ [p], isMicroStep q.2 = true) {s t : State}
    (h : runMicro ((l ++ [p]).map fun q => (q.1, exec q.2)) s = .next t) :
    t.sequencer = (s.atUstep p.1).sequencer := by
  induction l generalizing s with
  | nil =>
    obtain ⟨u, hu, h⟩ := andThen_eq_next.1 h
    cases h
    exact sequencer_of_exec (.inl (hl p List.mem_cons_self)) hu
  | cons q l ih =>
    obtain ⟨u, hu, h⟩ := andThen_eq_next.1 h
    have hseq := sequencer_of_exec (.inl (hl q List.mem_cons_self)) hu
    exact (ih (fun r hr => hl r (List.mem_cons_of_mem q hr)) h).trans
      (congrArg (fun v => (v.1, v.2.1, p.1, v.2.2.2)) hseq)

/-- The sequencer's move at the end of a FRAME clears the working registers itself (R43, R199). -/
theorem advance_clearWorking_of_last {s : State} (hs : s.InFrame) (hu : s.ustep = 0xE#4) :
    s.clearWorking.advance = s.advance := by
  simp only [State.advance, clearWorking_bstep, clearWorking_ustep, clearWorking_k, clearWorking_nblk, hs.bstep, hu,
    if_true]
  rfl

/-- The 15 steps of a FRAME are its meaning and one move of the sequencer (R126, R43). -/
theorem runCore_frame {s : State} (hs : s.InFrame) (hu : s.ustep = 0x0#4) :
    runCore 15 s = andThen (execFrame s) fun t => .next t.advance := by
  have hsteps := runCore_microSteps (fun q hq => hq) isChain_microInstrs hs hu
  rw [State.microStart, if_pos hu] at hsteps
  refine hsteps.trans ?_
  rw [execFrame, andThen_assoc, microProgram_eq_map]
  refine andThen_congr fun t ht => ?_
  have hseq : t.sequencer = (s.clearWorking.atUstep 0xE#4).sequencer :=
    sequencer_runMicro_append (l := microInstrs.dropLast) isMicroStep_of_mem_microInstrs ht
  have hlast : t.InFrame := ⟨(congrArg (·.1) hseq).trans hs.phase, (congrArg (·.2.1) hseq).trans hs.bstep⟩
  rw [andThen_next, advance_clearWorking_of_last hlast (congrArg (·.2.2.1) hseq)]

/-- The steps of a block's last `n + 1` frames are the frames and the return to IDLE (R123, R43). -/
theorem runCore_frames (n : Nat) {s : State} (hs : s.InFrame) (hu : s.ustep = 0x0#4) (hk : s.k + (n + 1) = s.nblk) :
    runCore (15 * (n + 1)) s = andThen (runFrames (n + 1) s) fun t => .next t.toIdle := by
  induction n generalizing s with
  | zero => ?_
  | succ n ih => ?_
  all_goals
    rw [Nat.mul_succ, Nat.add_comm, runCore_add, runCore_frame hs hu, runFrames, andThen_assoc, andThen_assoc]
    refine andThen_congr fun t ht => ?_
    have hsame : s.sameOutsideFrame t := .of_execFrame ht
    have hbstep : t.bstep = 0x2#4 := (congrArg State.bstep hsame :).trans hs.bstep
    have htk : t.k = s.k := (congrArg State.k hsame :)
    have htn : t.nblk = s.nblk := (congrArg State.nblk hsame :)
    rw [andThen_next, State.advance, if_pos hbstep, if_pos (ustep_execFrame ht)]
  case zero =>
    rw [if_neg (by omega)]
    rfl
  case succ =>
    have hframe : t.frameDone.InFrame := ⟨(congrArg State.phase hsame :).trans hs.phase, hbstep⟩
    rw [if_pos (by omega), ih hframe rfl (by rw [frameDone_k, frameDone_nblk]; omega)]

/-- SELECT and LATCH of a block, as two steps (R123 to R125, R43). -/
theorem runCore_startBlock (s : State) (n k : Nat) :
    runCore (2 + k) (s.startBlock n) = runCore k (s.blockStart n) := by
  have hselect : step (s.startBlock n) = .next ((s.selected.startBlock n).atBstep 0x1#4) := by
    have hexec : exec .select (s.startBlock n) = .next (s.selected.startBlock n) :=
      selected_startBlock s n ▸ execSelect_eq (s.startBlock n)
    rw [step_of_fetch_internal (fetch_blockStep rfl (by decide : 0x0#4 ≠ 0x2#4) rfl), hexec]
    rfl
  have hlatch : step ((s.selected.startBlock n).atBstep 0x1#4) = .next (s.blockStart n) := by
    rw [step_of_fetch_internal (fetch_blockStep rfl (by decide : 0x1#4 ≠ 0x2#4) rfl)]
    rfl
  rw [Nat.add_comm, runCore_succ, hselect, andThen_next, runCore_succ, hlatch, andThen_next]

/-- Settles O15: after SELECT and LATCH the sequencer runs the frames of the block one micro-step at a time. -/
theorem runBlockIsItsInternalSteps : Obligations.RunBlockIsItsInternalSteps := by
  intro s n hp hl hn hstreams
  obtain ⟨m, hm⟩ : ∃ m, n.toNat = m + 1 := Nat.exists_eq_succ_of_ne_zero fun h => hn (BitVec.eq_of_toNat_eq h)
  have hframes := runCore_frames m (s := s.blockStart n.toNat) ⟨rfl, rfl⟩ rfl (by rw [← hm]; exact Nat.zero_add _)
  rw [← hm] at hframes
  calc exec (.runBlock n) s
    _ = runBlockBody n.toNat s := execRunBlock_of_admitted hp hl hn hstreams
    _ = runCore (15 * n.toNat) (s.blockStart n.toNat) := (runBlockBody_eq n.toNat s).trans hframes.symm
    _ = runCore (2 + 15 * n.toNat) (s.startBlock n.toNat) := (runCore_startBlock s n.toNat _).symm

end Sys2Proof.Machine
end

section
/-! A preset switch (70_reset_and_hazards.md R252): SELECT of a valid new index is a DERIVE, and finds its index
ACTIVE where that DERIVE has been done before. -/

namespace Sys2Proof.Machine

/-- A block that switches its preset starts its frames as from the state its DERIVE leaves. -/
theorem blockStart_of_switch {s : State} {e : CatalogEntry} (hne : s.ports.presetIn ≠ s.active)
    (he : catalogEntry? s.catalog s.ports.presetIn = some e) (n : Nat) :
    s.blockStart n = (s.deriveEntry s.ports.presetIn e).blockStart n := by
  have hswitch : s.selected = s.deriveEntry s.ports.presetIn e := by
    rw [State.selected, if_neg hne, he]
  have hsettled : (s.deriveEntry s.ports.presetIn e).selected = s.deriveEntry s.ports.presetIn e := by
    rw [State.selected, if_pos (by rw [deriveEntry_eq])]
  rw [State.blockStart, State.blockStart, hswitch, hsettled]

/-- Settles O17: both blocks are the same frames from the same start, and DERIVE's state is known field by field. -/
theorem presetSwitchRunsFromDerivedState : Obligations.PresetSwitchRunsFromDerivedState := by
  intro s n hp hl hn hstreams hne hv
  obtain ⟨e, he⟩ := catalogEntry?_isSome.2 hv
  have hderived : exec (.runBlock n) (s.deriveEntry s.ports.presetIn e) =
      runBlockBody n.toNat (s.deriveEntry s.ports.presetIn e) := by
    refine execRunBlock_of_admitted ?_ ?_ hn ?_ <;> rw [deriveEntry_eq] <;> assumption
  have hblock : exec (.runBlock n) s = exec (.runBlock n) (s.deriveEntry s.ports.presetIn e) := by
    rw [execRunBlock_of_admitted hp hl hn hstreams, hderived, runBlockBody_eq, runBlockBody_eq,
      blockStart_of_switch hne he]
  refine ⟨_, derive_eq_next.2 ⟨e, he, rfl⟩, ?_, ?_, ?_, ?_, ?_, ?_, ?_, ?_, ?_, hblock⟩
  all_goals rw [deriveEntry_eq]
  exact fun _ => rfl

end Sys2Proof.Machine
end

section
/-! Silence (42_frame_datapath.md R187, R190, 70_reset_and_hazards.md R251): sums and differences of zeros, and
products of a zero and a finite number, are zeros, so on a RAM of zeros a frame without input stores zeros and its
wet output is zero. -/

namespace Sys2Proof

namespace Fmt

theorem pack_zero (f : Fmt) (neg : Bool) (d : Nat) : pack f neg 0 d = withSign f neg 0 := by
  have hround (e : Nat) : roundNat 0 e = 0 := by simp [roundNat]
  simp [pack, roundMag, hround, ulpExp]

/-- A sum of two zeros is a packed zero. -/
theorem exists_add_of_zero {f : Fmt} {a b : Nat} {x y : Bool} (nan : Nat) (ha : unpack f a = .fin x 0)
    (hb : unpack f b = .fin y 0) : ∃ neg, add f nan a b = withSign f neg 0 := by
  simp only [add, ha, hb, if_true, Nat.add_zero, pack_zero]
  split
  · exact ⟨x, rfl⟩
  · exact ⟨false, rfl⟩

theorem exists_unpack_of_isFinite {f : Fmt} {a : Nat} (h : isFinite f a = true) : ∃ neg m, unpack f a = .fin neg m :=
  ⟨_, _, unpack_eq_fin_iff.2 ⟨of_decide_eq_true h, rfl, rfl⟩⟩

end Fmt

namespace F32

theorem isZero_iff {a : F32} : isZero a = true ↔ a = 0x00000000#32 ∨ a = 0x80000000#32 := by simp [isZero]

theorem exists_unpack_of_isZero {a : F32} (h : isZero a = true) : ∃ neg, Fmt.unpack .b32 a.toNat = .fin neg 0 := by
  rcases isZero_iff.1 h with rfl | rfl
  · exact ⟨false, by decide +kernel⟩
  · exact ⟨true, by decide +kernel⟩

theorem isZero_ofNat_withSign_zero (neg : Bool) : isZero (BitVec.ofNat 32 (Fmt.withSign .b32 neg 0)) = true := by
  cases neg <;> decide

section operations

variable {a b : F32} (nan : F32) (ha : isZero a = true)
include ha

theorem isZero_add (hb : isZero b = true) : isZero (add nan a b) = true := by
  obtain ⟨x, hx⟩ := exists_unpack_of_isZero ha
  obtain ⟨y, hy⟩ := exists_unpack_of_isZero hb
  obtain ⟨neg, hsum⟩ := Fmt.exists_add_of_zero nan.toNat hx hy
  rw [add, hsum]
  exact isZero_ofNat_withSign_zero neg

theorem isZero_sub (hb : isZero b = true) : isZero (sub nan a b) = true := by
  obtain ⟨x, hx⟩ := exists_unpack_of_isZero ha
  obtain ⟨y, hy⟩ := exists_unpack_of_isZero hb
  obtain ⟨neg, hsum⟩ := Fmt.exists_add_of_zero nan.toNat hx (Fmt.unpack_neg b.isLt hy)
  rw [sub, Fmt.sub, hsum]
  exact isZero_ofNat_withSign_zero neg

/-- A finite number blocks no zero, on either side. -/
theorem isZero_mul (hb : isFinite b = true) : isZero (mul nan a b) = true ∧ isZero (mul nan b a) = true := by
  obtain ⟨x, hx⟩ := exists_unpack_of_isZero ha
  obtain ⟨y, m, hy⟩ := Fmt.exists_unpack_of_isFinite hb
  have hab : Fmt.mul .b32 nan.toNat a.toNat b.toNat = Fmt.withSign .b32 (x != y) 0 := by
    simp only [Fmt.mul, hx, hy, Nat.zero_mul, Fmt.pack_zero]
  have hba : Fmt.mul .b32 nan.toNat b.toNat a.toNat = Fmt.withSign .b32 (y != x) 0 := by
    simp only [Fmt.mul, hx, hy, Nat.mul_zero, Fmt.pack_zero]
  rw [mul, mul, hab, hba]
  exact ⟨isZero_ofNat_withSign_zero _, isZero_ofNat_withSign_zero _⟩

end operations

end F32

end Sys2Proof

namespace Sys2Proof.Machine

open F32 (isZero isZero_add isZero_sub isZero_mul)

/-- A working register that holds no value but a zero. -/
def ZeroReg (r : Option F32) : Prop := ∀ x, r = some x → isZero x = true

theorem zeroReg_some {v : F32} (hv : isZero v = true) : ZeroReg (some v) := by
  rintro _ ⟨⟩
  exact hv

/-- A canonical RAM of zeros, finite gains, inputs of zero, and zeros in the working registers that hold a value. -/
structure State.Silent (s : State) : Prop where
  ramWf : memWf s.ram = true
  ram : ∀ a, isZero (memRead s.ram a) = true
  gains : ∀ g ∈ derivedGains s.params, F32.isFinite g = true
  inL : isZero (readInL s) = true
  inR : isZero (readInR s) = true
  lin : ZeroReg s.lin
  rin : ZeroReg s.rin
  lout : ZeroReg s.lout
  rout : ZeroReg s.rout

theorem isZero_reflectValue (d : Nat) {x t prev vWALL vIIR : F32} (hx : isZero x = true) (ht : isZero t = true)
    (hprev : isZero prev = true) (hwall : F32.isFinite vWALL = true) (hiir : F32.isFinite vIIR = true) :
    isZero (reflectValue d x t prev vWALL vIIR) = true := by
  have hsum := isZero_add (nan32 (d + 1)) hx (isZero_mul (nan32 d) ht hwall).1
  have hdiff := isZero_sub (nan32 (d + 2)) hsum hprev
  exact isZero_add _ (isZero_mul (nan32 (d + 3)) hdiff hiir).1 hprev

namespace State.Silent

variable {s t : State} (h : s.Silent)
include h

theorem setBuf (o : Int) {v : F32} (hv : isZero v = true) (n : Nat) : ((s.drew n).setBuf o v).Silent :=
  { h with
    ramWf := memWf_memWrite h.ramWf _ v
    ram := fun a => by
      rw [setBuf_ram, drew_ram, memRead_memWrite h.ramWf]
      split
      · exact hv
      · exact h.ram a }

theorem combValue (d : Nat) (a b c e : Nat) :
    isZero (combValue d s.params (memRead s.ram a) (memRead s.ram b) (memRead s.ram c) (memRead s.ram e)) = true := by
  have hterm (nan : F32) {g : F32} (hg : g ∈ derivedGains s.params) (a : Nat) :
      isZero (F32.mul nan g (memRead s.ram a)) = true := (isZero_mul nan (h.ram a) (h.gains g hg)).2
  have h1 := hterm (nan32 d) (g := s.params.vCOMB1) (by simp [derivedGains]) a
  have h2 := hterm (nan32 (d + 1)) (g := s.params.vCOMB2) (by simp [derivedGains]) b
  have h3 := hterm (nan32 (d + 3)) (g := s.params.vCOMB3) (by simp [derivedGains]) c
  have h4 := hterm (nan32 (d + 5)) (g := s.params.vCOMB4) (by simp [derivedGains]) e
  exact isZero_add _ (isZero_add _ (isZero_add _ h1 h2) h3) h4

/-- A reflection of a register stores a zero. -/
theorem of_reflect {r : Option F32} (hr : ZeroReg r) {far m : Int}
    (ht : withReg r (reflect · far m s) = .next t) : t.Silent := by
  obtain ⟨x, hx, ht⟩ := withReg_eq_next.1 ht
  obtain ⟨-, rfl⟩ := reflect_eq_next ht
  exact h.setBuf _ (isZero_reflectValue _ (hr x hx) (h.ram _) (h.ram _) (h.gains _ (by simp [derivedGains]))
    (h.gains _ (by simp [derivedGains]))) 5

/-- An all-pass stage on a register stores a zero and puts out a zero. -/
theorem of_apf {r : Option F32} (hr : ZeroReg r) {m d : Int} {g : F32}
    (hg : F32.isFinite g = true) {f : F32 → State → State}
    (ht : (withReg r fun x => apf x m d g s fun y s1 => .next (f y s1)) = .next t) :
    ∃ y u, isZero y = true ∧ u.Silent ∧ t = f y u := by
  obtain ⟨x, hx, ht⟩ := withReg_eq_next.1 ht
  obtain ⟨-, -, ht⟩ := apf_eq_next ht
  cases ht
  have hw : isZero (apfStored s.draws x g (memRead s.ram (bufAddr s (m - d)))) = true :=
    isZero_sub _ (hr x hx) (isZero_mul _ (h.ram _) hg).2
  have hu := h.setBuf m hw 4
  exact ⟨_, _, isZero_add _ (isZero_mul _ hw hg).1 (hu.ram _), hu, rfl⟩

/-- Every micro-step before ADV keeps the silence. -/
theorem of_exec {i : Instr} (hi : isMicroStep i = true ∧ i ∉ [Instr.adv, .smooth, .mixL, .mixR])
    (ht : exec i s = .next t) : t.Silent := by
  have hgain {g : F32} (hg : g ∈ derivedGains s.params) : F32.isFinite g = true := h.gains g hg
  cases i
  case construct | reset | runBlock | select | latch | frame | derive | clear => cases hi.1
  case adv | smooth | mixL | mixR => exact absurd (by decide) hi.2
  case input =>
    cases ht
    exact { h with
      lin := zeroReg_some (isZero_mul _ h.inL (hgain (by simp [derivedGains]))).2
      rin := zeroReg_some (isZero_mul _ h.inR (hgain (by simp [derivedGains]))).2 }
  case sameL | diffL => exact h.of_reflect h.lin ht
  case sameR | diffR => exact h.of_reflect h.rin ht
  case combL =>
    simp only [exec, execCombL] at ht
    cases comb_eq_next ht
    exact { h with lout := zeroReg_some (h.combValue _ _ _ _ _) }
  case combR =>
    simp only [exec, execCombR] at ht
    cases comb_eq_next ht
    exact { h with rout := zeroReg_some (h.combValue _ _ _ _ _) }
  case apf1L | apf2L =>
    obtain ⟨y, u, hy, hu, rfl⟩ := h.of_apf h.lout (hgain (by simp [derivedGains]))
      (f := fun y u => { u with lout := some y }) ht
    exact { hu with lout := zeroReg_some hy }
  case apf1R | apf2R =>
    obtain ⟨y, u, hy, hu, rfl⟩ := h.of_apf h.rout (hgain (by simp [derivedGains]))
      (f := fun y u => { u with rout := some y }) ht
    exact { hu with rout := zeroReg_some hy }

end State.Silent

/-- Which working registers hold a value when micro-steps have run. -/
theorem held_runMicro {l : List (BitVec 4 × Instr)} {s t : State} (hs : s.Sized) {h : Bool × Bool × Bool × Bool}
    (hh : l.foldlM (fun h p => heldAfter p.2 h) s.held = some h)
    (ht : runMicro (l.map fun p => (p.1, exec p.2)) s = .next t) : t.held = h := by
  induction l generalizing s with
  | nil =>
    cases ht
    exact Option.some.inj hh
  | cons p l ih =>
    rw [List.foldlM_cons] at hh
    obtain ⟨h1, hp, hl⟩ := Option.bind_eq_some_iff.1 hh
    obtain ⟨u, hu, hsized, rfl⟩ := exec_of_heldAfter (s := s.atUstep p.1) ⟨hs.pos, hs.leCap⟩ hp
    obtain ⟨v, hv, hrest⟩ := andThen_eq_next.1 ht
    obtain rfl : u = v := Host.Outcome.next.inj (hu.symm.trans hv)
    exact ih hsized hl hrest

/-- The micro-steps of a FRAME before ADV. -/
def wetInstrs : List (BitVec 4 × Instr) := microInstrs.take 11

theorem State.Silent.of_wetInstrs {s t : State} (h : s.Silent)
    (ht : runMicro (wetInstrs.map fun p => (p.1, exec p.2)) s = .next t) : t.Silent := by
  have hwet : ∀ q ∈ wetInstrs, isMicroStep q.2 = true ∧ q.2 ∉ [Instr.adv, .smooth, .mixL, .mixR] := by decide
  refine runMicro_keeps (P := State.Silent) (fun v c hv => { hv with }) (fun p hp v w hv hw => ?_) s t h ht
  obtain ⟨q, hq, rfl⟩ := List.mem_map.1 hp
  exact hv.of_exec (hwet q hq) hw

/-- The first eleven steps of a FRAME leave the sequencer at ADV. -/
theorem runCore_wetInstrs {s u : State} (hs : s.InFrame) (hustep : s.ustep = 0x0#4)
    (hu : runMicro (wetInstrs.map fun p => (p.1, exec p.2)) s.clearWorking = .next u) :
    runCore 11 s = .next (u.atUstep 0xB#4) := by
  have hseq : u.sequencer = (s.clearWorking.atUstep 0xA#4).sequencer :=
    sequencer_runMicro_append (l := wetInstrs.dropLast) (by decide) hu
  have hframe : u.InFrame := ⟨(congrArg (·.1) hseq).trans hs.phase, (congrArg (·.2.1) hseq).trans hs.bstep⟩
  have hulast : u.ustep = 0xA#4 := congrArg (·.2.2.1) hseq
  have hadv : u.advance = u.atUstep 0xB#4 := by
    rw [advance_of_ustep_ne hframe (by rw [hulast]; decide), hulast]
    rfl
  have hstart : s.microStart = s.clearWorking := if_pos hustep
  have hsteps := runCore_microSteps (p := (0x0#4, .input)) (l := wetInstrs.tail) (by decide)
    (isChain_microInstrs.take 11) hs hustep
  rw [hstart] at hsteps
  exact hsteps.trans (andThen_eq_next.2 ⟨u, hu, hadv ▸ rfl⟩)

/-- Settles O24: the eleven micro-steps complete, and each keeps the silence, the wet registers' among it. -/
theorem silentFrameFromZeroedRam : Obligations.SilentFrameFromZeroedRam := by
  intro s hs hwf hram hgains hinL hinR hphase hbstep hustep
  have hsized : s.clearWorking.Sized := ⟨hs.pos, hs.leCap⟩
  have hstart : s.clearWorking.Silent :=
    { ramWf := hwf, ram := fun a => F32.isZero_iff.2 (.inl (hram a)), gains := List.all_eq_true.1 hgains
      inL := hinL, inR := hinR, lin := nofun, rin := nofun, lout := nofun, rout := nofun }
  obtain ⟨u, hu⟩ := runMicro_of_heldAfter (l := wetInstrs) hsized rfl
  have hsilent := hstart.of_wetInstrs hu
  have hheld : u.held = (true, true, true, true) := held_runMicro hsized rfl hu
  obtain ⟨l, hl⟩ := Option.isSome_iff_exists.1 (congrArg (·.2.2.1) hheld : u.lout.isSome = true)
  obtain ⟨r, hr⟩ := Option.isSome_iff_exists.1 (congrArg (·.2.2.2) hheld : u.rout.isSome = true)
  exact ⟨u.atUstep 0xB#4, l, r, runCore_wetInstrs ⟨hphase, hbstep⟩ hustep hu, rfl, hl, hr, hsilent.lout l hl,
    hsilent.rout r hr⟩

end Sys2Proof.Machine
end
